-- ==== Sys2Proof/Word.lean ====
section
/-! DEFINITION. The widths of BPC63: value registers and command words are 64 bits, buffer bytes 8 bits (00_scope.md R10, R16), and the ceiling R11 names. -/

namespace Sys2Proof

/-- A value register, a command word, a status word (R10). -/
abbrev Word := BitVec 64

/-- One buffer byte (R30). -/
abbrev Byte := BitVec 8

/-- `ceil(a/8) = (a + 7) div 8` (R11). -/
def ceil8 (a : Nat) : Nat := (a + 7) / 8

end Sys2Proof
end

