-- ==== Sys2Proof/Syntax.lean ====
section
/-! DEFINITION. The instructions of BPC63: one constructor per row of spec/opcode_table.json. -/

namespace Sys2Proof

/-- The commands and host actions of BPC63. `e` is an engine number, `w` the WIDTH field, `s` the SLOT
field, `o` the BYTEOFF field, `b` the BITOFF field (R54), `k` a value register number, `a` a buffer
address. The four commands are what an engine performs (R66, R71, R76, R78); the other seven are what
the host does (R92 to R98). A host line `PACK e, w, s, o, b` of R61 is the host action `cmd` with that
command's word. -/
inductive Instr where
  /-- `PACK` (R66), performed by engine `e`. -/
  | pack (e : Nat) (w : BitVec 8) (s : Fin 8) (o : BitVec 32) (b : BitVec 3)
  /-- `UNPACK` (R71), performed by engine `e`. -/
  | unpack (e : Nat) (w : BitVec 8) (s : Fin 8) (o : BitVec 32) (b : BitVec 3)
  /-- `PACK8` (R76), performed by engine `e`. -/
  | pack8 (e : Nat) (w : BitVec 8) (o : BitVec 32)
  /-- `UNPACK8` (R78), performed by engine `e`. -/
  | unpack8 (e : Nat) (w : BitVec 8) (o : BitVec 32)
  /-- `CMD e, imm64` (R97): the host issues the command word `c` to engine `e`. -/
  | cmd (e : Nat) (c : Word)
  /-- `WRVAL e, k, imm64` (R92). -/
  | wrval (e k : Nat) (v : Word)
  /-- `RDVAL e, k` (R93). -/
  | rdval (e k : Nat)
  /-- `RDSTATUS e` (R94). -/
  | rdstatus (e : Nat)
  /-- `WRBUF a, imm8` (R95). -/
  | wrbuf (a : Nat) (v : Byte)
  /-- `RDBUF a` (R96). -/
  | rdbuf (a : Nat)
  /-- `WAIT e` (R98). -/
  | wait (e : Nat)
  deriving DecidableEq, Repr

end Sys2Proof
end

