-- ==== Sys2Proof/Bus.lean ====
section
/-! DEFINITION. What the agents take their instructions from: the lines of the host program (R61, R90), the bus accesses behind them (the "bus transaction" lines of R92 to R98), and the command word latched in an engine (R24). -/

namespace Sys2Proof

/-- One host access, the bus transaction of a host action. `bytes` is the access width in bytes and `addr` an address of the named space (DEDUCED, log 13). -/
inductive Access where
  /-- A write to the register space. -/
  | regWrite (bytes addr : Nat) (data : Word)
  /-- A read of the register space. -/
  | regRead (bytes addr : Nat)
  /-- The repeated, unlogged 64-bit read of `WAIT` (R62, R98; DEDUCED, log 7). -/
  | regPoll (addr : Nat)
  /-- A write to the buffer space. -/
  | bufWrite (bytes addr : Nat) (data : Byte)
  /-- A read of the buffer space. -/
  | bufRead (bytes addr : Nat)
  deriving DecidableEq, Repr

/-- One entry of the host program (R90): a line in the syntax of R61, or a bus access written down as such. The second
form is there because the spec also says what accesses outside the action table do (R53, R105; log 4). -/
inductive Line where
  /-- A line of R61. A line that names a command issues it. -/
  | action (i : Instr)
  /-- A bus access. -/
  | access (x : Access)
  deriving DecidableEq, Repr

/-- What an agent takes its next instruction from. -/
inductive Code where
  /-- The command word latched in engine `e` (R24, R99). -/
  | command (e : Nat) (c : Word)
  /-- The host's action at `hpc` (R91). -/
  | line (l : Line)
  deriving DecidableEq, Repr

/-- The register a window offset names (the table of R19). -/
inductive Reg where
  | cmd
  | status
  | val (k : Nat)
  deriving DecidableEq, Repr

/-- Why the decoder rejects: the two refusals of R105. -/
inductive DecodeError where
  /-- A reserved command word (R57). -/
  | reservedField
  /-- A host access the block does not define, or an action that names no engine or register (R105). -/
  | unmapped
  deriving DecidableEq, Repr

end Sys2Proof
end

