-- ==== Sys2Proof/Config.lean ====
section
/-! DEFINITION. What an implementation fixes (the OPEN parameters R7, R8, R9) and the one free value of the model: the order in which the agents move (R100). -/

namespace Sys2Proof

/-- The OPEN parameters of a BPC63 system (00_scope.md R7, R8, R9; 93_implementation_defined.md U14).
They are carried in the state and no step changes them. -/
structure Config where
  /-- `N_ENGINES` (R7). -/
  nEngines : Nat
  /-- `BUF_BYTES` (R8). -/
  bufBytes : Nat
  /-- `REG_BASE` (R9). -/
  regBase : Nat
  deriving DecidableEq, Repr

/-- The bounds the spec puts on the parameters: `N_ENGINES ≥ 1` (R7), `1 ≤ BUF_BYTES ≤ 2^32` (R8). -/
abbrev Config.Valid (c : Config) : Prop := 1 ≤ c.nEngines ∧ 1 ≤ c.bufBytes ∧ c.bufBytes ≤ 2 ^ 32

/-- DESIGN CHOICE (log 1): the parameters of the one machine `State.reset` is. They are those of the
spec's own vectors (95_test_vectors.md: `N_ENGINES = 1`, `BUF_BYTES = 64`). -/
def Config.standard : Config := { nEngines := 1, bufBytes := 64, regBase := 0 }

/-- DESIGN CHOICE (log 3): the free value behind R100, "any agent with an enabled step may take it".
Applied to the step counter, it picks among the enabled agents. It has no body to reason from. -/
opaque Config.freeAgent : Nat → Nat

end Sys2Proof
end

