-- ==== Sys2Proof/Machine/State.lean ====
section
/-! DEFINITION. The state of a BPC63 system (10_state.md, 43_host.md R90, R91), the reasons a step can stop (60_exceptions.md R104, R105), and the state after reset (R33, R117, R118). -/

namespace Sys2Proof.Machine

/-- The model faults of R104. Each is raised before the instruction writes anything, and each is SAFE:
it makes true claims unprovable and no false claim provable (R104). -/
inductive Fault where
  /-- PACK, UNPACK: WIDTH outside 1..63 on the unchecked path (R64). Safe. -/
  | undefWidth
  /-- PACK, PACK8: a value register does not fit the width (R68, R77). Safe. -/
  | valueTooWide
  /-- PACK, UNPACK, PACK8, UNPACK8, WRBUF, RDBUF: an address at or past `BUF_BYTES` (R43, R95, R96). Safe. -/
  | outOfBounds
  /-- PACK, UNPACK, PACK8, UNPACK8, RDVAL, RDBUF: a read of an unwritten register or byte, which R22, R31 and R104 make
  this fault (93_implementation_defined.md U6). Safe. -/
  | unwritten
  /-- CMD, WRVAL, RDVAL, WRBUF, RDBUF: a host access that conflicts with a busy engine (R47). Safe. -/
  | hazard
  /-- CMD: two in-flight commands with conflicting footprints (R48). Safe. -/
  | overlap
  deriving DecidableEq, Repr

/-- The refusals of R105, and the host's own for an instruction with no meaning yet. -/
inductive Refusal where
  /-- Raised by an arm of exec for an instruction that has no meaning yet. No arm raises it. Safe. -/
  | notModelled (mnemonic : String)
  /-- CMD, and a step of an engine that holds such a word: a reserved command word (R57). Safe. -/
  | reservedField
  /-- A host access the block does not define, or an engine or value register that does not exist (R105). Safe. -/
  | unmapped
  deriving DecidableEq, Repr

/-- The agents of R18. -/
inductive Agent where
  | host
  | engine (e : Nat)
  deriving DecidableEq, Repr

/-- One entry of the host's read log (R90, R93, R94, R96). -/
inductive LogEntry where
  | val (e k : Nat) (v : Word)
  | status (e : Nat) (v : Word)
  | buf (a : Nat) (v : Byte)
  deriving DecidableEq, Repr

/-- The fields of `STATUS[e]` (R26). The reserved bits hold nothing: they read as 0. -/
structure Status where
  /-- `BUSY`, bit [0]. -/
  busy : Bool
  /-- `ERRCODE`, bits [2:1]. -/
  errCode : BitVec 2
  /-- `ERRVAL`, bits [15:8]. -/
  errVal : BitVec 8
  deriving DecidableEq, Repr

/-- The registers of one engine (R19, R20, R24, R26). -/
structure Engine where
  /-- `STATUS[e]`. -/
  status : Status
  /-- `INFLIGHT[e]`: none, or the latched command word (R24). -/
  inflight : Option Word
  /-- `VAL[e][0..7]`: each holds a 64-bit value or the mark *unwritten* (R20), here `none`. -/
  vals : Vector (Option Word) 8
  deriving DecidableEq, Repr

/-- The state of a BPC63 system. `sched` and `ticks` are the model's own (log 3): they say which of the
agents that could move moves next, which R100 leaves open. -/
structure State where
  /-- The parameters of R7, R8, R9. No step changes them. -/
  cfg : Config
  /-- The engines, engine `e` at index `e` (R18). -/
  engines : List Engine
  /-- The buffer `B` (R30): its written bytes, addresses strictly rising. An unlisted byte is unwritten (R31; log 2). -/
  buf : List Host.Cell
  /-- The host program (R90). No step changes it. -/
  prog : List Line
  /-- The host program counter (R91). -/
  hpc : Nat
  /-- The read log, oldest entry first (R90). -/
  readLog : List LogEntry
  /-- The model's own: the order in which the agents are to move, the next first. -/
  sched : List Agent
  /-- The model's own: how many steps have been taken, the argument of `Config.freeAgent`. -/
  ticks : Nat
  deriving DecidableEq, Repr

/-- `STATUS[e]` after reset (R33). -/
def Status.reset : Status := { busy := false, errCode := 0#2, errVal := 0#8 }

/-- An engine after reset (R33): idle, STATUS 0, every value register unwritten. -/
def Engine.reset : Engine := { status := Status.reset, inflight := none, vals := Vector.replicate 8 none }

/-- A launch state of R118: the parameters, reset engines, the buffer `BUF_INIT`, the host program,
`hpc = 0` and an empty read log. -/
def State.launch (cfg : Config) (bufInit : List Host.Cell) (prog : List Line) (sched : List Agent) : State :=
  { cfg := cfg, engines := List.replicate cfg.nEngines Engine.reset, buf := bufInit, prog := prog, hpc := 0,
    readLog := [], sched := sched, ticks := 0 }

/-- The machine right after reset (R33, R117, R118), of the parameters of `Config.standard` (log 1),
with nothing in the buffer and no program placed (log 4). -/
def State.reset : State := State.launch Config.standard [] [] []

end Sys2Proof.Machine
end

