-- ==== Sys2Proof/Machine/Flags.lean ====
section
/-! DEFINITION. The status register: its fields as one word (R26, R94), what issuing a command sets (R23) and what completing one sets (R27, R28, R29). -/

namespace Sys2Proof.Machine

/-- `STATUS[e]` as the host reads it: `BUSY | (ERRCODE << 1) | (ERRVAL << 8)`, every other bit 0 (R26, R94). -/
def Status.word (t : Status) : Word :=
  (if t.busy then 1#64 else 0#64) ||| (t.errCode.setWidth 64 <<< 1) ||| (t.errVal.setWidth 64 <<< 8)

/-- ERRCODE 0, NONE (R27). -/
def errNone : BitVec 2 := 0#2

/-- ERRCODE 1, INVALID_WIDTH (R27, R103). -/
def errInvalidWidth : BitVec 2 := 1#2

/-- `STATUS[e].BUSY <- 1`, the other fields as they were (R23, R94). -/
def Status.issue (t : Status) : Status := { t with busy := true }

/-- What a completion leaves in `STATUS[e]`: `BUSY <- 0` and both error fields set (R29). -/
def Status.done (code : BitVec 2) (val : BitVec 8) : Status := { busy := false, errCode := code, errVal := val }

end Sys2Proof.Machine
end

