-- ==== Sys2Proof/WellFormed.lean ====
section
/-! DEFINITION. The operand bounds an instruction must meet. The field widths of R54 are in the types; what is left is that the engine exists and that the value register exists (R92, R105). -/

namespace Sys2Proof

/-- `e < N_ENGINES` for every instruction that names an engine, and `k` in 0..7 for `WRVAL` and `RDVAL`
(R92, R105). A buffer address has no bound of its own here: R95 and R96 give an address past the buffer
an outcome. -/
def Instr.wellFormed (cfg : Config) : Instr → Bool
  | .pack e _ _ _ _ => e < cfg.nEngines
  | .unpack e _ _ _ _ => e < cfg.nEngines
  | .pack8 e _ _ => e < cfg.nEngines
  | .unpack8 e _ _ => e < cfg.nEngines
  | .cmd e _ => e < cfg.nEngines
  | .wrval e k _ => e < cfg.nEngines && k < 8
  | .rdval e k => e < cfg.nEngines && k < 8
  | .rdstatus e => e < cfg.nEngines
  | .wrbuf _ _ => true
  | .rdbuf _ => true
  | .wait e => e < cfg.nEngines

end Sys2Proof
end

