-- ==== Sys2Proof/Decode.lean ====
section
/-! DEFINITION. The decoder of command words (R54 to R60), of host accesses (R19, R53, R92 to R98, R105) and of the lines of a host program (R61), the encoder, and the assembler. -/

namespace Sys2Proof

/-! ## Command words -/

/-- `OP`, bits [1:0] (R54). -/
def cmdOp (c : Word) : BitVec 2 := c.extractLsb' 0 2

/-- `BITOFF`, bits [4:2] (R54). -/
def cmdBitOff (c : Word) : BitVec 3 := c.extractLsb' 2 3

/-- `SLOT`, bits [7:5] (R54). -/
def cmdSlot (c : Word) : Fin 8 := ⟨(c.extractLsb' 5 3).toNat, (c.extractLsb' 5 3).isLt⟩

/-- `WIDTH`, bits [15:8] (R54). -/
def cmdWidth (c : Word) : BitVec 8 := c.extractLsb' 8 8

/-- `BYTEOFF`, bits [63:32] (R54). -/
def cmdByteOff (c : Word) : BitVec 32 := c.extractLsb' 32 32

/-- A command word is reserved when `c[31:16] ≠ 0`, or when `c[7:2] ≠ 0` and OP is PACK8 or UNPACK8 (R57). -/
def reservedWord (c : Word) : Bool :=
  c.extractLsb' 16 16 != 0#16 ||
    ((cmdOp c == 2#2 || cmdOp c == 3#2) && c.extractLsb' 2 6 != 0#6)

/-- Engine `e`'s instruction for the command word `c` (R55, R56): every word that is not reserved
decodes, whatever its WIDTH (R58). -/
def decodeCommand (e : Nat) (c : Word) : Except DecodeError Instr :=
  if reservedWord c then .error .reservedField
  else if cmdOp c = 0#2 then .ok (.pack e (cmdWidth c) (cmdSlot c) (cmdByteOff c) (cmdBitOff c))
  else if cmdOp c = 1#2 then .ok (.unpack e (cmdWidth c) (cmdSlot c) (cmdByteOff c) (cmdBitOff c))
  else if cmdOp c = 2#2 then .ok (.pack8 e (cmdWidth c) (cmdByteOff c))
  else .ok (.unpack8 e (cmdWidth c) (cmdByteOff c))

/-! ## Host accesses -/

/-- The register at a window offset (R19). Every other offset is reserved, the misaligned ones among
them (R53). -/
def regAt (off : Nat) : Option Reg :=
  if off = 0x000 then some .cmd
  else if off = 0x008 then some .status
  else if 0x040 ≤ off ∧ off < 0x080 ∧ off % 8 = 0 then some (.val ((off - 0x040) / 8))
  else none

/-- The engine and register a register-space address names: engine `e`'s window is the 0x100 bytes at
`REG_BASE + 0x100*e` (R9, R19). `none` for a reserved offset and for an address in no engine's window (DEDUCED, log 11). -/
def locate (cfg : Config) (addr : Nat) : Option (Nat × Reg) :=
  if addr < cfg.regBase then none
  else
    let e := (addr - cfg.regBase) / 0x100
    if e < cfg.nEngines then (regAt ((addr - cfg.regBase) % 0x100)).map (fun r => (e, r)) else none

/-- The host action a bus access is (the bus transaction lines of R92 to R98), or `unmapped` for an
access the block does not define (R105): a reserved offset, a read of CMD, a write of STATUS, a wrong
width or alignment, an engine that does not exist.

It looks at no state, so an access it rejects is refused before any test of the engine or the buffer. DESIGN CHOICE
(log 15): a read of `CMD[e]`, or an access of the wrong width or alignment to CMD or a value register, while engine `e`
is busy is both a hazard of R47 and a refusal of R105, and R106 gives no order between them; the same of a buffer access
wider than a byte that lies past the buffer or on a busy command's bytes (R43, R47), and of a write to CMD that names
no engine or has the wrong width, and whose word is reserved (R57). UNMAPPED is taken. -/
def decodeAccess (cfg : Config) : Access → Except DecodeError Instr
  | .regWrite n addr d =>
    if n ≠ 8 then .error .unmapped
    else match locate cfg addr with
      | some (e, .cmd) => .ok (.cmd e d)
      | some (e, .val k) => .ok (.wrval e k d)
      | _ => .error .unmapped
  | .regRead n addr =>
    if n ≠ 8 then .error .unmapped
    else match locate cfg addr with
      | some (e, .status) => .ok (.rdstatus e)
      | some (e, .val k) => .ok (.rdval e k)
      | _ => .error .unmapped
  | .regPoll addr =>
    match locate cfg addr with
    | some (e, .status) => .ok (.wait e)
    | _ => .error .unmapped
  | .bufWrite n a v => if n = 1 then .ok (.wrbuf a v) else .error .unmapped
  | .bufRead n a => if n = 1 then .ok (.rdbuf a) else .error .unmapped

/-! ## The encoder -/

/-- The `CMD64` format of R54, its fields side by side from bit 63 down to bit 0. -/
def cmdWord (op : BitVec 2) (b : BitVec 3) (s : Fin 8) (w : BitVec 8) (o : BitVec 32) : Word :=
  o ++ 0#16 ++ w ++ (BitVec.ofFin s : BitVec 3) ++ b ++ op

/-- The address of a window offset of engine `e` (R19). -/
def regAddr (cfg : Config) (e off : Nat) : Nat := cfg.regBase + 0x100 * e + off

/-- The host access that writes the command word `c` to `CMD[e]` (R97). -/
def issueAccess (cfg : Config) (e : Nat) (c : Word) : Access := .regWrite 8 (regAddr cfg e 0x000) c

/-- The bus access of a line of the host program (the assembler of R61, the bus transactions of R92 to R98). A line
that names a command issues its word to `CMD[e]`. -/
def assemble (cfg : Config) : Instr → Access
  | .pack e w s o b => issueAccess cfg e (cmdWord 0#2 b s w o)
  | .unpack e w s o b => issueAccess cfg e (cmdWord 1#2 b s w o)
  | .pack8 e w o => issueAccess cfg e (cmdWord 2#2 0#3 0 w o)
  | .unpack8 e w o => issueAccess cfg e (cmdWord 3#2 0#3 0 w o)
  | .cmd e c => issueAccess cfg e c
  | .wrval e k v => .regWrite 8 (regAddr cfg e (0x040 + 8 * k)) v
  | .rdval e k => .regRead 8 (regAddr cfg e (0x040 + 8 * k))
  | .rdstatus e => .regRead 8 (regAddr cfg e 0x008)
  | .wrbuf a v => .bufWrite 1 a v
  | .rdbuf a => .bufRead 1 a
  | .wait e => .regPoll (regAddr cfg e 0x008)

/-- The encoder: the command word of a command, in its engine; the bus access of a host action (R54, R92 to R98). -/
def encode (cfg : Config) : Instr → Code
  | .pack e w s o b => .command e (cmdWord 0#2 b s w o)
  | .unpack e w s o b => .command e (cmdWord 1#2 b s w o)
  | .pack8 e w o => .command e (cmdWord 2#2 0#3 0 w o)
  | .unpack8 e w o => .command e (cmdWord 3#2 0#3 0 w o)
  | .cmd e c => .line (.access (assemble cfg (.cmd e c)))
  | .wrval e k v => .line (.access (assemble cfg (.wrval e k v)))
  | .rdval e k => .line (.access (assemble cfg (.rdval e k)))
  | .rdstatus e => .line (.access (assemble cfg (.rdstatus e)))
  | .wrbuf a v => .line (.access (assemble cfg (.wrbuf a v)))
  | .rdbuf a => .line (.access (assemble cfg (.rdbuf a)))
  | .wait e => .line (.access (assemble cfg (.wait e)))

/-! ## The decoder -/

/-- The host action at an entry of the host program. A line whose engine or value register does not exist is refused,
whatever its bus transaction would address (R105); any other line goes through its bus transaction.

DESIGN CHOICE (log 15): such a line may also issue a reserved word (RESERVED_FIELD, R57) or a word that conflicts with
one in flight (OVERLAP, R48), or name a missing register of a busy engine (HAZARD, R92, R93), and R106 gives no order
between those and UNMAPPED. UNMAPPED is taken. -/
def decodeLine (cfg : Config) : Line → Except DecodeError Instr
  | .access x => decodeAccess cfg x
  | .action i => if i.wellFormed cfg then decodeAccess cfg (assemble cfg i) else .error .unmapped

/-- The decoder: total, and it rejects by name. -/
def decode (cfg : Config) : Code → Except DecodeError Instr
  | .command e c => decodeCommand e c
  | .line l => decodeLine cfg l

/-! ## The opcode table's numbering -/

/-- The host access with window offset `off` at engine 0. The table gives a HOSTBUS row the offset and
not the direction (DESIGN CHOICE, log 8): the write at that offset where the block defines one, else the
read. -/
def tableAccess (cfg : Config) (off : Nat) : Access :=
  match decodeAccess cfg (.regWrite 8 (regAddr cfg 0 off) 0#64) with
  | .ok _ => .regWrite 8 (regAddr cfg 0 off) 0#64
  | .error _ => .regRead 8 (regAddr cfg 0 off)

/-- The code a table row's bits stand for: a row of one byte is a window offset of a host action, a
longer row a command word latched in engine 0, the bits above it 0. -/
def tableCode (cfg : Config) (nbits w : Nat) : Code :=
  if nbits ≤ 8 then .line (.access (tableAccess cfg w)) else .command 0 (BitVec.ofNat 64 w)

/-- What the decoder reads from an instruction whose bits are `w`, numbered as spec/opcode_table.json
numbers them. -/
def decodeTableWord (nbits w : Nat) : Option Instr :=
  match decode Config.standard (tableCode Config.standard nbits w) with
  | .ok i => some i
  | .error _ => none

end Sys2Proof
end

