-- ==== Sys2Proof/Machine/Operands.lean ====
section
/-! DEFINITION. The codec's arithmetic on exact naturals (R11): footprints and shift amounts (R15), fields split and joined most significant first (R14, R37), the image of a value (R65), and the read and write sets of a command word (R42). -/

namespace Sys2Proof.Machine

/-! ## Footprint and aligner -/

/-- The number of bytes in the footprint of a `w`-bit field at bit offset `b` (R15): `ceil((b + w)/8)`, and none for `w = 0`. -/
def footLen (b w : Nat) : Nat := if w = 0 then 0 else ceil8 (b + w)

/-- The shift amount of the aligner, `8n - b - w` (R15, R65). -/
def shiftAmt (b w : Nat) : Nat := 8 * footLen b w - b - w

/-- The legal widths, 1..63 (R58). -/
def legalWidth (w : Nat) : Bool := 1 ≤ w && w ≤ 63

/-! ## Joining and splitting -/

/-- The concatenation of fields of one width, the first the most significant:
the sum of `v_k << (w*(n-1-k))` (R71, R76, R78). -/
def joinFields (w : Nat) : List Nat → Nat
  | [] => 0
  | v :: vs => (v <<< (w * vs.length)) + joinFields w vs

/-- Field `k` of the `n` fields of width `w` of `x`, field 0 the most significant: `(x >> (w*(n-1-k))) mod 2^w` (R78). -/
def fieldOf (w n x k : Nat) : Nat := (x >>> (w * (n - 1 - k))) % 2 ^ w

/-- The `n` bytes of `x`, most significant first: byte `j` is `(x >> (8*(n-1-j))) & 0xFF` (R65, R76). -/
def splitBytes : (n x : Nat) → List Byte
  | 0, _ => []
  | n + 1, x => BitVec.ofNat 8 (x >>> (8 * n)) :: splitBytes n x

/-- The big-endian window of a list of bytes: the sum of `B[j] << (8*(n-1-j))` (R71, R78). -/
def joinBytes (bs : List Byte) : Nat := joinFields 8 (bs.map BitVec.toNat)

/-! ## The image of a value -/

/-- The image of `v` at bit offset `b` (R65): `v` shifted left by the aligner, split into the footprint's bytes. -/
def image (v w b : Nat) : List Byte := splitBytes (footLen b w) (v <<< shiftAmt b w)

/-- What PACK puts in its footprint: the image, its first byte OR-ed with the byte that was there (R66, case `b > 0`). -/
def orHead (old : Byte) : List Byte → List Byte
  | [] => []
  | x :: xs => (old ||| x) :: xs

/-! ## Read and write sets -/

/-- The consecutive addresses `start .. start + len - 1`. -/
structure Span where
  start : Nat
  len : Nat
  deriving DecidableEq, Repr

/-- `a ∈ p`. -/
def Span.has (p : Span) (a : Nat) : Bool := p.start ≤ a && a < p.start + p.len

/-- `p ∩ q ≠ ∅`. -/
def Span.meets (p q : Span) : Bool := max p.start q.start < min (p.start + p.len) (q.start + q.len)

/-- `Rd(c)` (R42). -/
def readSpan (c : Word) : Span :=
  let w := (cmdWidth c).toNat
  let b := (cmdBitOff c).toNat
  let o := (cmdByteOff c).toNat
  if cmdOp c = 0#2 then ⟨o, if 0 < b ∧ 1 ≤ w then 1 else 0⟩
  else if cmdOp c = 1#2 then ⟨o, footLen b w⟩
  else if cmdOp c = 2#2 then ⟨o, 0⟩
  else ⟨o, if legalWidth w then w else 0⟩

/-- `Wr(c)` (R42). -/
def writeSpan (c : Word) : Span :=
  let w := (cmdWidth c).toNat
  let b := (cmdBitOff c).toNat
  let o := (cmdByteOff c).toNat
  if cmdOp c = 0#2 then ⟨o, footLen b w⟩
  else if cmdOp c = 1#2 then ⟨o, 0⟩
  else if cmdOp c = 2#2 then ⟨o, if legalWidth w then w else 0⟩
  else ⟨o, 0⟩

/-- The footprint of `c` holds `a`: `a ∈ Rd(c) ∪ Wr(c)` (R42). -/
def footHas (c : Word) (a : Nat) : Bool := (readSpan c).has a || (writeSpan c).has a

/-- Two commands conflict (R48): `Wr(c) ∩ (Rd(c') ∪ Wr(c')) ≠ ∅` or `Wr(c') ∩ Rd(c) ≠ ∅`. -/
def conflict (c c' : Word) : Bool :=
  (writeSpan c).meets (readSpan c') || (writeSpan c).meets (writeSpan c') || (writeSpan c').meets (readSpan c)

end Sys2Proof.Machine
end

