-- ==== Sys2Proof/Machine/Ops.lean ====
section
/-! DEFINITION. The named operations over the buffer (R30, R31, R41, R43), the value registers (R20, R22) and the engines: issuing (R97), completing (R29), the one architected exception (R103), the conflict checks (R47, R48), and the host's step (R91). -/

namespace Sys2Proof.Machine

/-! ## The buffer -/

/-- `B[a]`, or `none` when the byte is unwritten (R31). -/
def readByte : List Host.Cell → Nat → Option Byte
  | [], _ => none
  | (x, v) :: m, a => if x = a then some v else readByte m a

/-- `B[a] <- v`; the byte becomes written (R31). Keeps the addresses strictly rising. -/
def writeByte : List Host.Cell → Nat → Byte → List Host.Cell
  | [], a, v => [(a, v)]
  | (x, y) :: m, a, v =>
    if a < x then (a, v) :: (x, y) :: m
    else if a = x then (a, v) :: m
    else (x, y) :: writeByte m a v

/-- The canonical form: every address is above `lo`'s bound and the addresses rise strictly. -/
def cellsFrom (lo : Nat) : List Host.Cell → Bool
  | [] => true
  | (x, _) :: m => lo ≤ x && cellsFrom (x + 1) m

/-- The buffer's canonical form: addresses strictly rising. -/
def Memory.wf (m : List Host.Cell) : Bool := cellsFrom 0 m

/-- `B[a .. a+n-1]`, or `none` when one of them is unwritten. -/
def readBytes (m : List Host.Cell) : (a n : Nat) → Option (List Byte)
  | _, 0 => some []
  | a, n + 1 =>
    match readByte m a, readBytes m (a + 1) n with
    | some x, some xs => some (x :: xs)
    | _, _ => none

/-- `B[a + j] <- bs[j]` for every `j`, in ascending order (R66, R76). -/
def writeBytes (m : List Host.Cell) : Nat → List Byte → List Host.Cell
  | _, [] => m
  | a, x :: xs => writeBytes (writeByte m a x) (a + 1) xs

/-- The buffer write of PACK (R66): store the image of `v`, its first byte OR-ed into `B[o]` when `b > 0`.
`none` when `b > 0` and `B[o]` is unwritten. -/
def packField (m : List Host.Cell) (o b w v : Nat) : Option (List Host.Cell) :=
  if b = 0 then some (writeBytes m o (image v w b))
  else match readByte m o with
    | none => none
    | some old => some (writeBytes m o (orHead old (image v w b)))

/-- The value UNPACK reads (R71): `(R >> sh) & (2^w - 1)` of the footprint's window, or `none` when a byte
of the footprint is unwritten. -/
def unpackField (m : List Host.Cell) (o b w : Nat) : Option Nat :=
  match readBytes m o (footLen b w) with
  | none => none
  | some bs => some ((joinBytes bs >>> shiftAmt b w) &&& (2 ^ w - 1))

/-- The buffer write of PACK8 (R76): the `8w`-bit concatenation of the lanes, lane 0 most significant, every
byte stored. -/
def packBlock (m : List Host.Cell) (o w : Nat) (vs : List Nat) : List Host.Cell :=
  writeBytes m o (splitBytes w (joinFields w vs))

/-- The window UNPACK8 reads (R78), or `none` when one of its `w` bytes is unwritten. -/
def unpackBlock (m : List Host.Cell) (o w : Nat) : Option Nat :=
  match readBytes m o w with
  | none => none
  | some bs => some (joinBytes bs)

/-! ## The value registers -/

/-- `VAL[e][k]`, or `none` when it is unwritten (R22). -/
def Engine.val (g : Engine) (k : Fin 8) : Option Word := g.vals[k.val]

/-- `VAL[e][k] <- v`; the register becomes written. -/
def Engine.setVal (g : Engine) (k : Fin 8) (v : Word) : Engine := { g with vals := g.vals.set k.val (some v) }

/-- Every value of a list of registers, or `none` when one is unwritten. -/
def allWritten : List (Option Word) → Option (List Word)
  | [] => some []
  | none :: _ => none
  | some v :: r =>
    match allWritten r with
    | none => none
    | some vs => some (v :: vs)

/-- `VAL[e][0..7]` as naturals (R21), or `none` when one is unwritten (R76). -/
def Engine.lanes (g : Engine) : Option (List Nat) := (allWritten g.vals.toList).map (List.map BitVec.toNat)

/-- `VAL[e][k] <- f k` for `k = 0..7` (R78). -/
def Engine.setLanes (g : Engine) (f : Nat → Nat) : Engine :=
  { g with vals := #v[some (BitVec.ofNat 64 (f 0)), some (BitVec.ofNat 64 (f 1)), some (BitVec.ofNat 64 (f 2)),
      some (BitVec.ofNat 64 (f 3)), some (BitVec.ofNat 64 (f 4)), some (BitVec.ofNat 64 (f 5)),
      some (BitVec.ofNat 64 (f 6)), some (BitVec.ofNat 64 (f 7))] }

/-! ## The engines -/

/-- The state with engine `e` replaced by `g`. -/
def State.setEngine (s : State) (e : Nat) (g : Engine) : State := { s with engines := s.engines.set e g }

/-- The state with the buffer replaced by `m`. -/
def State.setBuf (s : State) (m : List Host.Cell) : State := { s with buf := m }

/-- `INFLIGHT[e] <- c`, `STATUS[e].BUSY <- 1` (R23). -/
def Engine.issue (g : Engine) (c : Word) : Engine := { g with inflight := some c, status := g.status.issue }

/-- Completion (R29): `INFLIGHT[e] <- none`, `BUSY <- 0`, both error fields set. -/
def Engine.complete (g : Engine) (code : BitVec 2) (val : BitVec 8) : Engine :=
  { g with inflight := none, status := Status.done code val }

/-- The completion of a command that reports no failure (R27, R28). -/
def Engine.succeed (g : Engine) : Engine := g.complete errNone 0#8

/-- The one architected exception, INVALID_WIDTH (R75, R103): the command completes with ERRCODE 1 and the
offending WIDTH in ERRVAL, and nothing else changes. Nothing is saved and nothing returns from it (R107, R108). -/
def State.invalidWidth (s : State) (e : Nat) (g : Engine) (w : BitVec 8) : State :=
  s.setEngine e (g.complete errInvalidWidth w)

/-- What an instruction that names engine `e` does with it; an engine that does not exist is refused (R105), before
any other stop (DESIGN CHOICE, log 15). -/
def withEngine (s : State) (e : Nat) (f : Engine → Host.Outcome State Fault Refusal) :
    Host.Outcome State Fault Refusal :=
  match s.engines[e]? with
  | none => .refused .unmapped
  | some g => f g

/-- What an instruction that names value register `k` does with it; a register that does not exist is refused (R105),
before any other stop (DESIGN CHOICE, log 15). -/
def withReg (k : Nat) (f : Fin 8 → Host.Outcome State Fault Refusal) : Host.Outcome State Fault Refusal :=
  if h : k < 8 then f ⟨k, h⟩ else .refused .unmapped

/-! ## Conflicts -/

/-- Engine `g` is busy with a command `c` for which `p c` holds. -/
def Engine.busyWith (g : Engine) (p : Word → Bool) : Bool :=
  g.status.busy && (match g.inflight with
    | some c => p c
    | none => false)

/-- Some busy engine's command has `a ∈ Rd(c) ∪ Wr(c)`: a host write of byte `a` is a hazard (R47). -/
def writeHazard (s : State) (a : Nat) : Bool := s.engines.any (fun g => g.busyWith (fun c => footHas c a))

/-- Some busy engine's command has `a ∈ Wr(c)`: a host read of byte `a` is a hazard (R47). -/
def readHazard (s : State) (a : Nat) : Bool := s.engines.any (fun g => g.busyWith (fun c => (writeSpan c).has a))

/-- Some engine other than `e` is busy with a command that conflicts with `c` (R48). -/
def overlaps (s : State) (e : Nat) (c : Word) : Bool :=
  (List.range s.engines.length).any (fun e' => e' != e && (match s.engines[e']? with
    | some g => g.busyWith (fun c' => conflict c c')
    | none => false))

/-! ## The host -/

/-- `pc <- hpc + 1` (R91). -/
def State.advance (s : State) : State := { s with hpc := s.hpc + 1 }

/-- Append one entry to the read log (R90). -/
def State.log (s : State) (x : LogEntry) : State := { s with readLog := s.readLog ++ [x] }

end Sys2Proof.Machine
end

