-- ==== Sys2Proof/Machine/Block8.lean ====
section
/-! DEFINITION. The block commands PACK8 (R75, R76) and UNPACK8 (R75, R78), as an engine performs them. -/

namespace Sys2Proof.Machine

/-- `PACK8` (R75, R76, R77; the order of the outcomes is R106's). -/
def execPack8 (e : Nat) (w : BitVec 8) (o : BitVec 32) (st : State) : Host.Outcome State Fault Refusal :=
  withEngine st e fun g =>
    if legalWidth w.toNat = false then .next (st.invalidWidth e g w)
    else match g.lanes with
      | none => .fault .unwritten
      | some vs =>
        if vs.any (fun v => 2 ^ w.toNat ≤ v) then .fault .valueTooWide
        else if st.cfg.bufBytes ≤ o.toNat + w.toNat - 1 then .fault .outOfBounds
        else .next ((st.setBuf (packBlock st.buf o.toNat w.toNat vs)).setEngine e g.succeed)

/-- `UNPACK8` (R75, R78; the order of the outcomes is R106's). -/
def execUnpack8 (e : Nat) (w : BitVec 8) (o : BitVec 32) (st : State) : Host.Outcome State Fault Refusal :=
  withEngine st e fun g =>
    if legalWidth w.toNat = false then .next (st.invalidWidth e g w)
    else if st.cfg.bufBytes ≤ o.toNat + w.toNat - 1 then .fault .outOfBounds
    else match unpackBlock st.buf o.toNat w.toNat with
      | none => .fault .unwritten
      | some x => .next (st.setEngine e (g.setLanes (fieldOf w.toNat 8 x)).succeed)

end Sys2Proof.Machine
end

