-- ==== Sys2Proof/Machine/HostActions.lean ====
section
/-! DEFINITION. The host actions (43_host.md R92 to R98). Each moves `hpc` on by one when it takes a step (R91). -/

namespace Sys2Proof.Machine

/-- `CMD e, imm64`: issue the command word `c` to engine `e` (R97; HAZARD, then RESERVED_FIELD, then OVERLAP, R106).
Neither the width nor the bounds nor the values are checked here. -/
def execCmd (e : Nat) (c : Word) (s : State) : Host.Outcome State Fault Refusal :=
  withEngine s e fun g =>
    if g.status.busy then .fault .hazard
    else if reservedWord c then .refused .reservedField
    else if overlaps s e c then .fault .overlap
    else .next ((s.setEngine e (g.issue c)).advance)

/-- `WRVAL e, k, imm64` (R92). -/
def execWrval (e k : Nat) (v : Word) (s : State) : Host.Outcome State Fault Refusal :=
  withEngine s e fun g => withReg k fun r =>
    if g.status.busy then .fault .hazard
    else .next ((s.setEngine e (g.setVal r v)).advance)

/-- `RDVAL e, k` (R93). -/
def execRdval (e k : Nat) (s : State) : Host.Outcome State Fault Refusal :=
  withEngine s e fun g => withReg k fun r =>
    if g.status.busy then .fault .hazard
    else match g.val r with
      | none => .fault .unwritten
      | some v => .next ((s.log (.val e k v)).advance)

/-- `RDSTATUS e` (R94): always allowed, the engine busy or not. -/
def execRdstatus (e : Nat) (s : State) : Host.Outcome State Fault Refusal :=
  withEngine s e fun g => .next ((s.log (.status e g.status.word)).advance)

/-- `WRBUF a, imm8` (R95). -/
def execWrbuf (a : Nat) (v : Byte) (s : State) : Host.Outcome State Fault Refusal :=
  if s.cfg.bufBytes ≤ a then .fault .outOfBounds
  else if writeHazard s a then .fault .hazard
  else .next ((s.setBuf (writeByte s.buf a v)).advance)

/-- `RDBUF a` (R96). -/
def execRdbuf (a : Nat) (s : State) : Host.Outcome State Fault Refusal :=
  if s.cfg.bufBytes ≤ a then .fault .outOfBounds
  else if readHazard s a then .fault .hazard
  else match readByte s.buf a with
    | none => .fault .unwritten
    | some v => .next ((s.log (.buf a v)).advance)

/-- `WAIT e` (R98): when the engine is idle the host moves on. While it is busy the host holds: the polls are
not logged, so nothing changes (R62; log 7), and `step` does not choose a host that holds. -/
def execWait (e : Nat) (s : State) : Host.Outcome State Fault Refusal :=
  withEngine s e fun g => if g.status.busy then .next s else .next s.advance

end Sys2Proof.Machine
end

