-- ==== Sys2Proof/Machine/SingleValue.lean ====
section
/-! DEFINITION. The single-value commands PACK (R66) and UNPACK (R71), as an engine performs them. -/

namespace Sys2Proof.Machine

/-- `PACK` (R64, R65, R66, R68; the order of the faults is R106's). -/
def execPack (e : Nat) (w : BitVec 8) (s : Fin 8) (o : BitVec 32) (b : BitVec 3) (st : State) :
    Host.Outcome State Fault Refusal :=
  withEngine st e fun g =>
    if legalWidth w.toNat = false then .fault .undefWidth
    else match g.val s with
      | none => .fault .unwritten
      | some v =>
        if 2 ^ w.toNat ≤ v.toNat then .fault .valueTooWide
        else if st.cfg.bufBytes ≤ o.toNat + footLen b.toNat w.toNat - 1 then .fault .outOfBounds
        else match packField st.buf o.toNat b.toNat w.toNat v.toNat with
          | none => .fault .unwritten
          | some m => .next ((st.setBuf m).setEngine e g.succeed)

/-- `UNPACK` (R64, R71; the order of the faults is R106's). -/
def execUnpack (e : Nat) (w : BitVec 8) (s : Fin 8) (o : BitVec 32) (b : BitVec 3) (st : State) :
    Host.Outcome State Fault Refusal :=
  withEngine st e fun g =>
    if legalWidth w.toNat = false then .fault .undefWidth
    else if st.cfg.bufBytes ≤ o.toNat + footLen b.toNat w.toNat - 1 then .fault .outOfBounds
    else match unpackField st.buf o.toNat b.toNat w.toNat with
      | none => .fault .unwritten
      | some v => .next (st.setEngine e (g.setVal s (BitVec.ofNat 64 v)).succeed)

end Sys2Proof.Machine
end

