-- ==== Sys2Proof/Machine/Dispatch.lean ====
section
/-! DEFINITION. Every instruction's meaning, one arm per constructor of Instr. -/

namespace Sys2Proof.Machine

def exec (i : Instr) (s : State) : Host.Outcome State Fault Refusal :=
  match i with
  | .pack e w k o b => Sys2Proof.Machine.execPack e w k o b s
  | .unpack e w k o b => Sys2Proof.Machine.execUnpack e w k o b s
  | .pack8 e w o => Sys2Proof.Machine.execPack8 e w o s
  | .unpack8 e w o => Sys2Proof.Machine.execUnpack8 e w o s
  | .cmd e c => Sys2Proof.Machine.execCmd e c s
  | .wrval e k v => Sys2Proof.Machine.execWrval e k v s
  | .rdval e k => Sys2Proof.Machine.execRdval e k s
  | .rdstatus e => Sys2Proof.Machine.execRdstatus e s
  | .wrbuf a v => Sys2Proof.Machine.execWrbuf a v s
  | .rdbuf a => Sys2Proof.Machine.execRdbuf a s
  | .wait e => Sys2Proof.Machine.execWait e s

end Sys2Proof.Machine
end

