-- ==== Sys2Proof/Machine/Agents.lean ====
section
/-! DEFINITION. The agents' steps (R18, R46, R99, R100): which agents can move, which one moves next, what it fetches, and its step. -/

namespace Sys2Proof.Machine

/-- `STATUS[e].BUSY = 1`, false for an engine that does not exist. -/
def engineBusy (s : State) (e : Nat) : Bool :=
  match s.engines[e]? with
  | some g => g.status.busy
  | none => false

/-- The host's action at `hpc` can step (R91, R98): there is one, and it is not a WAIT on a busy engine. -/
def hostEnabled (s : State) : Bool :=
  match s.prog[s.hpc]? with
  | none => false
  | some x =>
    match decodeLine s.cfg x with
    | .ok (.wait e) => !engineBusy s e
    | _ => true

/-- Engine `e` has an enabled step: `INFLIGHT[e] ≠ none` (R99). -/
def engineEnabled (s : State) (e : Nat) : Bool :=
  match s.engines[e]? with
  | some g => g.inflight.isSome
  | none => false

/-- Every agent with an enabled step, the host first (R100). -/
def enabledAgents (s : State) : List Agent :=
  (if hostEnabled s then [Agent.host] else []) ++
    ((List.range s.engines.length).filter (engineEnabled s)).map Agent.engine

/-- The free choice among several agents (log 3): nothing is known of it but that it is one of them. -/
def freeChoice (t : Nat) (a : Agent) (as : List Agent) : Agent :=
  (a :: as).getD (Config.freeAgent t % (as.length + 1)) a

/-- The agent that moves next, of those that can (R100): the one `sched` names if it can move, else the
free choice. -/
def pickAgent (s : State) : List Agent → Option Agent
  | [] => none
  | [a] => some a
  | a :: as =>
    match s.sched with
    | [] => some (freeChoice s.ticks a as)
    | x :: _ => if (a :: as).contains x then some x else some (freeChoice s.ticks a as)

/-- The agent that moves next; none when no agent can. -/
def nextAgent (s : State) : Option Agent := pickAgent s (enabledAgents s)

/-- What agent `a` takes its next instruction from: the host's action at `hpc` (R91), the word latched in
the engine (R24, R99). -/
def fetch (s : State) : Agent → Option Code
  | .host => (s.prog[s.hpc]?).map Code.line
  | .engine e =>
    match s.engines[e]? with
    | some g => g.inflight.map (Code.command e)
    | none => none

/-- The refusal a rejected decoding is (R105). -/
def refusalOf : DecodeError → Refusal
  | .reservedField => .reservedField
  | .unmapped => .unmapped

/-- One step of agent `a` (R46, R99): fetch, decode, execute, as one atomic step. An agent with nothing to
fetch has no step and the state stays. (A word in flight is never reserved in a run; DESIGN CHOICE, log 12.) -/
def stepAs (a : Agent) (s : State) : Host.Outcome State Fault Refusal :=
  match fetch s a with
  | none => .next s
  | some code =>
    match decode s.cfg code with
    | .error d => .refused (refusalOf d)
    | .ok i => exec i s

/-- The bookkeeping of the agents' order around a step (log 3): one entry of `sched` used, one step counted. -/
def State.tick (s : State) : State := { s with sched := s.sched.tail, ticks := s.ticks + 1 }

/-- `l` with `x` at index `n`, padded with `x` where `l` is shorter. -/
def placeAt (x : Line) : List Line → Nat → List Line
  | [], 0 => [x]
  | [], n + 1 => x :: placeAt x [] n
  | _ :: l, 0 => x :: l
  | y :: l, n + 1 => y :: placeAt x l n

/-- The state in which `code` is the next instruction fetched, and its agent the next to move. -/
def State.place (s : State) : Code → State
  | .line x => { s with prog := placeAt x s.prog s.hpc, sched := Agent.host :: s.sched }
  | .command e c =>
    match s.engines[e]? with
    | none => s
    | some g => { s.setEngine e (g.issue c) with sched := Agent.engine e :: s.sched }

end Sys2Proof.Machine
end

