-- ==== Sys2Proof/Machine/Step.lean ====
section
/-! DEFINITION. One step of the system, and the state that fetches a given instruction next. -/

namespace Sys2Proof.Machine

/-- One step of a run (R46, R100): an agent that can move takes its step. When none can, the system rests:
the state stays as it is (R99, R101, R116; log 10). -/
def step (s : State) : Host.Outcome State Fault Refusal :=
  match nextAgent s with
  | none => .next s
  | some a => stepAs a s.tick

/-- `s` with the instruction of table bits `w` where `step` fetches next (log 4): a host action at `hpc` of
the host program, a command word latched in engine 0, and its agent next to move. -/
def State.withFetchWord (s : State) (nbits w : Nat) : State := s.place (tableCode s.cfg nbits w)

end Sys2Proof.Machine
end

