-- ==== Sys2Proof/Machine/Reference.lean ====
section
/-! DEFINITION. The spec's second views of the codec, none of which a step uses: bits and fields of the stream (R12, R14), the source's three-phase algorithms (R67, R72), cursors and runs of PACKs (R73, R74, R84), a block as eight single-value commands (R79), the lane schedule (R85, R86) and the byte multiplexer (R87). -/

namespace Sys2Proof.Machine

/-! ## The stream -/

/-- `bit(B, p) = (B[p div 8] >> (7 - (p mod 8))) & 1` (R12), `none` where the byte is unwritten. -/
def streamBit (m : List Host.Cell) (p : Nat) : Option Nat :=
  match readByte m (p / 8) with
  | none => none
  | some x => some ((x.toNat >>> (7 - p % 8)) &&& 1)

/-- `field(B, p, w)`: the sum of `bit(B, p + k) << (w - 1 - k)` (R14), `none` where a byte of it is unwritten. -/
def streamField (m : List Host.Cell) : (p w : Nat) → Option Nat
  | _, 0 => some 0
  | p, w + 1 =>
    match streamBit m p, streamField m (p + 1) w with
    | some x, some r => some ((x <<< w) + r)
    | _, _ => none

/-- The cursor `k` bits after `(o, b)` (R13, R73). -/
def moveCursor (o b k : Nat) : Nat × Nat := ((8 * o + b + k) / 8, (8 * o + b + k) % 8)

/-! ## The source's PACK, in three phases (R67) -/

/-- The second phase: `k` full bytes from `a`, `r` bits of `v` left before it. -/
def srcFullBytes (v : Nat) : (k : Nat) → List Host.Cell → (a r : Nat) → List Host.Cell
  | 0, m, _, _ => m
  | k + 1, m, a, r => srcFullBytes v k (writeByte m a (BitVec.ofNat 8 ((v >>> (r - 8)) &&& 0xFF))) (a + 1) (r - 8)

/-- The second and third phases: `while r >= 8`, then the remainder in a fresh byte. -/
def srcPackRest (v : Nat) (m : List Host.Cell) (a r : Nat) : List Host.Cell :=
  let m' := srcFullBytes v (r / 8) m a r
  if 0 < r % 8 then writeByte m' (a + r / 8) (BitVec.ofNat 8 ((v <<< (8 - r % 8)) &&& 0xFF)) else m'

/-- The source's PACK (R67); `none` where it reads an unwritten first byte. -/
def srcPack (m : List Host.Cell) (o b w v : Nat) : Option (List Host.Cell) :=
  if b = 0 then some (srcPackRest v m o w)
  else match readByte m o with
    | none => none
    | some old =>
      if w < 8 - b then
        some (writeByte m o (old ||| BitVec.ofNat 8 ((v <<< (8 - b - w)) &&& (2 ^ (8 - b) - 1))))
      else
        some (srcPackRest v (writeByte m o (old ||| BitVec.ofNat 8 ((v >>> (w - (8 - b))) &&& (2 ^ (8 - b) - 1))))
          (o + 1) (w - (8 - b)))

/-! ## The source's UNPACK (R72) -/

/-- `while r >= 8: acc <- (acc << 8) | B[a]`, `k` times from `a`. -/
def srcAccumulate (m : List Host.Cell) : (k acc a : Nat) → Option Nat
  | 0, acc, _ => some acc
  | k + 1, acc, a =>
    match readByte m a with
    | none => none
    | some x => srcAccumulate m k ((acc <<< 8) ||| x.toNat) (a + 1)

/-- The last phase: `r < 8` remaining bits, from the top of byte `a`. -/
def srcRemainder (m : List Host.Cell) (acc a r : Nat) : Option Nat :=
  if 0 < r then
    match readByte m a with
    | none => none
    | some x => some ((acc <<< r) ||| (x.toNat >>> (8 - r)))
  else some acc

/-- The source's UNPACK (R72); `none` where it reads an unwritten byte. -/
def srcUnpack (m : List Host.Cell) (o b w : Nat) : Option Nat :=
  let avail := 8 - b
  let chunk := min avail w
  let a := if chunk = avail then o + 1 else o
  let r := w - chunk
  match readByte m o with
  | none => none
  | some x =>
    match srcAccumulate m (r / 8) ((x.toNat >>> (avail - chunk)) &&& (2 ^ chunk - 1)) a with
    | none => none
    | some acc => srcRemainder m acc (a + r / 8) (r % 8)

/-! ## Runs of commands -/

/-- PACKs of width `w` at successive cursors from `(o, b)` on (R73, R74). -/
def packRun (w : Nat) : List Host.Cell → (o b : Nat) → List Nat → Option (List Host.Cell)
  | m, _, _, [] => some m
  | m, o, b, v :: vs =>
    match packField m o b w v with
    | none => none
    | some m' => packRun w m' (moveCursor o b w).1 (moveCursor o b w).2 vs

/-- PACK8s of width `w` at `o, o + w, o + 2w, ...` (R84). -/
def packBlocks (w : Nat) : List Host.Cell → (o : Nat) → List (List Nat) → List Host.Cell
  | m, _, [] => m
  | m, o, vs :: bs => packBlocks w (packBlock m o w vs) (o + w) bs

/-- Instructions one after another, to the first that does not answer a next state. -/
def execAll : List Instr → State → Host.Outcome State Fault Refusal
  | [], s => .next s
  | i :: is, s =>
    match exec i s with
    | .next t => execAll is t
    | .fault r => .fault r
    | .refused r => .refused r

/-! ## The lane schedule (R85, R86) -/

/-- The lane's start byte, `q div 8` with `q = k*w` (R85). -/
def laneByte (w k : Nat) : Nat := k * w / 8

/-- The lane's start bit, `q mod 8` (R85). -/
def laneBit (w k : Nat) : Nat := k * w % 8

/-- The bytes the lane spans, `ceil((bit + w)/8)` (R85). -/
def laneSpan (w k : Nat) : Nat := ceil8 (laneBit w k + w)

/-- The lane's aligner shift, `8n - bit - w` (R85). -/
def laneShift (w k : Nat) : Nat := 8 * laneSpan w k - laneBit w k - w

/-- Whether lanes `k` and `k+1` share a byte (R83, R86): `(k+1)*w mod 8 ≠ 0`. -/
def laneShares (w k : Nat) : Bool := (k + 1) * w % 8 != 0

/-- The `shared` column of R86. -/
def sharedPairs (w : Nat) : Nat := ((List.range 7).filter (laneShares w)).length

/-- The eight PACKs a PACK8 equals (R79), in lane order at the lanes' cursors. -/
def lanePacks (e : Nat) (w : BitVec 8) (o : BitVec 32) : List Instr :=
  (List.finRange 8).map (fun k =>
    .pack e w k (BitVec.ofNat 32 (o.toNat + laneByte w.toNat k)) (BitVec.ofNat 3 (laneBit w.toNat k)))

/-- The eight UNPACKs an UNPACK8 equals (R79). -/
def laneUnpacks (e : Nat) (w : BitVec 8) (o : BitVec 32) : List Instr :=
  (List.finRange 8).map (fun k =>
    .unpack e w k (BitVec.ofNat 32 (o.toNat + laneByte w.toNat k)) (BitVec.ofNat 3 (laneBit w.toNat k)))

/-! ## The byte multiplexer (R87) -/

/-- Lane `k` contributes to block byte `j` (R87). -/
def laneReaches (w j k : Nat) : Bool := laneByte w k ≤ j && j < laneByte w k + laneSpan w k

/-- The lanes that contribute to block byte `j` (R87). -/
def laneSources (w j : Nat) : List Nat := (List.range 8).filter (laneReaches w j)

/-- Lane `k`'s contribution to block byte `j`: byte `j - sb_k` of its image (R87). -/
def laneContribution (w j k v : Nat) : Byte := (image v w (laneBit w k)).getD (j - laneByte w k) 0#8

/-- Block byte `j` as the OR of the contributions of the lanes that reach it (R87). -/
def muxByte (w : Nat) (vs : List Nat) (j : Nat) : Byte :=
  (laneSources w j).foldr (fun k acc => laneContribution w j k (vs.getD k 0) ||| acc) 0#8

end Sys2Proof.Machine
end

