-- ==== Sys2Proof/Safety.lean ====
section
/-! DEFINITION. The terms claims are made in: launch states (R118), the machine's invariant, runs and their ends (R100, R101), what is observed of a run (R90), and fairness (R100). -/

namespace Sys2Proof

open Sys2Proof.Machine

/-- Every address of the buffer's written bytes is below `BUF_BYTES` (R30). -/
def BufInside (s : State) : Prop := ∀ c ∈ s.buf, c.1 < s.cfg.bufBytes

/-- The premises of R118 on a launch state, whatever the parameters, `BUF_INIT` and the host program.
(Premise 5, no fault or refusal recorded, holds of every State: log 5.) -/
structure IsLaunch (s : State) : Prop where
  valid : s.cfg.Valid
  engines : s.engines = List.replicate s.cfg.nEngines Engine.reset
  canonical : Memory.wf s.buf = true
  inside : BufInside s
  hpc : s.hpc = 0
  log : s.readLog = []

/-- What holds of each engine: BUSY is 1 exactly when a command is in flight (R24); ERRCODE is NONE with
ERRVAL 0, or INVALID_WIDTH with an ERRVAL outside 1..63 (R27, R28); the word in flight is not reserved (R57). -/
structure EngineOk (g : Engine) : Prop where
  busy : g.status.busy = g.inflight.isSome
  code : (g.status.errCode = errNone ∧ g.status.errVal = 0#8) ∨
    (g.status.errCode = errInvalidWidth ∧ legalWidth g.status.errVal.toNat = false)
  word : ∀ c, g.inflight = some c → reservedWord c = false

/-- No two commands in flight conflict (R48). -/
def NoConflict (s : State) : Prop :=
  ∀ (e e' : Nat) (g g' : Engine) (c c' : Word), e ≠ e' → s.engines[e]? = some g → s.engines[e']? = some g' →
    g.inflight = some c → g'.inflight = some c' → conflict c c' = false

/-- The invariant of a BPC63 system. -/
structure Inv (s : State) : Prop where
  count : s.engines.length = s.cfg.nEngines
  canonical : Memory.wf s.buf = true
  inside : BufInside s
  hpc : s.hpc ≤ s.prog.length
  engine : ∀ g ∈ s.engines, EngineOk g
  race : NoConflict s

/-- A run has ended (R101): the host is done and every engine is idle. (That no fault or refusal is recorded
is that the run reached a State: log 5.) -/
def ended (s : State) : Bool := s.hpc == s.prog.length && s.engines.all (fun g => !g.status.busy)

/-- How many commands are in flight. -/
def inFlightCount (s : State) : Nat := s.engines.countP (fun g => g.inflight.isSome)

/-- How many steps a run from `s` can still take: two for every host action left (the action and the
perform step it may start) and one for every command in flight. -/
def stepsLeft (s : State) : Nat := 2 * (s.prog.length - s.hpc) + inFlightCount s

/-- The observable outcome of a run that reached `s` (R90). -/
structure Observation where
  readLog : List LogEntry
  buf : List Host.Cell
  vals : List (Vector (Option Word) 8)
  status : List Word
  deriving DecidableEq, Repr

/-- What is observed of `s` (R90). -/
def observe (s : State) : Observation :=
  { readLog := s.readLog, buf := s.buf, vals := s.engines.map Engine.vals,
    status := s.engines.map (fun g => g.status.word) }

/-- The agents step in the order of the list, each when it can (R100): a run in one chosen order. -/
def runOrder : List Agent → State → Host.Outcome State Fault Refusal
  | [], s => .next s
  | a :: as, s =>
    if (enabledAgents s).contains a then
      match stepAs a s with
      | .next t => runOrder as t
      | .fault r => .fault r
      | .refused r => .refused r
    else .next s

/-- Fairness (R100): in the run `σ` whose `n`-th step is `mover n`'s, an engine that is busy eventually takes
its perform step. -/
def FairRun (σ : Nat → State) (mover : Nat → Option Agent) : Prop :=
  ∀ n e, engineEnabled (σ n) e = true → ∃ k, n ≤ k ∧ mover k = some (Agent.engine e)

end Sys2Proof
end

