-- ==== Sys2Proof/Certificates/Slice0/Obligations.lean ====
section
/-! DEFINITION. The statements for the provers: the numbered rules of spec/ that say what a command, a host action or the machine does, and what follows from them. -/

namespace Sys2Proof.Claims

open Sys2Proof Sys2Proof.Machine

/-- The frame of a command (R25, R91): the parameters, the host program, `hpc`, the read log and the model's own
order fields are as before. -/
def HostSame (s t : State) : Prop :=
  t.cfg = s.cfg ∧ t.prog = s.prog ∧ t.hpc = s.hpc ∧ t.readLog = s.readLog ∧ t.sched = s.sched ∧ t.ticks = s.ticks

/-- The frame of a host action that takes a step (R91): `hpc` has moved on by one, and the parameters, the host
program and the model's own order fields are as before. -/
def HostMovedOn (s t : State) : Prop :=
  t.cfg = s.cfg ∧ t.prog = s.prog ∧ t.hpc = s.hpc + 1 ∧ t.sched = s.sched ∧ t.ticks = s.ticks

/-- Every engine but `e` is as before. -/
def OtherEnginesSame (e : Nat) (s t : State) : Prop :=
  t.engines.length = s.engines.length ∧ ∀ e', e' ≠ e → t.engines[e']? = s.engines[e']?

/-- Every byte of the buffer reads as before. -/
def BytesSame (s t : State) : Prop := ∀ a, readByte t.buf a = readByte s.buf a

/-- Every byte of the buffer outside `o .. o + n - 1` reads as before. -/
def BytesSameOutside (o n : Nat) (s t : State) : Prop :=
  ∀ a, ¬ (o ≤ a ∧ a < o + n) → readByte t.buf a = readByte s.buf a

/-- The engine is idle after a command that reports no failure (R27, R28, R29). -/
def DoneWell (g : Engine) : Prop :=
  g.inflight = none ∧ g.status.busy = false ∧ g.status.errCode = 0#2 ∧ g.status.errVal = 0#8

/-- The legal widths of R58. -/
def Legal (w : BitVec 8) : Prop := 1 ≤ w.toNat ∧ w.toNat ≤ 63

/-- The bytes a `w`-bit field at bit offset `b` spans, `ceil((b + w)/8)` (R15). -/
def spanned (b : BitVec 3) (w : BitVec 8) : Nat := (b.toNat + w.toNat + 7) / 8

/-- The command an instruction is performed as by engine `e` (R99). -/
def IsCommandOf (e : Nat) (i : Instr) : Prop :=
  (∃ w k o b, i = .pack e w k o b) ∨ (∃ w k o b, i = .unpack e w k o b) ∨
  (∃ w o, i = .pack8 e w o) ∨ (∃ w o, i = .unpack8 e w o)

/-- The instruction is a block command of engine `e` with width `w` (R75). -/
def IsBlockCommandOf (e : Nat) (w : BitVec 8) (i : Instr) : Prop :=
  (∃ o, i = .pack8 e w o) ∨ (∃ o, i = .unpack8 e w o)

end Sys2Proof.Claims

open Sys2Proof Sys2Proof.Machine Sys2Proof.Claims

/-! ## Encoding -/

/-- R54 to R56, R92 to R98: every well-formed instruction decodes from its own encoding, with every operand. (That
WAIT has a bus access of its own is the model's reading, log 7.) -/
def Obligations.DecodeOfEncodeIsTheInstruction : Prop :=
  ∀ (cfg : Config) (i : Instr), i.wellFormed cfg = true → decode cfg (encode cfg i) = .ok i

/-- R54, R60, R92 to R98: a command word that decodes is the encoding of what it decodes to, and so is a bus access,
which moreover decodes to a well-formed instruction: no two words, and no two accesses, mean the same. (The poll of
WAIT and the width an access carries are the model's own forms, logs 7 and 13.) -/
def Obligations.EncodeOfDecodedWordIsTheWord : Prop :=
  (∀ (cfg : Config) (e : Nat) (c : Word) (i : Instr), decodeCommand e c = .ok i → encode cfg i = .command e c) ∧
  (∀ (cfg : Config) (x : Access) (i : Instr), decodeAccess cfg x = .ok i →
    encode cfg i = .line (.access x) ∧ i.wellFormed cfg = true)

/-- R55, R56, R58: a word that is not reserved decodes to the operation OP names, with the operands its fields
are as naturals, whatever its WIDTH. -/
def Obligations.EveryUnreservedWordDecodesByItsFields : Prop :=
  ∀ (e : Nat) (c : Word), reservedWord c = false →
    ∃ (w : BitVec 8) (k : Fin 8) (b : BitVec 3) (o : BitVec 32),
      w.toNat = c.toNat / 2 ^ 8 % 2 ^ 8 ∧ b.toNat = c.toNat / 2 ^ 2 % 2 ^ 3 ∧ k.val = c.toNat / 2 ^ 5 % 2 ^ 3 ∧
      o.toNat = c.toNat / 2 ^ 32 ∧
      (c.toNat % 4 = 0 → decodeCommand e c = .ok (.pack e w k o b)) ∧
      (c.toNat % 4 = 1 → decodeCommand e c = .ok (.unpack e w k o b)) ∧
      (c.toNat % 4 = 2 → decodeCommand e c = .ok (.pack8 e w o)) ∧
      (c.toNat % 4 = 3 → decodeCommand e c = .ok (.unpack8 e w o))

/-- R57: which words are reserved, and that issuing one to an engine that is not busy refuses the state, so that
the engine does not become busy. -/
def Obligations.ReservedWordsAreRefusedAtIssue : Prop :=
  (∀ c : Word, reservedWord c = true ↔
    c.toNat / 2 ^ 16 % 2 ^ 16 ≠ 0 ∨ (c.toNat / 2 ^ 2 % 2 ^ 6 ≠ 0 ∧ (c.toNat % 4 = 2 ∨ c.toNat % 4 = 3))) ∧
  (∀ (e : Nat) (c : Word) (s : State) (g : Engine), s.engines[e]? = some g → g.status.busy = false →
    reservedWord c = true → exec (.cmd e c) s = .refused .reservedField)

/-- R63: the encoding examples, each word decoding to the command it stands for. -/
def Obligations.EncodingExamplesDecode : Prop :=
  decodeCommand 0 0x0000000000000302 = .ok (.pack8 0 3 0) ∧
  decodeCommand 0 0x0000000000000303 = .ok (.unpack8 0 3 0) ∧
  decodeCommand 0 0x0000000500000D4C = .ok (.pack 0 13 2 5 3) ∧
  decodeCommand 0 0x0000000500000DED = .ok (.unpack 0 13 7 5 3) ∧
  decodeCommand 0 0x0000001000004002 = .ok (.pack8 0 64 16) ∧
  decodeCommand 0 0x0000000000003F02 = .ok (.pack8 0 63 0)

/-- R61, R97, R99: a host line that names a command, run on an idle engine with no conflict, leaves the engine holding
a word that decodes to that command. -/
def Obligations.HostLineOfACommandReachesItsEngine : Prop :=
  ∀ (s : State) (e : Nat) (i : Instr) (g : Engine), IsCommandOf e i → i.wellFormed s.cfg = true →
    s.engines[e]? = some g → g.status.busy = false →
    (∀ c, encode s.cfg i = .command e c → overlaps s e c = false) →
    s.prog[s.hpc]? = some (.action i) →
    ∃ t c g', stepAs .host s = .next t ∧ t.engines[e]? = some g' ∧ g'.inflight = some c ∧ g'.status.busy = true ∧
      decodeCommand e c = .ok i

/-- R61, R62, R92 to R98: a well-formed line of the host program is the host action it names, by way of its bus access;
a line that names a command is the issue of that command's word. -/
def Obligations.HostLinesAreTheActionsTheyName : Prop :=
  ∀ (cfg : Config) (i : Instr), i.wellFormed cfg = true →
    decodeLine cfg (.action i) = decodeLine cfg (.access (assemble cfg i)) ∧
    (∀ e c, encode cfg i = .command e c → decodeLine cfg (.action i) = .ok (.cmd e c)) ∧
    (∀ l, encode cfg i = .line l → l = .access (assemble cfg i) ∧ decodeLine cfg (.action i) = .ok i)

/-! ## Host accesses the block does not define -/

/-- R53: a register-space access that is not 64 bits wide or not at a multiple of 8, and a buffer-space access that
is not 1 byte wide, is refused. (That the refusal comes before any hazard or bound is the model's choice, log 15.) -/
def Obligations.HostAccessWidthsAndAlignment : Prop :=
  ∀ (s : State) (n addr : Nat) (d : Word) (v : Byte),
    ((n ≠ 8 ∨ (s.cfg.regBase ≤ addr ∧ (addr - s.cfg.regBase) % 8 ≠ 0)) →
      (s.prog[s.hpc]? = some (.access (.regWrite n addr d)) → stepAs .host s = .refused .unmapped) ∧
      (s.prog[s.hpc]? = some (.access (.regRead n addr)) → stepAs .host s = .refused .unmapped)) ∧
    (n ≠ 1 →
      (s.prog[s.hpc]? = some (.access (.bufWrite n addr v)) → stepAs .host s = .refused .unmapped) ∧
      (s.prog[s.hpc]? = some (.access (.bufRead n addr)) → stepAs .host s = .refused .unmapped))

/-- R19, R23, R26, R105: a read of CMD, a write of STATUS and an access to a reserved offset are refused, whatever
the engine holds. So is a poll of anything but the STATUS register of an engine that exists (the poll is the model's
own access form: log 7; that these refusals come before any hazard is its choice, log 15). -/
def Obligations.UndefinedRegisterAccessesAreRefused : Prop :=
  ∀ (s : State) (d : Word),
    (∀ e off : Nat, e < s.cfg.nEngines → off < 0x100 →
      (s.prog[s.hpc]? = some (.access (.regRead 8 (s.cfg.regBase + 0x100 * e))) →
        stepAs .host s = .refused .unmapped) ∧
      (s.prog[s.hpc]? = some (.access (.regWrite 8 (s.cfg.regBase + 0x100 * e + 0x008) d)) →
        stepAs .host s = .refused .unmapped) ∧
      (off ≠ 0x000 → off ≠ 0x008 → ¬ (∃ k, k < 8 ∧ off = 0x040 + 8 * k) →
        (s.prog[s.hpc]? = some (.access (.regRead 8 (s.cfg.regBase + 0x100 * e + off))) →
          stepAs .host s = .refused .unmapped) ∧
        (s.prog[s.hpc]? = some (.access (.regWrite 8 (s.cfg.regBase + 0x100 * e + off) d)) →
          stepAs .host s = .refused .unmapped))) ∧
    (∀ addr : Nat, (∀ e, e < s.cfg.nEngines → addr ≠ s.cfg.regBase + 0x100 * e + 0x008) →
      s.prog[s.hpc]? = some (.access (.regPoll addr)) → stepAs .host s = .refused .unmapped)

/-- R105: a line of the host program that names an engine that does not exist, or a value register that does not, is
refused. The model's own deductions (log 11): so is a 64-bit access to the window such an engine would have, or below
the first window; and so is the meaning itself of an instruction that names one, a command's perform step among
them. (That UNMAPPED is the reason where another stop applies too, a reserved word among them, is the model's choice:
log 15.) -/
def Obligations.MissingEngineOrRegisterIsRefused : Prop :=
  ∀ (s : State) (e k : Nat) (w : BitVec 8) (j : Fin 8) (o : BitVec 32) (b : BitVec 3) (c v : Word),
    (s.cfg.nEngines ≤ e →
      ∀ i ∈ [Instr.pack e w j o b, .unpack e w j o b, .pack8 e w o, .unpack8 e w o, .cmd e c, .wrval e k v,
        .rdval e k, .rdstatus e, .wait e],
      s.prog[s.hpc]? = some (.action i) → stepAs .host s = .refused .unmapped) ∧
    (8 ≤ k → ∀ i ∈ [Instr.wrval e k v, .rdval e k],
      s.prog[s.hpc]? = some (.action i) → stepAs .host s = .refused .unmapped) ∧
    (∀ addr : Nat,
      ((∃ off, off < 0x100 ∧ s.cfg.nEngines ≤ e ∧ addr = s.cfg.regBase + 0x100 * e + off) ∨ addr < s.cfg.regBase) →
      ∀ x ∈ [Access.regWrite 8 addr v, .regRead 8 addr],
      s.prog[s.hpc]? = some (.access x) → stepAs .host s = .refused .unmapped) ∧
    (s.engines.length ≤ e →
      ∀ i ∈ [Instr.pack e w j o b, .unpack e w j o b, .pack8 e w o, .unpack8 e w o, .cmd e c, .wrval e k v,
        .rdval e k, .rdstatus e, .wait e],
      exec i s = .refused .unmapped) ∧
    (8 ≤ k → exec (.wrval e k v) s = .refused .unmapped ∧ exec (.rdval e k) s = .refused .unmapped)

/-! ## Reset, and what every step keeps -/

/-- R33: the values of every engine after reset, whatever the parameters; CMD has no readable contents; the buffer is
what the launch gives it. -/
def Obligations.ResetLeavesTheStatedValues : Prop :=
  ∀ (cfg : Config) (bufInit : List Host.Cell) (prog : List Line) (sched : List Agent),
    (State.launch cfg bufInit prog sched).buf = bufInit ∧
    (State.launch cfg bufInit prog sched).engines.length = cfg.nEngines ∧
    ∀ (e : Nat) (g : Engine), (State.launch cfg bufInit prog sched).engines[e]? = some g →
      g.status.busy = false ∧ g.status.errCode = 0#2 ∧ g.status.errVal = 0#8 ∧ g.status.word = 0#64 ∧
      g.inflight = none ∧ (∀ k, g.val k = none) ∧
      decodeAccess cfg (.regRead 8 (cfg.regBase + 0x100 * e + 0x000)) = .error .unmapped

/-- R24, R27, R28, R30, R33, R57: every launch state of R118 meets the invariant; the state after reset is one (its
parameters, empty buffer and empty program are the model's choice: logs 1 and 4). -/
def Obligations.EveryLaunchStateMeetsTheInvariant : Prop :=
  (∀ s : State, IsLaunch s → Inv s) ∧ IsLaunch State.reset

/-- R24, R27, R28, R30, R48, R57, R91: every step keeps the invariant: BUSY is 1 exactly when a command is in
flight, the error fields are legal, no reserved word is in flight, no two commands in flight conflict, the buffer
keeps its canonical form inside `BUF_BYTES`, and `hpc` stays inside the program. (That a system in which no agent can
move rests is the model's choice, log 10.) -/
def Obligations.EveryStepKeepsTheInvariant : Prop :=
  ∀ s t : State, Inv s → Sys2Proof.Machine.step s = .next t → Inv t

/-- R7 to R9, R90, R91: no step changes the parameters, the host program or the number of engines; `hpc` stays or
moves on by one; the read log only grows, by at most one entry, at its end. -/
def Obligations.StepKeepsParametersAndProgram : Prop :=
  ∀ s t : State, Sys2Proof.Machine.step s = .next t →
    t.cfg = s.cfg ∧ t.prog = s.prog ∧ t.engines.length = s.engines.length ∧
    ((t.hpc = s.hpc ∧ t.readLog = s.readLog) ∨
     (t.hpc = s.hpc + 1 ∧ (t.readLog = s.readLog ∨ ∃ x, t.readLog = s.readLog ++ [x])))

/-- R20, R31: a step never takes a value away: a byte or a value register that is written stays written. -/
def Obligations.WrittenStaysWritten : Prop :=
  ∀ s t : State, Sys2Proof.Machine.step s = .next t →
    (∀ a, readByte s.buf a ≠ none → readByte t.buf a ≠ none) ∧
    ∀ (e : Nat) (g : Engine), s.engines[e]? = some g →
      ∃ g', t.engines[e]? = some g' ∧ ∀ k, g.val k ≠ none → g'.val k ≠ none

/-! ## PACK -/

/-- R65, R66: when PACK executes normally it answers a next state in which its footprint holds the image of the
value, the first byte OR-ed with what was there when `b > 0`; STATUS reports no failure; nothing else changes. -/
def Obligations.PackStoresTheImage : Prop :=
  ∀ (s : State) (e : Nat) (w : BitVec 8) (k : Fin 8) (o : BitVec 32) (b : BitVec 3) (g : Engine) (v : Word)
    (old : Byte),
    s.engines[e]? = some g → Legal w → g.val k = some v → v.toNat < 2 ^ w.toNat →
    o.toNat + spanned b w - 1 < s.cfg.bufBytes →
    (0 < b.toNat → readByte s.buf o.toNat = some old) →
    ∃ t g', exec (.pack e w k o b) s = .next t ∧
      (∀ j, j < spanned b w → ∃ x, readByte t.buf (o.toNat + j) = some x ∧
        x.toNat = (if j = 0 ∧ 0 < b.toNat then old.toNat else 0) |||
          (((v.toNat <<< (8 * spanned b w - b.toNat - w.toNat)) >>> (8 * (spanned b w - 1 - j))) &&& 0xFF)) ∧
      BytesSameOutside o.toNat (spanned b w) s t ∧
      t.engines[e]? = some g' ∧ g'.vals = g.vals ∧ DoneWell g' ∧ OtherEnginesSame e s t ∧ HostSame s t

/-- R69: what a completed PACK leaves in each bit: bytes outside the footprint are unchanged; the bits before the
field are unchanged when `b > 0` (there are none when `b = 0`); the field's bits in `B[o]` are OR-ed when `b > 0`
and stored otherwise; the bits after the field are unchanged in `B[o]` when `b > 0` and become 0 otherwise. -/
def Obligations.PackLeavesTheOtherBits : Prop :=
  ∀ (s t : State) (e : Nat) (w : BitVec 8) (k : Fin 8) (o : BitVec 32) (b : BitVec 3) (g : Engine) (v : Word),
    s.engines[e]? = some g → g.val k = some v → exec (.pack e w k o b) s = .next t →
    BytesSameOutside o.toNat (spanned b w) s t ∧
    ∀ p, o.toNat ≤ p / 8 → p / 8 < o.toNat + spanned b w →
      (p < 8 * o.toNat + b.toNat → streamBit t.buf p = streamBit s.buf p) ∧
      (∀ i, i < w.toNat → p = 8 * o.toNat + b.toNat + i →
        (p / 8 = o.toNat → 0 < b.toNat →
          ∃ x, streamBit s.buf p = some x ∧
            streamBit t.buf p = some (x ||| ((v.toNat >>> (w.toNat - 1 - i)) &&& 1))) ∧
        (o.toNat < p / 8 ∨ b.toNat = 0 → streamBit t.buf p = some ((v.toNat >>> (w.toNat - 1 - i)) &&& 1))) ∧
      (8 * o.toNat + b.toNat + w.toNat ≤ p →
        (p / 8 = o.toNat → 0 < b.toNat → streamBit t.buf p = streamBit s.buf p) ∧
        (o.toNat < p / 8 ∨ b.toNat = 0 → streamBit t.buf p = some 0))

/-- R70: after a completed PACK of `v`, UNPACK of the same width at the same cursor, by any engine into any
register, returns `v` OR the old bits of the field within `B[o]` in their place, which are none when `b = 0`. -/
def Obligations.UnpackAfterPackReturnsTheValueOrOldBits : Prop :=
  ∀ (s t : State) (e e' : Nat) (w : BitVec 8) (k k' : Fin 8) (o : BitVec 32) (b : BitVec 3) (g : Engine) (v : Word),
    s.engines[e]? = some g → g.val k = some v → exec (.pack e w k o b) s = .next t → e' < s.engines.length →
    ∃ u g', exec (.unpack e' w k' o b) t = .next u ∧ u.engines[e']? = some g' ∧
      (b.toNat = 0 → g'.val k' = some v) ∧
      (0 < b.toNat → ∃ old, readByte s.buf o.toNat = some old ∧
        let inByte := min (8 - b.toNat) w.toNat
        let f := ((old.toNat >>> (8 - b.toNat - inByte)) % 2 ^ inByte) <<< (w.toNat - inByte)
        (∃ x : Word, g'.val k' = some x ∧ x.toNat = v.toNat ||| f) ∧ (f = 0 → g'.val k' = some v))

/-- R67: the source's three-phase PACK writes the same buffer as rule R66's image, for every width, bit offset and
value that fits, and needs the same byte written; its two masks are no-ops. -/
def Obligations.SourcePackWritesTheSameBytes : Prop :=
  ∀ (m : List Host.Cell) (o b w v : Nat), 1 ≤ w → w ≤ 63 → b ≤ 7 → v < 2 ^ w →
    srcPack m o b w v = packField m o b w v ∧
    (w < 8 - b → (v <<< (8 - b - w)) &&& (2 ^ (8 - b) - 1) = v <<< (8 - b - w)) ∧
    (8 - b ≤ w → (v >>> (w - (8 - b))) &&& (2 ^ (8 - b) - 1) = v >>> (w - (8 - b)))

/-- R74: PACKs at successive cursors leave the buffer that one field, the concatenation of the values, would. -/
def Obligations.SequentialPacksMakeTheConcatenation : Prop :=
  ∀ (m : List Host.Cell) (o b w : Nat) (vs : List Nat), 1 ≤ w → w ≤ 63 → b ≤ 7 → vs ≠ [] → (∀ v ∈ vs, v < 2 ^ w) →
    packRun w m o b vs = packField m o b (vs.length * w) (joinFields w vs)

/-! ## UNPACK -/

/-- R71: when UNPACK executes normally it answers a next state in which `VAL[e][s]` holds `field(B, 8o + b, w)`;
STATUS reports no failure; nothing else changes, the buffer least of all. -/
def Obligations.UnpackReadsTheField : Prop :=
  ∀ (s : State) (e : Nat) (w : BitVec 8) (k : Fin 8) (o : BitVec 32) (b : BitVec 3) (g : Engine),
    s.engines[e]? = some g → Legal w → o.toNat + spanned b w - 1 < s.cfg.bufBytes →
    (∀ j, j < spanned b w → readByte s.buf (o.toNat + j) ≠ none) →
    ∃ t g' v, exec (.unpack e w k o b) s = .next t ∧
      streamField s.buf (8 * o.toNat + b.toNat) w.toNat = some v ∧ v < 2 ^ w.toNat ∧
      t.engines[e]? = some g' ∧ g'.val k = some (BitVec.ofNat 64 v) ∧ (∀ k', k' ≠ k → g'.val k' = g.val k') ∧
      DoneWell g' ∧ OtherEnginesSame e s t ∧ t.buf = s.buf ∧ HostSame s t

/-- R72: the source's UNPACK reads the same bytes and returns the same value as rule R71's window. -/
def Obligations.SourceUnpackReturnsTheSameValue : Prop :=
  ∀ (m : List Host.Cell) (o b w : Nat), 1 ≤ w → w ≤ 63 → b ≤ 7 → srcUnpack m o b w = unpackField m o b w

/-- R64: a PACK or UNPACK with WIDTH 0 or 64 and above raises UNDEF_WIDTH, whatever the registers and the buffer hold. -/
def Obligations.SingleValueIllegalWidthFaults : Prop :=
  ∀ (s : State) (e : Nat) (w : BitVec 8) (k : Fin 8) (o : BitVec 32) (b : BitVec 3),
    e < s.engines.length → (w.toNat = 0 ∨ 64 ≤ w.toNat) →
    exec (.pack e w k o b) s = .fault .undefWidth ∧ exec (.unpack e w k o b) s = .fault .undefWidth

/-! ## PACK8 and UNPACK8 -/

/-- R76: when PACK8 executes normally it answers a next state in which block byte `j` is `(X >> (8*(w-1-j))) & 0xFF`
of the concatenation `X` of the eight value registers; STATUS reports no failure; nothing else changes. -/
def Obligations.Pack8StoresTheBlock : Prop :=
  ∀ (s : State) (e : Nat) (w : BitVec 8) (o : BitVec 32) (g : Engine) (v : Fin 8 → Word),
    s.engines[e]? = some g → Legal w → (∀ k, g.val k = some (v k)) → (∀ k, (v k).toNat < 2 ^ w.toNat) →
    o.toNat + w.toNat - 1 < s.cfg.bufBytes →
    ∃ t g', exec (.pack8 e w o) s = .next t ∧
      (∀ j, j < w.toNat → ∃ x, readByte t.buf (o.toNat + j) = some x ∧
        x.toNat = ((∑ k : Fin 8, (v k).toNat <<< (w.toNat * (7 - k.val))) >>> (8 * (w.toNat - 1 - j))) &&& 0xFF) ∧
      BytesSameOutside o.toNat w.toNat s t ∧
      t.engines[e]? = some g' ∧ g'.vals = g.vals ∧ DoneWell g' ∧ OtherEnginesSame e s t ∧ HostSame s t

/-- R78: when UNPACK8 executes normally it answers a next state in which every `VAL[e][k]` holds
`field(B, 8o + k*w, w)`; STATUS reports no failure; nothing else changes. -/
def Obligations.Unpack8ReadsTheLanes : Prop :=
  ∀ (s : State) (e : Nat) (w : BitVec 8) (o : BitVec 32) (g : Engine),
    s.engines[e]? = some g → Legal w → o.toNat + w.toNat - 1 < s.cfg.bufBytes →
    (∀ j, j < w.toNat → readByte s.buf (o.toNat + j) ≠ none) →
    ∃ t g', exec (.unpack8 e w o) s = .next t ∧ t.engines[e]? = some g' ∧
      (∀ k : Fin 8, ∃ v, streamField s.buf (8 * o.toNat + k.val * w.toNat) w.toNat = some v ∧ v < 2 ^ w.toNat ∧
        g'.val k = some (BitVec.ofNat 64 v)) ∧
      DoneWell g' ∧ OtherEnginesSame e s t ∧ t.buf = s.buf ∧ HostSame s t

/-- R75: a block command with WIDTH 0 or 64 and above completes with ERRCODE 1 and ERRVAL the width, whatever the
registers and the buffer hold and wherever its offset points, and does nothing else. -/
def Obligations.InvalidBlockWidthIsReportedAndDoesNothingElse : Prop :=
  ∀ (s : State) (e : Nat) (w : BitVec 8) (o : BitVec 32) (g : Engine) (i : Instr),
    s.engines[e]? = some g → (w.toNat = 0 ∨ 64 ≤ w.toNat) → (i = .pack8 e w o ∨ i = .unpack8 e w o) →
    ∃ t g', exec i s = .next t ∧ t.engines[e]? = some g' ∧
      g'.status.errCode = 1#2 ∧ g'.status.errVal = w ∧ g'.status.busy = false ∧ g'.inflight = none ∧
      g'.vals = g.vals ∧ OtherEnginesSame e s t ∧ t.buf = s.buf ∧ HostSame s t

/-- R103, R26: the error fields of an engine change only when a command completes on it: to INVALID_WIDTH with the
width for a block command of an illegal width, to NONE with 0 for every other command. -/
def Obligations.OnlyCompletionChangesTheErrorFields : Prop :=
  ∀ (i : Instr) (s t : State) (e : Nat) (g g' : Engine),
    exec i s = .next t → s.engines[e]? = some g → t.engines[e]? = some g' →
    (¬ IsCommandOf e i → g'.status.errCode = g.status.errCode ∧ g'.status.errVal = g.status.errVal) ∧
    (IsCommandOf e i → g'.status.busy = false ∧
      ((g'.status.errCode = 1#2 ∧ IsBlockCommandOf e g'.status.errVal i ∧ ¬ Legal g'.status.errVal) ∨
       (g'.status.errCode = 0#2 ∧ g'.status.errVal = 0#8 ∧
         ∀ w, IsBlockCommandOf e w i → Legal w)))

/-- R79: where a PACK8 of a legal width completes, its eight single PACKs in lane order do too and leave the same
state; likewise UNPACK8 and its eight UNPACKs. And the other way round, where every lane's offset fits BYTEOFF. -/
def Obligations.BlockCommandsEqualEightSingleCommands : Prop :=
  ∀ (s t : State) (e : Nat) (w : BitVec 8) (o : BitVec 32), Legal w → s.cfg.bufBytes ≤ 2 ^ 32 →
    (exec (.pack8 e w o) s = .next t → execAll (lanePacks e w o) s = .next t) ∧
    (exec (.unpack8 e w o) s = .next t → execAll (laneUnpacks e w o) s = .next t) ∧
    (o.toNat + w.toNat ≤ 2 ^ 32 →
      (execAll (lanePacks e w o) s = .next t → exec (.pack8 e w o) s = .next t) ∧
      (execAll (laneUnpacks e w o) s = .next t → exec (.unpack8 e w o) s = .next t))

/-- R80: a completed block command of legal width touches exactly its `w` bytes, whatever the values: PACK8 writes
each of them and no other; UNPACK8 writes none, reads each of them (each must be written for it to complete), and what
it does depends on no other byte. -/
def Obligations.BlockCommandsTouchExactlyTheirBytes : Prop :=
  ∀ (s t : State) (e : Nat) (w : BitVec 8) (o : BitVec 32), Legal w →
    (exec (.pack8 e w o) s = .next t →
      BytesSameOutside o.toNat w.toNat s t ∧ ∀ j, j < w.toNat → readByte t.buf (o.toNat + j) ≠ none) ∧
    (exec (.unpack8 e w o) s = .next t → t.buf = s.buf ∧ (∀ j, j < w.toNat → readByte s.buf (o.toNat + j) ≠ none) ∧
      ∀ m, (∀ j, j < w.toNat → readByte m (o.toNat + j) = readByte s.buf (o.toNat + j)) →
        exec (.unpack8 e w o) (s.setBuf m) = .next (t.setBuf m))

/-- R81: PACK8s of one width at `o` and at `o + w`, by any engines: one order completes exactly when the other does,
with the same state, and neither writes a byte outside its own block. -/
def Obligations.NeighbouringBlocksAreIndependent : Prop :=
  ∀ (s : State) (e e' : Nat) (w : BitVec 8) (o o' : BitVec 32), Legal w → o'.toNat = o.toNat + w.toNat →
    (∀ t, execAll [.pack8 e w o, .pack8 e' w o'] s = .next t ↔ execAll [.pack8 e' w o', .pack8 e w o] s = .next t) ∧
    (∀ u, exec (.pack8 e w o) s = .next u → BytesSameOutside o.toNat w.toNat s u) ∧
    (∀ u, exec (.pack8 e' w o') s = .next u → BytesSameOutside o'.toNat w.toNat s u)

/-- R82: after a completed PACK8 of legal width, with no write to its bytes in between, UNPACK8 at the same offset,
by any engine, sets every value register to the value packed. -/
def Obligations.Unpack8AfterPack8ReturnsTheValues : Prop :=
  ∀ (s t t' : State) (e e' : Nat) (w : BitVec 8) (o : BitVec 32) (g : Engine), Legal w →
    s.engines[e]? = some g → exec (.pack8 e w o) s = .next t →
    t'.cfg = s.cfg → e' < t'.engines.length →
    (∀ j, j < w.toNat → readByte t'.buf (o.toNat + j) = readByte t.buf (o.toNat + j)) →
    ∃ u g', exec (.unpack8 e' w o) t' = .next u ∧ u.engines[e']? = some g' ∧ g'.vals = g.vals

/-- R84: blocks of eight followed by single PACKs of the rest complete, leave the same buffer as single PACKs of all,
and occupy `ceil(n*w/8)` bytes: those are written and no other byte changes. -/
def Obligations.BlocksThenRestEqualsSinglePacks : Prop :=
  ∀ (m : List Host.Cell) (o w : Nat) (bs : List (List Nat)) (rest : List Nat), 1 ≤ w → w ≤ 63 →
    (∀ vs ∈ bs, vs.length = 8 ∧ ∀ v ∈ vs, v < 2 ^ w) → (∀ v ∈ rest, v < 2 ^ w) →
    ∃ m', packRun w (packBlocks w m o bs) (o + w * bs.length) 0 rest = some m' ∧
      packRun w m o 0 (bs.flatten ++ rest) = some m' ∧
      let bytes := ((8 * bs.length + rest.length) * w + 7) / 8
      (∀ a, ¬ (o ≤ a ∧ a < o + bytes) → readByte m' a = readByte m a) ∧
      ∀ j, j < bytes → readByte m' (o + j) ≠ none

/-- R87: block byte `j` is the OR of the contributions of the lanes that reach it, no two of which share a bit;
at least one lane and at most `min(8, 8 div w + 2)` reach it; and the rule's four source lists. -/
def Obligations.BlockBytesAreTheLanesContributions : Prop :=
  (∀ (w j : Nat) (vs : List Nat), 1 ≤ w → w ≤ 63 → j < w → vs.length = 8 → (∀ v ∈ vs, v < 2 ^ w) →
    (splitBytes w (joinFields w vs))[j]? = some (muxByte w vs j) ∧
    1 ≤ (laneSources w j).length ∧ (laneSources w j).length ≤ min 8 (8 / w + 2) ∧
    ∀ k ∈ laneSources w j, ∀ k' ∈ laneSources w j, k ≠ k' →
      laneContribution w j k (vs.getD k 0) &&& laneContribution w j k' (vs.getD k' 0) = 0#8) ∧
  (List.range 3).map (laneSources 3) = [[0, 1, 2], [2, 3, 4, 5], [5, 6, 7]] ∧
  (List.range 5).map (laneSources 5) = [[0, 1], [1, 2, 3], [3, 4], [4, 5, 6], [6, 7]] ∧
  (List.range 7).map (laneSources 7) = [[0, 1], [1, 2], [2, 3], [3, 4], [4, 5], [5, 6], [6, 7]] ∧
  (List.range 12).map (laneSources 12) =
    [[0], [0, 1], [1], [2], [2, 3], [3], [4], [4, 5], [5], [6], [6, 7], [7]]

/-- R85, R83, R89: where each lane lies: its start byte and bit give stream position `k*w`, its span and shift are
the aligner's, at most 9 bytes and at most 7; it ends inside the block; and it shares a byte with the next lane
exactly when `(k+1)*w` is not a multiple of 8. -/
def Obligations.LaneScheduleLaysOutTheBlock : Prop :=
  ∀ w k : Nat, 1 ≤ w → w ≤ 63 → k < 8 →
    8 * laneByte w k + laneBit w k = k * w ∧ laneBit w k ≤ 7 ∧
    8 * laneSpan w k = laneBit w k + w + laneShift w k ∧ laneShift w k ≤ 7 ∧
    1 ≤ laneSpan w k ∧ laneSpan w k ≤ 9 ∧ laneByte w k + laneSpan w k ≤ w ∧
    (laneByte w (k + 1) = laneByte w k + laneSpan w k - 1 ↔ (k + 1) * w % 8 ≠ 0)

/-- R45: repeating a completed command, with no write in between, changes nothing. -/
def Obligations.RepeatingACommandChangesNothing : Prop :=
  ∀ (s t : State) (e : Nat) (i : Instr), IsCommandOf e i → exec i s = .next t → exec i t = .next t

/-! ## Footprints -/

/-- R42: the read set and the write set of every command word, by its fields as naturals. -/
def Obligations.ReadAndWriteSetsAreThoseOfTheTable : Prop :=
  ∀ (c : Word) (a : Nat),
    let w := c.toNat / 2 ^ 8 % 2 ^ 8
    let b := c.toNat / 2 ^ 2 % 2 ^ 3
    let o := c.toNat / 2 ^ 32
    let inF := w ≠ 0 ∧ o ≤ a ∧ a < o + (b + w + 7) / 8
    let inBlock := 1 ≤ w ∧ w ≤ 63 ∧ o ≤ a ∧ a < o + w
    ((readSpan c).has a = true ↔
      (c.toNat % 4 = 0 ∧ 0 < b ∧ 1 ≤ w ∧ a = o) ∨ (c.toNat % 4 = 1 ∧ inF) ∨ (c.toNat % 4 = 3 ∧ inBlock)) ∧
    ((writeSpan c).has a = true ↔ (c.toNat % 4 = 0 ∧ inF) ∨ (c.toNat % 4 = 2 ∧ inBlock))

/-- R41, R42: a command writes no byte outside its write set, and what it does depends on no byte outside its
footprint: in a buffer that agrees on the footprint it does the same to the engines. -/
def Obligations.CommandsStayInTheirFootprint : Prop :=
  ∀ (s t : State) (e : Nat) (c : Word) (i : Instr), decodeCommand e c = .ok i → exec i s = .next t →
    (∀ a, (writeSpan c).has a = false → readByte t.buf a = readByte s.buf a) ∧
    ∀ m, (∀ a, footHas c a = true → readByte m a = readByte s.buf a) →
      ∃ t', exec i (s.setBuf m) = .next t' ∧ t'.engines = t.engines ∧
        ∀ a, (writeSpan c).has a = true → readByte t'.buf a = readByte t.buf a

/-! ## Host actions -/

/-- R97, R48: issuing a command to an engine: HAZARD when it is busy, then the refusal of a reserved word, then
OVERLAP when another busy engine's command shares a byte with it that one of the two writes; else the word is in
flight, BUSY is 1, `hpc` moves on, and nothing else changes. -/
def Obligations.IssueLatchesTheCommandOrStops : Prop :=
  ∀ (s : State) (e : Nat) (c : Word) (g : Engine), s.engines[e]? = some g →
    let clash := ∃ e' g' c' a, e' ≠ e ∧ s.engines[e']? = some g' ∧ g'.status.busy = true ∧ g'.inflight = some c' ∧
      (((writeSpan c).has a = true ∧ ((readSpan c').has a = true ∨ (writeSpan c').has a = true)) ∨
       ((writeSpan c').has a = true ∧ (readSpan c).has a = true))
    (e < s.cfg.nEngines →
      decodeAccess s.cfg (.regWrite 8 (s.cfg.regBase + 0x100 * e + 0x000) c) = .ok (.cmd e c)) ∧
    (g.status.busy = true → exec (.cmd e c) s = .fault .hazard) ∧
    (g.status.busy = false → reservedWord c = true → exec (.cmd e c) s = .refused .reservedField) ∧
    (g.status.busy = false → reservedWord c = false → clash → exec (.cmd e c) s = .fault .overlap) ∧
    (g.status.busy = false → reservedWord c = false → ¬ clash →
      ∃ t g', exec (.cmd e c) s = .next t ∧ t.engines[e]? = some g' ∧ g'.inflight = some c ∧
        g'.status.busy = true ∧ g'.status.errCode = g.status.errCode ∧ g'.status.errVal = g.status.errVal ∧
        g'.vals = g.vals ∧ OtherEnginesSame e s t ∧ t.buf = s.buf ∧ t.readLog = s.readLog ∧ HostMovedOn s t)

/-- R92: WRVAL faults on a busy engine; else it answers a next state with the value in the register, `hpc` moved
on and nothing else changed. -/
def Obligations.WriteValueRegisterSetsIt : Prop :=
  ∀ (s : State) (e : Nat) (k : Fin 8) (v : Word) (g : Engine), s.engines[e]? = some g →
    (e < s.cfg.nEngines →
      decodeAccess s.cfg (.regWrite 8 (s.cfg.regBase + 0x100 * e + 0x040 + 8 * k.val) v) = .ok (.wrval e k v)) ∧
    (g.status.busy = true → exec (.wrval e k v) s = .fault .hazard) ∧
    (g.status.busy = false → ∃ t g', exec (.wrval e k v) s = .next t ∧ t.engines[e]? = some g' ∧
      g'.val k = some v ∧ (∀ k', k' ≠ k → g'.val k' = g.val k') ∧ g'.status = g.status ∧ g'.inflight = g.inflight ∧
      OtherEnginesSame e s t ∧ t.buf = s.buf ∧ t.readLog = s.readLog ∧ HostMovedOn s t)

/-- R93: RDVAL faults on a busy engine, then on an unwritten register; else it answers a next state with the value
appended to the read log, `hpc` moved on and nothing else changed. -/
def Obligations.ReadValueRegisterLogsIt : Prop :=
  ∀ (s : State) (e : Nat) (k : Fin 8) (g : Engine), s.engines[e]? = some g →
    (e < s.cfg.nEngines →
      decodeAccess s.cfg (.regRead 8 (s.cfg.regBase + 0x100 * e + 0x040 + 8 * k.val)) = .ok (.rdval e k)) ∧
    (g.status.busy = true → exec (.rdval e k) s = .fault .hazard) ∧
    (g.status.busy = false → g.val k = none → exec (.rdval e k) s = .fault .unwritten) ∧
    (∀ v, g.status.busy = false → g.val k = some v → ∃ t, exec (.rdval e k) s = .next t ∧
      t.readLog = s.readLog ++ [.val e k v] ∧ t.engines = s.engines ∧ t.buf = s.buf ∧ HostMovedOn s t)

/-- R94: RDSTATUS answers a next state on every engine, busy or not, with BUSY, ERRCODE and ERRVAL as one word in
the read log, `hpc` moved on and nothing else changed. -/
def Obligations.ReadStatusAlwaysLogsTheFields : Prop :=
  ∀ (s : State) (e : Nat) (g : Engine), s.engines[e]? = some g →
    (e < s.cfg.nEngines →
      decodeAccess s.cfg (.regRead 8 (s.cfg.regBase + 0x100 * e + 0x008)) = .ok (.rdstatus e)) ∧
    ∃ t x, exec (.rdstatus e) s = .next t ∧ t.readLog = s.readLog ++ [.status e x] ∧
      x.toNat = g.status.busy.toNat ||| (g.status.errCode.toNat <<< 1) ||| (g.status.errVal.toNat <<< 8) ∧
      t.engines = s.engines ∧ t.buf = s.buf ∧ HostMovedOn s t

/-- R26: where the fields of STATUS stand, and that its reserved bits read as 0. -/
def Obligations.StatusWordPlacesItsFields : Prop :=
  ∀ t : Status, (t.word.getLsbD 0 = t.busy) ∧ t.word.extractLsb' 1 2 = t.errCode ∧
    t.word.extractLsb' 3 5 = 0#5 ∧ t.word.extractLsb' 8 8 = t.errVal ∧ t.word.extractLsb' 16 48 = 0#48

/-- R95: WRBUF faults past the buffer, then on a byte of a busy command's footprint; else it answers a next state
with the byte written, `hpc` moved on and nothing else changed. -/
def Obligations.WriteBufferByteStoresIt : Prop :=
  ∀ (s : State) (a : Nat) (v : Byte),
    let used := ∃ g ∈ s.engines, g.status.busy = true ∧ ∃ c, g.inflight = some c ∧
      ((readSpan c).has a = true ∨ (writeSpan c).has a = true)
    decodeAccess s.cfg (.bufWrite 1 a v) = .ok (.wrbuf a v) ∧
    (s.cfg.bufBytes ≤ a → exec (.wrbuf a v) s = .fault .outOfBounds) ∧
    (a < s.cfg.bufBytes → used → exec (.wrbuf a v) s = .fault .hazard) ∧
    (a < s.cfg.bufBytes → ¬ used → ∃ t, exec (.wrbuf a v) s = .next t ∧ readByte t.buf a = some v ∧
      BytesSameOutside a 1 s t ∧ t.engines = s.engines ∧ t.readLog = s.readLog ∧ HostMovedOn s t)

/-- R96: RDBUF faults past the buffer, then on a byte a busy command writes, then on an unwritten byte; else, a byte
that a busy command only reads among them, it answers a next state with the byte in the read log, `hpc` moved on
and nothing else changed. -/
def Obligations.ReadBufferByteLogsIt : Prop :=
  ∀ (s : State) (a : Nat),
    let written := ∃ g ∈ s.engines, g.status.busy = true ∧ ∃ c, g.inflight = some c ∧ (writeSpan c).has a = true
    decodeAccess s.cfg (.bufRead 1 a) = .ok (.rdbuf a) ∧
    (s.cfg.bufBytes ≤ a → exec (.rdbuf a) s = .fault .outOfBounds) ∧
    (a < s.cfg.bufBytes → written → exec (.rdbuf a) s = .fault .hazard) ∧
    (a < s.cfg.bufBytes → ¬ written → readByte s.buf a = none → exec (.rdbuf a) s = .fault .unwritten) ∧
    (∀ v, a < s.cfg.bufBytes → ¬ written → readByte s.buf a = some v → ∃ t, exec (.rdbuf a) s = .next t ∧
      t.readLog = s.readLog ++ [.buf a v] ∧ t.engines = s.engines ∧ t.buf = s.buf ∧ HostMovedOn s t)

/-- R98: WAIT on an idle engine answers the next state in which only `hpc` has moved on; while the engine is busy
the host has no step. (The bus access that stands for the repeated polls is the model's reading, log 7.) -/
def Obligations.WaitHoldsUntilTheEngineIsIdle : Prop :=
  ∀ (s : State) (e : Nat) (g : Engine), s.engines[e]? = some g →
    (e < s.cfg.nEngines →
      decodeAccess s.cfg (.regPoll (s.cfg.regBase + 0x100 * e + 0x008)) = .ok (.wait e)) ∧
    (g.status.busy = false → ∃ t, exec (.wait e) s = .next t ∧ t.readLog = s.readLog ∧ t.engines = s.engines ∧
      t.buf = s.buf ∧ HostMovedOn s t) ∧
    (∀ x, s.prog[s.hpc]? = some x → decodeLine s.cfg x = .ok (.wait e) →
      (g.status.busy = true → Agent.host ∉ enabledAgents s) ∧
      (g.status.busy = false → Agent.host ∈ enabledAgents s))

/-- R47: the host actions that are hazards while engine `e` is busy with `c`, and that a read of STATUS is none. -/
def Obligations.BusyWindowHazards : Prop :=
  ∀ (s : State) (e a : Nat) (g : Engine) (c c' : Word) (k : Fin 8) (v : Word) (x : Byte),
    s.engines[e]? = some g → g.status.busy = true → g.inflight = some c →
    (a < s.cfg.bufBytes → ((readSpan c).has a = true ∨ (writeSpan c).has a = true) →
      exec (.wrbuf a x) s = .fault .hazard) ∧
    (a < s.cfg.bufBytes → (writeSpan c).has a = true → exec (.rdbuf a) s = .fault .hazard) ∧
    exec (.cmd e c') s = .fault .hazard ∧ exec (.wrval e k v) s = .fault .hazard ∧
    exec (.rdval e k) s = .fault .hazard ∧ (∃ t, exec (.rdstatus e) s = .next t)

/-- R106: when several conditions apply, the outcome is the first in the rule's order, for every command and host
action the rule lists. -/
def Obligations.FirstConditionInTheOrderDecides : Prop :=
  ∀ (s : State) (e : Nat) (g : Engine), s.engines[e]? = some g →
    (∀ (w : BitVec 8) (k : Fin 8) (o : BitVec 32) (b : BitVec 3),
      (¬ Legal w → exec (.pack e w k o b) s = .fault .undefWidth) ∧
      (Legal w → g.val k = none → exec (.pack e w k o b) s = .fault .unwritten) ∧
      (∀ v, Legal w → g.val k = some v → 2 ^ w.toNat ≤ v.toNat → exec (.pack e w k o b) s = .fault .valueTooWide) ∧
      (∀ v, Legal w → g.val k = some v → v.toNat < 2 ^ w.toNat → s.cfg.bufBytes ≤ o.toNat + spanned b w - 1 →
        exec (.pack e w k o b) s = .fault .outOfBounds) ∧
      (∀ v, Legal w → g.val k = some v → v.toNat < 2 ^ w.toNat → o.toNat + spanned b w - 1 < s.cfg.bufBytes →
        0 < b.toNat → readByte s.buf o.toNat = none → exec (.pack e w k o b) s = .fault .unwritten) ∧
      (¬ Legal w → exec (.unpack e w k o b) s = .fault .undefWidth) ∧
      (Legal w → s.cfg.bufBytes ≤ o.toNat + spanned b w - 1 → exec (.unpack e w k o b) s = .fault .outOfBounds) ∧
      (Legal w → o.toNat + spanned b w - 1 < s.cfg.bufBytes →
        (∃ j, j < spanned b w ∧ readByte s.buf (o.toNat + j) = none) →
        exec (.unpack e w k o b) s = .fault .unwritten)) ∧
    (∀ (w : BitVec 8) (o : BitVec 32),
      (¬ Legal w → ∃ t g', exec (.pack8 e w o) s = .next t ∧ t.engines[e]? = some g' ∧ g'.status.errCode = 1#2) ∧
      (Legal w → (∃ k, g.val k = none) → exec (.pack8 e w o) s = .fault .unwritten) ∧
      (Legal w → (∀ k, g.val k ≠ none) → (∃ k v, g.val k = some v ∧ 2 ^ w.toNat ≤ v.toNat) →
        exec (.pack8 e w o) s = .fault .valueTooWide) ∧
      (Legal w → (∀ k, ∃ v, g.val k = some v ∧ v.toNat < 2 ^ w.toNat) → s.cfg.bufBytes ≤ o.toNat + w.toNat - 1 →
        exec (.pack8 e w o) s = .fault .outOfBounds) ∧
      (¬ Legal w → ∃ t g', exec (.unpack8 e w o) s = .next t ∧ t.engines[e]? = some g' ∧ g'.status.errCode = 1#2) ∧
      (Legal w → s.cfg.bufBytes ≤ o.toNat + w.toNat - 1 → exec (.unpack8 e w o) s = .fault .outOfBounds) ∧
      (Legal w → o.toNat + w.toNat - 1 < s.cfg.bufBytes →
        (∃ j, j < w.toNat ∧ readByte s.buf (o.toNat + j) = none) → exec (.unpack8 e w o) s = .fault .unwritten)) ∧
    (∀ c : Word,
      (g.status.busy = true → exec (.cmd e c) s = .fault .hazard) ∧
      (g.status.busy = false → reservedWord c = true → exec (.cmd e c) s = .refused .reservedField) ∧
      (g.status.busy = false → reservedWord c = false → overlaps s e c = true →
        exec (.cmd e c) s = .fault .overlap)) ∧
    (∀ (a : Nat) (x : Byte),
      (s.cfg.bufBytes ≤ a → exec (.wrbuf a x) s = .fault .outOfBounds) ∧
      (a < s.cfg.bufBytes → writeHazard s a = true → exec (.wrbuf a x) s = .fault .hazard) ∧
      (s.cfg.bufBytes ≤ a → exec (.rdbuf a) s = .fault .outOfBounds) ∧
      (a < s.cfg.bufBytes → readHazard s a = true → exec (.rdbuf a) s = .fault .hazard) ∧
      (a < s.cfg.bufBytes → readHazard s a = false → readByte s.buf a = none →
        exec (.rdbuf a) s = .fault .unwritten)) ∧
    (∀ k : Fin 8,
      (g.status.busy = true → exec (.rdval e k) s = .fault .hazard) ∧
      (g.status.busy = false → g.val k = none → exec (.rdval e k) s = .fault .unwritten))

/-! ## Engines, the order of steps, and runs -/

/-- When the instruction at the agent that moves next decodes, the step is that instruction's meaning, on the state
with one entry of the order used and one step counted (the model's own fields, log 3). -/
def Obligations.StepRunsTheDecodedInstruction : Prop :=
  ∀ (s : State) (a : Agent) (code : Code) (i : Instr), nextAgent s = some a → fetch s a = some code →
    decode s.cfg code = .ok i → Sys2Proof.Machine.step s = exec i s.tick

/-- `withFetchWord` places the instruction where the next step runs it, whatever else could have moved. (It stands
for a load from outside the machine: the model's choice, log 4; the table's bits are read as log 8 says.) -/
def Obligations.PlacedWordIsTheNextInstruction : Prop :=
  ∀ (s : State) (nbits w : Nat) (i : Instr), 0 < s.engines.length →
    decode s.cfg (tableCode s.cfg nbits w) = .ok i →
    Sys2Proof.Machine.step (s.withFetchWord nbits w) = exec i (s.withFetchWord nbits w).tick

/-- R100: any agent with an enabled step may take it: under some order it moves next; and every step of the system
is the step of an agent that had one, or rests because none had. (The order field and the rest are the model's
choices, logs 3 and 10.) -/
def Obligations.AnyEnabledAgentMayMove : Prop :=
  (∀ (s : State) (a : Agent) (rest : List Agent), a ∈ enabledAgents s →
    Sys2Proof.Machine.step { s with sched := a :: rest } = stepAs a { s with sched := rest, ticks := s.ticks + 1 }) ∧
  (∀ s : State, (enabledAgents s = [] ∧ Sys2Proof.Machine.step s = .next s) ∨
    (∃ a ∈ enabledAgents s, Sys2Proof.Machine.step s = stepAs a s.tick))

/-- The model's own fields (log 3) choose who moves and nothing else: an instruction does the same whatever they
hold, and leaves them alone. -/
def Obligations.OrderFieldsOnlyChooseTheMover : Prop :=
  ∀ (i : Instr) (s : State) (order : List Agent) (n : Nat),
    (∀ t, exec i s = .next t → t.sched = s.sched ∧ t.ticks = s.ticks ∧
      exec i { s with sched := order, ticks := n } = .next { t with sched := order, ticks := n }) ∧
    (∀ r, exec i s = .fault r → exec i { s with sched := order, ticks := n } = .fault r) ∧
    (∀ r, exec i s = .refused r → exec i { s with sched := order, ticks := n } = .refused r)

/-- R29, R99: the step of an engine with a command in flight executes that command and, when it completes, leaves
the engine idle, with ERRCODE 1 and ERRVAL the width when it is a block command of illegal width, and with 0 and 0
when it is not; other engines and the host are as before. -/
def Obligations.PerformStepCompletesTheCommand : Prop :=
  ∀ (s t : State) (e : Nat) (c : Word) (i : Instr) (g : Engine), s.engines[e]? = some g → g.inflight = some c →
    decodeCommand e c = .ok i →
    Agent.engine e ∈ enabledAgents s ∧ stepAs (.engine e) s = exec i s ∧
    (stepAs (.engine e) s = .next t → ∃ g', t.engines[e]? = some g' ∧ g'.inflight = none ∧ g'.status.busy = false ∧
      ((2 ≤ c.toNat % 4 ∧ ¬ Legal (cmdWidth c) ∧ g'.status.errCode = 1#2 ∧ g'.status.errVal = cmdWidth c) ∨
       (¬ (2 ≤ c.toNat % 4 ∧ ¬ Legal (cmdWidth c)) ∧ g'.status.errCode = 0#2 ∧ g'.status.errVal = 0#8)) ∧
      OtherEnginesSame e s t ∧ HostSame s t)

/-- R46, R47, R48, R51: while a command is in flight no step of another agent changes its engine, or a byte it
reads or writes. -/
def Obligations.NothingTouchesACommandInFlight : Prop :=
  ∀ (s t : State) (e : Nat) (g : Engine) (c : Word) (a : Agent), Inv s → s.engines[e]? = some g →
    g.inflight = some c → a ≠ .engine e → stepAs a s = .next t →
    t.engines[e]? = some g ∧ ∀ x, footHas c x = true → readByte t.buf x = readByte s.buf x

/-- R46, R48: two engines' perform steps give the same state in either order. -/
def Obligations.PerformStepsOfTwoEnginesCommute : Prop :=
  ∀ (s t : State) (e e' : Nat), Inv s → e ≠ e' → runOrder [.engine e, .engine e'] s = .next t →
    engineEnabled s e = true → engineEnabled s e' = true → runOrder [.engine e', .engine e] s = .next t

/-- R101: in a state that meets the invariant, no agent can move exactly when the run has ended. -/
def Obligations.NoAgentCanMoveExactlyWhenEnded : Prop :=
  ∀ s : State, Inv s → (enabledAgents s = [] ↔ ended s = true)

/-- R100, R101: from every state, a run stops in a fault or a refusal, or reaches within `stepsLeft s` steps a state
in which no agent can move. (What a step does then is the model's choice, log 10.) -/
def Obligations.EveryRunStopsWithinItsBound : Prop :=
  ∀ s : State, (∃ t, Host.Core.run Sys2Proof.core (stepsLeft s) s = .next t ∧ enabledAgents t = []) ∨
    (∃ r, Host.Core.run Sys2Proof.core (stepsLeft s) s = .fault r) ∨
    (∃ r, Host.Core.run Sys2Proof.core (stepsLeft s) s = .refused r)

/-- R100: every infinite run in which some agent that can move does, as long as one can, is fair: a busy engine
eventually takes its perform step. (That the spec's fairness assumption needs no more than this here is log 9's reading;
that the state stays where no agent can move is log 10's choice.) -/
def Obligations.EveryRunIsFair : Prop :=
  ∀ (σ : Nat → State) (mover : Nat → Option Agent),
    (∀ n, (∃ a ∈ enabledAgents (σ n), mover n = some a ∧ stepAs a (σ n) = .next (σ (n + 1))) ∨
      (enabledAgents (σ n) = [] ∧ mover n = none ∧ σ (n + 1) = σ n)) →
    FairRun σ mover
end

