-- ==== Sys2Proof/Laws/Decode.lean ====
section
/-! SUPPORT. The laws of the command format (R54, R57) of the register windows (R19) and of program lines: the fields of an assembled word, the register an address names, and what a line decodes to. -/

namespace Sys2Proof

/-! ## The fields of an assembled command word (R54) -/

theorem toNat_append_add {m n : Nat} (x : BitVec m) (y : BitVec n) :
    (x ++ y).toNat = x.toNat * 2 ^ n + y.toNat := by
  rw [BitVec.toNat_append, ← Nat.shiftLeft_add_eq_or_of_lt y.isLt, Nat.shiftLeft_eq]

/-- The sum R54 gives: `OP | (BITOFF << 2) | (SLOT << 5) | (WIDTH << 8) | (BYTEOFF << 32)`, the fields disjoint. -/
theorem cmdWord_toNat (op b s w o) : (cmdWord op b s w o).toNat =
    op.toNat + 4 * b.toNat + 32 * s.val + 256 * w.toNat + 2 ^ 32 * o.toNat := by
  have h : (cmdWord op b s w o).toNat =
      (((((o.toNat * 2 ^ 16 + (0#16).toNat) * 2 ^ 8 + w.toNat) * 2 ^ 3 + (BitVec.ofFin s : BitVec 3).toNat) * 2 ^ 3
        + b.toNat) * 2 ^ 2 + op.toNat) := by
    rw [← toNat_append_add, ← toNat_append_add, ← toNat_append_add, ← toNat_append_add, ← toNat_append_add]
    rfl
  rw [h]
  simp only [BitVec.toNat_ofNat, BitVec.toNat_ofFin]
  omega

theorem toNat_field (c : Word) (lo n : Nat) : (c.extractLsb' lo n).toNat = c.toNat / 2 ^ lo % 2 ^ n := by
  rw [BitVec.extractLsb'_toNat, Nat.shiftRight_eq_div_pow]

theorem cmdWord_op (op b s w o) : cmdOp (cmdWord op b s w o) = op := by
  apply BitVec.eq_of_toNat_eq
  have := op.isLt
  rw [cmdOp, toNat_field, cmdWord_toNat]
  omega

theorem cmdWord_bitOff (op b s w o) : cmdBitOff (cmdWord op b s w o) = b := by
  apply BitVec.eq_of_toNat_eq
  have := op.isLt
  have := b.isLt
  rw [cmdBitOff, toNat_field, cmdWord_toNat]
  omega

theorem cmdWord_slot (op b s w o) : cmdSlot (cmdWord op b s w o) = s := by
  apply Fin.ext
  have := op.isLt
  have := b.isLt
  simp only [cmdSlot, toNat_field, cmdWord_toNat]
  omega

theorem cmdWord_width (op b s w o) : cmdWidth (cmdWord op b s w o) = w := by
  apply BitVec.eq_of_toNat_eq
  have := op.isLt
  have := b.isLt
  have := w.isLt
  rw [cmdWidth, toNat_field, cmdWord_toNat]
  omega

theorem cmdWord_byteOff (op b s w o) : cmdByteOff (cmdWord op b s w o) = o := by
  apply BitVec.eq_of_toNat_eq
  have := op.isLt
  have := b.isLt
  have := w.isLt
  have := o.isLt
  rw [cmdByteOff, toNat_field, cmdWord_toNat]
  omega

theorem cmdWord_reserved (op b s w o) : (cmdWord op b s w o).extractLsb' 16 16 = 0#16 := by
  apply BitVec.eq_of_toNat_eq
  have := op.isLt
  have := b.isLt
  have := w.isLt
  rw [toNat_field, cmdWord_toNat, BitVec.toNat_ofNat]
  omega

theorem cmdWord_low (op w o) : (cmdWord op 0#3 0 w o).extractLsb' 2 6 = 0#6 := by
  apply BitVec.eq_of_toNat_eq
  have := op.isLt
  rw [toNat_field, cmdWord_toNat]
  simp only [BitVec.toNat_ofNat, Fin.val_zero]
  omega

/-- An assembled single-value command is not reserved (R57). -/
theorem reservedWord_single (op b s w o) (h : op = 0#2 ∨ op = 1#2) : reservedWord (cmdWord op b s w o) = false := by
  rw [reservedWord, cmdWord_op, cmdWord_reserved]
  rcases h with rfl | rfl <;> rfl

/-- An assembled block command is not reserved (R57). -/
theorem reservedWord_block (op w o) : reservedWord (cmdWord op 0#3 0 w o) = false := by
  rw [reservedWord, cmdWord_reserved, cmdWord_low]
  simp

/-! ## The register windows (R19) -/

/-- The register at an offset of an existing engine's window. -/
theorem locate_regAddr {cfg : Config} {e off : Nat} (he : e < cfg.nEngines) (ho : off < 0x100) :
    locate cfg (regAddr cfg e off) = (regAt off).map (fun r => (e, r)) := by
  have h1 : ¬ regAddr cfg e off < cfg.regBase := by simp [regAddr]; omega
  have h2 : regAddr cfg e off - cfg.regBase = 0x100 * e + off := by simp [regAddr]; omega
  have h3 : (0x100 * e + off) / 0x100 = e := by omega
  have h4 : (0x100 * e + off) % 0x100 = off := by omega
  simp [locate, h1, h2, h3, h4, he]

/-- `VAL[k]` stands at `0x040 + 8k`. -/
theorem regAt_val {k : Nat} (hk : k < 8) : regAt (0x040 + 8 * k) = some (.val k) := by
  have h1 : ¬ (0x040 + 8 * k = 0) := by omega
  have h2 : ¬ (0x040 + 8 * k = 8) := by omega
  have h3 : 0x040 + 8 * k < 0x080 := by omega
  have h4 : (0x040 + 8 * k) % 8 = 0 := by omega
  simp only [regAt, if_neg h1, if_neg h2]
  rw [if_pos ⟨by omega, h3, h4⟩]
  congr 2
  omega

/-- The registers of a window, and where each stands. -/
theorem regAt_eq_some {off : Nat} {r : Reg} : regAt off = some r ↔
    (off = 0x000 ∧ r = .cmd) ∨ (off = 0x008 ∧ r = .status) ∨ ∃ k, k < 8 ∧ off = 0x040 + 8 * k ∧ r = .val k := by
  constructor
  · intro h
    unfold regAt at h
    split at h
    · next h0 => cases h; exact .inl ⟨h0, rfl⟩
    split at h
    · next h1 => cases h; exact .inr (.inl ⟨h1, rfl⟩)
    split at h
    · next h2 => cases h; exact .inr (.inr ⟨_, by omega, by omega, rfl⟩)
    · cases h
  · rintro (⟨rfl, rfl⟩ | ⟨rfl, rfl⟩ | ⟨k, hk, rfl, rfl⟩)
    · rfl
    · rfl
    · exact regAt_val hk

/-- The addresses that name a register, and the register each names. -/
theorem locate_eq_some {cfg : Config} {addr e : Nat} {r : Reg} : locate cfg addr = some (e, r) ↔
    ∃ off, e < cfg.nEngines ∧ off < 0x100 ∧ addr = regAddr cfg e off ∧ regAt off = some r := by
  constructor
  · intro h
    simp only [locate] at h
    split at h
    · cases h
    split at h
    · next h1 h2 =>
      obtain ⟨r', hr, he⟩ := Option.map_eq_some_iff.mp h
      cases he
      exact ⟨_, h2, Nat.mod_lt _ (by decide), by unfold regAddr; omega, hr⟩
    · cases h
  · rintro ⟨off, he, ho, rfl, hr⟩
    rw [locate_regAddr he ho, hr]
    rfl

/-! ## The lines of a host program (R61, R105) -/

@[simp] theorem decodeLine_access (cfg : Config) (x : Access) : decodeLine cfg (.access x) = decodeAccess cfg x := rfl

@[simp] theorem decode_line (cfg : Config) (l : Line) : decode cfg (.line l) = decodeLine cfg l := rfl

/-- A line that names a missing engine or register is refused, whatever its bus access would address. -/
theorem decodeLine_illFormed {cfg : Config} {i : Instr} (h : i.wellFormed cfg = false) :
    decodeLine cfg (.action i) = .error .unmapped := by simp [decodeLine, h]

/-- Any other line goes through its bus access. -/
theorem decodeLine_wellFormed {cfg : Config} {i : Instr} (h : i.wellFormed cfg = true) :
    decodeLine cfg (.action i) = decodeAccess cfg (assemble cfg i) := by simp [decodeLine, h]

end Sys2Proof
end

