-- ==== Sys2Proof/Laws/Fields.lean ====
section
/-! SUPPORT. The laws of the codec's arithmetic: footprints and shift amounts, splitting and joining, images, and the command word's address sets. -/

namespace Sys2Proof.Machine

/-! ## Footprints -/

theorem footLen_pos {b w : Nat} (hw : w ≠ 0) : footLen b w = (b + w + 7) / 8 := by
  simp [footLen, ceil8, hw]

/-- The footprint's bits are the bits before the field, the field and the shift amount (R15). -/
theorem footLen_bits {b w : Nat} (hw : w ≠ 0) : 8 * footLen b w = b + w + shiftAmt b w := by
  rw [shiftAmt, footLen_pos hw]; omega

theorem shiftAmt_le {b w : Nat} (hw : w ≠ 0) : shiftAmt b w ≤ 7 := by
  rw [shiftAmt, footLen_pos hw]; omega

theorem legalWidth_iff {w : Nat} : legalWidth w = true ↔ 1 ≤ w ∧ w ≤ 63 := by simp [legalWidth]

theorem legalWidth_false_iff {w : Nat} : legalWidth w = false ↔ w = 0 ∨ 64 ≤ w := by
  rw [← Bool.not_eq_true, legalWidth_iff]; omega

/-! ## Splitting into bytes -/

@[simp] theorem splitBytes_length (n x : Nat) : (splitBytes n x).length = n := by
  induction n with
  | zero => rfl
  | succ n ih => simp [splitBytes, ih]

theorem splitBytes_get (n x j : Nat) (h : j < (splitBytes n x).length) :
    (splitBytes n x)[j] = BitVec.ofNat 8 (x >>> (8 * (n - 1 - j))) := by
  induction n generalizing j with
  | zero => simp [splitBytes] at h
  | succ n ih =>
    cases j with
    | zero => simp [splitBytes]
    | succ j =>
      have e : n + 1 - 1 - (j + 1) = n - 1 - j := by omega
      simp only [splitBytes, List.getElem_cons_succ, e]
      exact ih j (by simpa using h)

@[simp] theorem image_length (v w b : Nat) : (image v w b).length = footLen b w := by simp [image]

@[simp] theorem orHead_length (old : Byte) (bs : List Byte) : (orHead old bs).length = bs.length := by
  cases bs <;> rfl

theorem orHead_get_zero (old : Byte) {bs : List Byte} (h : 0 < bs.length) :
    (orHead old bs)[0]'(by simpa using h) = old ||| bs[0] := by
  cases bs with
  | nil => simp at h
  | cons x xs => rfl

theorem orHead_get_succ (old : Byte) {bs : List Byte} {j : Nat} (h : j + 1 < bs.length) :
    (orHead old bs)[j + 1]'(by simpa using h) = bs[j + 1] := by
  cases bs with
  | nil => simp at h
  | cons x xs => rfl

/-! ## Joining -/

theorem joinFields_lt {w : Nat} {vs : List Nat} (h : ∀ v ∈ vs, v < 2 ^ w) :
    joinFields w vs < 2 ^ (w * vs.length) := by
  induction vs with
  | nil => simp [joinFields]
  | cons v vs ih =>
    have h1 := ih (fun u hu => h u (List.mem_cons_of_mem _ hu))
    have h2 : v + 1 ≤ 2 ^ w := h v List.mem_cons_self
    rw [joinFields, Nat.shiftLeft_eq, List.length_cons, Nat.mul_succ, Nat.pow_add, Nat.mul_comm (2 ^ (w * vs.length))]
    calc v * 2 ^ (w * vs.length) + joinFields w vs
        < v * 2 ^ (w * vs.length) + 2 ^ (w * vs.length) := by omega
      _ = (v + 1) * 2 ^ (w * vs.length) := by ring
      _ ≤ 2 ^ w * 2 ^ (w * vs.length) := Nat.mul_le_mul_right _ h2

theorem joinFields_append (w : Nat) (us vs : List Nat) :
    joinFields w (us ++ vs) = (joinFields w us <<< (w * vs.length)) + joinFields w vs := by
  induction us with
  | nil => simp [joinFields]
  | cons u us ih =>
    rw [List.cons_append, joinFields, ih, joinFields]
    simp only [Nat.shiftLeft_eq, List.length_append]
    rw [Nat.mul_add, Nat.pow_add]
    ring

/-- Field `k` of joined fields that fit is the `k`-th of them. -/
theorem fieldOf_joinFields {w : Nat} {vs : List Nat} (h : ∀ v ∈ vs, v < 2 ^ w) {k : Nat} (hk : k < vs.length) :
    fieldOf w vs.length (joinFields w vs) k = vs[k] := by
  induction vs generalizing k with
  | nil => simp at hk
  | cons v vs ih =>
    have hvs : ∀ u ∈ vs, u < 2 ^ w := fun u hu => h u (List.mem_cons_of_mem _ hu)
    have hlt := joinFields_lt hvs
    cases k with
    | zero =>
      have hv : v < 2 ^ w := h v List.mem_cons_self
      simp only [fieldOf, joinFields, Nat.shiftRight_eq_div_pow, Nat.shiftLeft_eq, List.length_cons,
        Nat.add_sub_cancel, Nat.sub_zero, List.getElem_cons_zero]
      rw [Nat.add_comm, Nat.add_mul_div_right _ _ (Nat.two_pow_pos _), Nat.div_eq_of_lt hlt, Nat.zero_add,
        Nat.mod_eq_of_lt hv]
    | succ k =>
      have hk' : k < vs.length := by simpa using hk
      have e : (v :: vs).length - 1 - (k + 1) = vs.length - 1 - k := by simp; omega
      have hsplit : w * vs.length = w * (vs.length - 1 - k) + w * (k + 1) := by
        rw [← Nat.mul_add]; congr 1; omega
      rw [List.getElem_cons_succ, ← ih hvs hk', fieldOf, fieldOf, e, joinFields]
      simp only [Nat.shiftRight_eq_div_pow, Nat.shiftLeft_eq]
      rw [hsplit, Nat.pow_add, show v * (2 ^ (w * (vs.length - 1 - k)) * 2 ^ (w * (k + 1))) + joinFields w vs
          = joinFields w vs + 2 ^ (w * (vs.length - 1 - k)) * (v * 2 ^ (w * (k + 1))) by ring,
        Nat.add_mul_div_left _ _ (Nat.two_pow_pos _), Nat.mul_succ w k, Nat.pow_add,
        show v * (2 ^ (w * k) * 2 ^ w) = 2 ^ w * (v * 2 ^ (w * k)) by ring, Nat.add_mul_mod_self_left]

/-! ## Windows of bytes -/

theorem joinBytes_nil : joinBytes [] = 0 := rfl

theorem joinBytes_cons (b : Byte) (bs : List Byte) :
    joinBytes (b :: bs) = b.toNat * 2 ^ (8 * bs.length) + joinBytes bs := by
  simp [joinBytes, joinFields, Nat.shiftLeft_eq]

theorem joinBytes_lt (bs : List Byte) : joinBytes bs < 2 ^ (8 * bs.length) := by
  have := joinFields_lt (w := 8) (vs := bs.map BitVec.toNat) (by
    intro v hv; obtain ⟨x, -, rfl⟩ := List.mem_map.mp hv; exact x.isLt)
  simpa [joinBytes] using this

/-- The window of the bytes of `x` is `x`, taken modulo their length. -/
theorem joinBytes_splitBytes (n x : Nat) : joinBytes (splitBytes n x) = x % 2 ^ (8 * n) := by
  induction n with
  | zero => simp [splitBytes, joinBytes_nil, Nat.mod_one]
  | succ n ih =>
    rw [splitBytes, joinBytes_cons, ih, splitBytes_length, BitVec.toNat_ofNat, Nat.shiftRight_eq_div_pow,
      Nat.mul_succ, Nat.pow_add, Nat.mod_mul]
    ring

theorem splitBytes_mod (n x : Nat) : splitBytes n (x % 2 ^ (8 * n)) = splitBytes n x := by
  apply List.ext_getElem (by simp)
  intro j h1 h2
  rw [splitBytes_get, splitBytes_get]
  apply BitVec.eq_of_toNat_eq
  have hj : j < n := by simpa using h1
  simp only [BitVec.toNat_ofNat, Nat.shiftRight_eq_div_pow]
  have hs : 8 * n = 8 * (n - 1 - j) + (8 + 8 * j) := by omega
  rw [hs, Nat.pow_add, Nat.mod_mul_right_div_self, Nat.pow_add,
    Nat.mod_mul_right_mod]

/-- The bytes of a window are the bytes it was joined from. -/
theorem splitBytes_joinBytes (bs : List Byte) : splitBytes bs.length (joinBytes bs) = bs := by
  induction bs with
  | nil => rfl
  | cons b bs ih =>
    have hlt := joinBytes_lt bs
    rw [joinBytes_cons, List.length_cons, splitBytes]
    congr 1
    · apply BitVec.eq_of_toNat_eq
      rw [BitVec.toNat_ofNat, Nat.shiftRight_eq_div_pow, Nat.add_comm, Nat.add_mul_div_right _ _ (Nat.two_pow_pos _),
        Nat.div_eq_of_lt hlt, Nat.zero_add, Nat.mod_eq_of_lt b.isLt]
    · rw [← splitBytes_mod, Nat.add_comm, Nat.add_mul_mod_self_right, splitBytes_mod, ih]

/-- The window of an image is the value shifted by the aligner (R65). -/
theorem joinBytes_image {v w b : Nat} (hw : w ≠ 0) (hv : v < 2 ^ w) :
    joinBytes (image v w b) = v * 2 ^ shiftAmt b w := by
  rw [image, joinBytes_splitBytes, Nat.shiftLeft_eq, footLen_bits hw, Nat.mod_eq_of_lt]
  rw [Nat.pow_add, Nat.pow_add]
  have h1 : v * 2 ^ shiftAmt b w < 2 ^ w * 2 ^ shiftAmt b w := Nat.mul_lt_mul_of_pos_right hv (Nat.two_pow_pos _)
  rw [Nat.mul_assoc]
  exact lt_of_lt_of_le h1 (Nat.le_mul_of_pos_left _ (Nat.two_pow_pos b))

/-- The window of an image whose first byte is OR-ed: the two windows OR-ed. -/
theorem joinBytes_orHead (old : Byte) {bs : List Byte} (h : bs ≠ []) :
    joinBytes (orHead old bs) = (old.toNat <<< (8 * (bs.length - 1))) ||| joinBytes bs := by
  cases bs with
  | nil => exact absurd rfl h
  | cons x xs =>
    have hlt := joinBytes_lt xs
    rw [orHead, joinBytes_cons, joinBytes_cons, List.length_cons, Nat.add_sub_cancel, BitVec.toNat_or,
      ← Nat.shiftLeft_eq, ← Nat.shiftLeft_eq, Nat.shiftLeft_add_eq_or_of_lt hlt,
      Nat.shiftLeft_add_eq_or_of_lt hlt, Nat.shiftLeft_or_distrib, Nat.or_assoc]

/-! ## Address sets -/

theorem span_has_iff {p : Span} {a : Nat} : p.has a = true ↔ p.start ≤ a ∧ a < p.start + p.len := by
  simp [Span.has]

/-- `meets` says that the two spans share an address. -/
theorem span_meets_iff {p q : Span} : p.meets q = true ↔ ∃ a, p.has a = true ∧ q.has a = true := by
  simp only [Span.meets, decide_eq_true_eq, span_has_iff]
  constructor
  · intro h; exact ⟨max p.start q.start, by omega, by omega⟩
  · rintro ⟨a, h1, h2⟩; omega

theorem span_meets_comm (p q : Span) : p.meets q = q.meets p := by
  rw [Bool.eq_iff_iff, span_meets_iff, span_meets_iff]
  constructor <;> rintro ⟨a, h1, h2⟩ <;> exact ⟨a, h2, h1⟩

/-- Conflict is symmetric (R48). -/
theorem conflict_comm (c c' : Word) : conflict c c' = conflict c' c := by
  simp only [conflict, span_meets_comm (writeSpan c')]
  cases (writeSpan c).meets (readSpan c') <;> cases (writeSpan c).meets (writeSpan c') <;>
    cases (readSpan c).meets (writeSpan c') <;> rfl

/-- What no conflict says (R48): no byte that one command writes is touched by the other. -/
theorem conflict_false_iff {c c' : Word} : conflict c c' = false ↔
    ∀ a, ((writeSpan c).has a = true → footHas c' a = false) ∧ ((writeSpan c').has a = true → footHas c a = false) := by
  rw [← Bool.not_eq_true]
  simp only [conflict, footHas, Bool.or_eq_true, span_meets_iff, ← Bool.not_eq_true]
  constructor
  · intro h a
    refine ⟨fun h1 h2 => ?_, fun h1 h2 => ?_⟩
    · rcases h2 with h2 | h2
      · exact h (.inl (.inl ⟨a, h1, h2⟩))
      · exact h (.inl (.inr ⟨a, h1, h2⟩))
    · rcases h2 with h2 | h2
      · exact h (.inr ⟨a, h1, h2⟩)
      · exact h (.inl (.inr ⟨a, h2, h1⟩))
  · rintro h ((⟨a, h1, h2⟩ | ⟨a, h1, h2⟩) | ⟨a, h1, h2⟩)
    · exact (h a).1 h1 (.inl h2)
    · exact (h a).1 h1 (.inr h2)
    · exact (h a).2 h1 (.inl h2)

end Sys2Proof.Machine
end

