-- ==== Sys2Proof/Laws/Memory.lean ====
section
/-! SUPPORT. The laws of the buffer operations: reading after writing, the canonical form and the bound that every write keeps, and writes that commute. -/

namespace Sys2Proof.Machine

/-! ## Reading after writing one byte -/

theorem readByte_writeByte (m : List Host.Cell) (a x : Nat) (v : Byte) :
    readByte (writeByte m a v) x = if a = x then some v else readByte m x := by
  induction m with
  | nil => simp [writeByte, readByte]
  | cons c m ih =>
    obtain ⟨y, u⟩ := c
    simp only [writeByte]
    split
    · rfl
    · split
      · subst y
        simp only [readByte]
        split <;> rfl
      · simp only [readByte, ih]
        split <;> split <;> first | rfl | omega

@[simp] theorem readByte_writeByte_same (m : List Host.Cell) (a : Nat) (v : Byte) :
    readByte (writeByte m a v) a = some v := by simp [readByte_writeByte]

theorem readByte_writeByte_other (m : List Host.Cell) {a x : Nat} (v : Byte) (h : a ≠ x) :
    readByte (writeByte m a v) x = readByte m x := by simp [readByte_writeByte, h]

/-! ## Runs of bytes -/

/-- What a run of writes leaves in byte `x`. -/
theorem readByte_writeBytes (bs : List Byte) (m : List Host.Cell) (a x : Nat) :
    readByte (writeBytes m a bs) x =
      if a ≤ x ∧ x < a + bs.length then bs[x - a]? else readByte m x := by
  induction bs generalizing m a with
  | nil =>
    simp [writeBytes]
  | cons b bs ih =>
    rw [writeBytes, ih, readByte_writeByte]
    by_cases hax : a = x
    · subst hax
      simp
    · by_cases h : a ≤ x ∧ x < a + (b :: bs).length
      · have h' : a + 1 ≤ x ∧ x < a + 1 + bs.length := by simp at h; omega
        have hx : x - a = (x - (a + 1)) + 1 := by omega
        rw [if_pos h, if_pos h', hx, List.getElem?_cons_succ]
      · have h' : ¬ (a + 1 ≤ x ∧ x < a + 1 + bs.length) := by simp at h; omega
        rw [if_neg h, if_neg h', if_neg hax]

theorem readByte_writeBytes_outside (bs : List Byte) (m : List Host.Cell) {a x : Nat}
    (h : x < a ∨ a + bs.length ≤ x) : readByte (writeBytes m a bs) x = readByte m x := by
  rw [readByte_writeBytes, if_neg (by omega)]

/-- `readBytes` answers exactly when every byte is written, with those bytes. -/
theorem readBytes_eq_some {m : List Host.Cell} {a n : Nat} {bs : List Byte} :
    readBytes m a n = some bs ↔ bs.length = n ∧ ∀ j (h : j < bs.length), readByte m (a + j) = some bs[j] := by
  induction n generalizing a bs with
  | zero => cases bs <;> simp [readBytes]
  | succ n ih =>
    rw [readBytes]
    constructor
    · intro h
      split at h
      · next x xs hx hxs =>
        obtain rfl := Option.some.inj h
        obtain ⟨hl, hr⟩ := ih.mp hxs
        refine ⟨by simp [hl], fun j hj => ?_⟩
        cases j with
        | zero => simpa using hx
        | succ j =>
          have := hr j (by simpa using hj)
          simpa [Nat.add_assoc, Nat.add_comm 1 j] using this
      · cases h
    · rintro ⟨hl, hr⟩
      cases bs with
      | nil => simp at hl
      | cons x xs =>
        have h0 := hr 0 (by simp)
        have h1 : readBytes m (a + 1) n = some xs := ih.mpr ⟨by simpa using hl, fun j hj => by
          have := hr (j + 1) (by simpa using hj)
          simpa [Nat.add_assoc, Nat.add_comm 1 j] using this⟩
        simp only [Nat.add_zero, List.getElem_cons_zero] at h0
        rw [h0, h1]

theorem readBytes_length {m : List Host.Cell} {a n : Nat} {bs : List Byte} (h : readBytes m a n = some bs) :
    bs.length = n := (readBytes_eq_some.mp h).1

/-- A run of bytes just written reads back. -/
theorem readBytes_writeBytes (m : List Host.Cell) (a : Nat) (bs : List Byte) :
    readBytes (writeBytes m a bs) a bs.length = some bs := by
  rw [readBytes_eq_some]
  refine ⟨rfl, fun j hj => ?_⟩
  rw [readByte_writeBytes, if_pos (by omega)]
  simp [hj]

/-- A run of bytes reads the same in two buffers that agree on it. -/
theorem readBytes_congr {m m' : List Host.Cell} {a n : Nat}
    (h : ∀ x, a ≤ x → x < a + n → readByte m x = readByte m' x) : readBytes m a n = readBytes m' a n := by
  induction n generalizing a with
  | zero => rfl
  | succ n ih => rw [readBytes, readBytes, h a (by omega) (by omega), ih (fun x h1 h2 => h x (by omega) (by omega))]

/-! ## The canonical form -/

theorem cellsFrom_mono {lo lo' : Nat} {m : List Host.Cell} (h : lo' ≤ lo) (hm : cellsFrom lo m = true) :
    cellsFrom lo' m = true := by
  cases m with
  | nil => rfl
  | cons c m =>
    simp only [cellsFrom, Bool.and_eq_true, decide_eq_true_eq] at hm ⊢
    exact ⟨by omega, hm.2⟩

theorem cellsFrom_writeByte {lo a : Nat} (v : Byte) {m : List Host.Cell} (hm : cellsFrom lo m = true)
    (ha : lo ≤ a) : cellsFrom lo (writeByte m a v) = true := by
  induction m generalizing lo with
  | nil => simp [writeByte, cellsFrom, ha]
  | cons c m ih =>
    obtain ⟨x, u⟩ := c
    simp only [cellsFrom, Bool.and_eq_true, decide_eq_true_eq] at hm
    rw [writeByte]
    split
    · simp only [cellsFrom, Bool.and_eq_true, decide_eq_true_eq]
      exact ⟨ha, by omega, hm.2⟩
    · split
      · subst x
        simp only [cellsFrom, Bool.and_eq_true, decide_eq_true_eq]
        exact hm
      · simp only [cellsFrom, Bool.and_eq_true, decide_eq_true_eq]
        exact ⟨hm.1, ih hm.2 (by omega)⟩

theorem wf_writeByte {m : List Host.Cell} (a : Nat) (v : Byte) (h : Memory.wf m = true) :
    Memory.wf (writeByte m a v) = true := cellsFrom_writeByte v h (Nat.zero_le _)

theorem wf_writeBytes (bs : List Byte) {m : List Host.Cell} (a : Nat) (h : Memory.wf m = true) :
    Memory.wf (writeBytes m a bs) = true := by
  induction bs generalizing m a with
  | nil => exact h
  | cons b bs ih => exact ih (a + 1) (wf_writeByte a b h)

theorem wf_packField {m m' : List Host.Cell} {o b w v : Nat} (h : Memory.wf m = true)
    (hp : packField m o b w v = some m') : Memory.wf m' = true := by
  unfold packField at hp
  split at hp
  · cases hp; exact wf_writeBytes _ _ h
  · split at hp
    · cases hp
    · cases hp; exact wf_writeBytes _ _ h

theorem wf_packBlock {m : List Host.Cell} (o w : Nat) (vs : List Nat) (h : Memory.wf m = true) :
    Memory.wf (packBlock m o w vs) = true := wf_writeBytes _ _ h

theorem wf_reset : Memory.wf State.reset.buf = true := rfl

/-- Two canonical buffers that read the same are one buffer. -/
theorem canonical_ext {m m' : List Host.Cell} (h : Memory.wf m = true) (h' : Memory.wf m' = true)
    (hr : ∀ a, readByte m a = readByte m' a) : m = m' := by
  have below : ∀ {lo a : Nat} {l : List Host.Cell}, cellsFrom lo l = true → a < lo → readByte l a = none := by
    intro lo a l
    induction l generalizing lo with
    | nil => intros; rfl
    | cons c l ih =>
      obtain ⟨x, u⟩ := c
      intro hl ha
      simp only [cellsFrom, Bool.and_eq_true, decide_eq_true_eq] at hl
      rw [readByte, if_neg (by omega)]
      exact ih hl.2 (by omega)
  have main : ∀ (l l' : List Host.Cell) (lo : Nat), cellsFrom lo l = true → cellsFrom lo l' = true →
      (∀ a, readByte l a = readByte l' a) → l = l' := by
    intro l
    induction l with
    | nil =>
      intro l' lo _ _ hr
      cases l' with
      | nil => rfl
      | cons c l' => have := hr c.1; simp [readByte] at this
    | cons c l ih =>
      obtain ⟨x, u⟩ := c
      intro l' lo hl hl' hr
      cases l' with
      | nil => have := hr x; simp [readByte] at this
      | cons c' l' =>
        obtain ⟨x', u'⟩ := c'
        simp only [cellsFrom, Bool.and_eq_true, decide_eq_true_eq] at hl hl'
        have hx : x = x' := by
          rcases Nat.lt_trichotomy x x' with hlt | heq | hgt
          · have h1 := hr x
            rw [readByte, if_pos rfl, readByte, if_neg (by omega), below hl'.2 (by omega)] at h1
            cases h1
          · exact heq
          · have h1 := hr x'
            rw [readByte, if_neg (by omega), below hl.2 (by omega), readByte, if_pos rfl] at h1
            cases h1
        subst hx
        have hu : u = u' := by simpa [readByte] using hr x
        subst hu
        have hrest : l = l' := ih l' (x + 1) hl.2 hl'.2 (fun a => by
          by_cases ha : x = a
          · subst ha; rw [below hl.2 (by omega), below hl'.2 (by omega)]
          · have := hr a
            rwa [readByte, if_neg ha, readByte, if_neg ha] at this)
        rw [hrest]
  exact main m m' 0 h h' hr

/-! ## Writes that commute -/

/-- Writing one byte twice leaves the second value. -/
theorem writeByte_writeByte_same (m : List Host.Cell) (a : Nat) (u v : Byte) :
    writeByte (writeByte m a u) a v = writeByte m a v := by
  induction m with
  | nil => simp [writeByte]
  | cons c m ih =>
    obtain ⟨x, y⟩ := c
    simp only [writeByte]
    split
    · simp [writeByte]
    · split
      · simp [writeByte]
      · rw [writeByte, if_neg (by assumption), if_neg (by assumption), ih]

/-- Writes to two bytes commute. -/
theorem writeByte_comm (m : List Host.Cell) {a b : Nat} (u v : Byte) (h : a ≠ b) :
    writeByte (writeByte m a u) b v = writeByte (writeByte m b v) a u := by
  induction m with
  | nil =>
    simp only [writeByte]
    split <;> split <;> first | rfl | omega | (simp; omega)
  | cons c m ih =>
    obtain ⟨x, y⟩ := c
    simp only [writeByte]
    repeat' split
    all_goals simp only [writeByte]
    all_goals repeat' split
    all_goals first | rfl | omega | simp_all

/-! ## Where the written bytes are -/

theorem mem_writeByte {m : List Host.Cell} {a : Nat} {v : Byte} {c : Host.Cell} (h : c ∈ writeByte m a v) :
    c.1 = a ∨ c ∈ m := by
  induction m with
  | nil => simp only [writeByte, List.mem_singleton] at h; exact .inl (by rw [h])
  | cons d m ih =>
    rw [writeByte] at h
    split at h
    · rcases List.mem_cons.mp h with rfl | h
      · exact .inl rfl
      · exact .inr h
    · split at h
      · rcases List.mem_cons.mp h with rfl | h
        · exact .inl rfl
        · exact .inr (List.mem_cons_of_mem _ h)
      · rcases List.mem_cons.mp h with rfl | h
        · exact .inr (List.mem_cons_self)
        · exact (ih h).imp_right (List.mem_cons_of_mem _)

theorem mem_writeBytes {bs : List Byte} {m : List Host.Cell} {a : Nat} {c : Host.Cell}
    (h : c ∈ writeBytes m a bs) : (a ≤ c.1 ∧ c.1 < a + bs.length) ∨ c ∈ m := by
  induction bs generalizing m a with
  | nil => exact .inr h
  | cons b bs ih =>
    rcases ih h with h1 | h1
    · exact .inl (by simp; omega)
    · rcases mem_writeByte h1 with h2 | h2
      · exact .inl (by simp; omega)
      · exact .inr h2

end Sys2Proof.Machine
end

