-- ==== Sys2Proof/Laws/State.lean ====
section
/-! SUPPORT. One lemma per field per update of the state, of an engine and of a status register, true by unfolding, so that no proof unfolds a record update. -/

namespace Sys2Proof.Machine

/-! ## State.setEngine -/
@[simp] theorem setEngine_cfg (s : State) (e g) : (s.setEngine e g).cfg = s.cfg := rfl
@[simp] theorem setEngine_engines (s : State) (e g) : (s.setEngine e g).engines = s.engines.set e g := rfl
@[simp] theorem setEngine_buf (s : State) (e g) : (s.setEngine e g).buf = s.buf := rfl
@[simp] theorem setEngine_prog (s : State) (e g) : (s.setEngine e g).prog = s.prog := rfl
@[simp] theorem setEngine_hpc (s : State) (e g) : (s.setEngine e g).hpc = s.hpc := rfl
@[simp] theorem setEngine_readLog (s : State) (e g) : (s.setEngine e g).readLog = s.readLog := rfl
@[simp] theorem setEngine_sched (s : State) (e g) : (s.setEngine e g).sched = s.sched := rfl
@[simp] theorem setEngine_ticks (s : State) (e g) : (s.setEngine e g).ticks = s.ticks := rfl

/-! ## State.setBuf -/
@[simp] theorem setBuf_cfg (s : State) (m) : (s.setBuf m).cfg = s.cfg := rfl
@[simp] theorem setBuf_engines (s : State) (m) : (s.setBuf m).engines = s.engines := rfl
@[simp] theorem setBuf_buf (s : State) (m) : (s.setBuf m).buf = m := rfl
@[simp] theorem setBuf_prog (s : State) (m) : (s.setBuf m).prog = s.prog := rfl
@[simp] theorem setBuf_hpc (s : State) (m) : (s.setBuf m).hpc = s.hpc := rfl
@[simp] theorem setBuf_readLog (s : State) (m) : (s.setBuf m).readLog = s.readLog := rfl
@[simp] theorem setBuf_sched (s : State) (m) : (s.setBuf m).sched = s.sched := rfl
@[simp] theorem setBuf_ticks (s : State) (m) : (s.setBuf m).ticks = s.ticks := rfl

/-! ## State.advance -/
@[simp] theorem advance_cfg (s : State) : s.advance.cfg = s.cfg := rfl
@[simp] theorem advance_engines (s : State) : s.advance.engines = s.engines := rfl
@[simp] theorem advance_buf (s : State) : s.advance.buf = s.buf := rfl
@[simp] theorem advance_prog (s : State) : s.advance.prog = s.prog := rfl
@[simp] theorem advance_hpc (s : State) : s.advance.hpc = s.hpc + 1 := rfl
@[simp] theorem advance_readLog (s : State) : s.advance.readLog = s.readLog := rfl
@[simp] theorem advance_sched (s : State) : s.advance.sched = s.sched := rfl
@[simp] theorem advance_ticks (s : State) : s.advance.ticks = s.ticks := rfl

/-! ## State.log -/
@[simp] theorem log_cfg (s : State) (x) : (s.log x).cfg = s.cfg := rfl
@[simp] theorem log_engines (s : State) (x) : (s.log x).engines = s.engines := rfl
@[simp] theorem log_buf (s : State) (x) : (s.log x).buf = s.buf := rfl
@[simp] theorem log_prog (s : State) (x) : (s.log x).prog = s.prog := rfl
@[simp] theorem log_hpc (s : State) (x) : (s.log x).hpc = s.hpc := rfl
@[simp] theorem log_readLog (s : State) (x) : (s.log x).readLog = s.readLog ++ [x] := rfl
@[simp] theorem log_sched (s : State) (x) : (s.log x).sched = s.sched := rfl
@[simp] theorem log_ticks (s : State) (x) : (s.log x).ticks = s.ticks := rfl

/-! ## State.tick -/
@[simp] theorem tick_cfg (s : State) : s.tick.cfg = s.cfg := rfl
@[simp] theorem tick_engines (s : State) : s.tick.engines = s.engines := rfl
@[simp] theorem tick_buf (s : State) : s.tick.buf = s.buf := rfl
@[simp] theorem tick_prog (s : State) : s.tick.prog = s.prog := rfl
@[simp] theorem tick_hpc (s : State) : s.tick.hpc = s.hpc := rfl
@[simp] theorem tick_readLog (s : State) : s.tick.readLog = s.readLog := rfl
@[simp] theorem tick_sched (s : State) : s.tick.sched = s.sched.tail := rfl
@[simp] theorem tick_ticks (s : State) : s.tick.ticks = s.ticks + 1 := rfl

/-! ## State.invalidWidth -/
theorem invalidWidth_eq (s : State) (e g w) : s.invalidWidth e g w = s.setEngine e (g.complete errInvalidWidth w) := rfl
@[simp] theorem invalidWidth_cfg (s : State) (e g w) : (s.invalidWidth e g w).cfg = s.cfg := rfl
@[simp] theorem invalidWidth_engines (s : State) (e g w) :
    (s.invalidWidth e g w).engines = s.engines.set e (g.complete errInvalidWidth w) := rfl
@[simp] theorem invalidWidth_buf (s : State) (e g w) : (s.invalidWidth e g w).buf = s.buf := rfl
@[simp] theorem invalidWidth_prog (s : State) (e g w) : (s.invalidWidth e g w).prog = s.prog := rfl
@[simp] theorem invalidWidth_hpc (s : State) (e g w) : (s.invalidWidth e g w).hpc = s.hpc := rfl
@[simp] theorem invalidWidth_readLog (s : State) (e g w) : (s.invalidWidth e g w).readLog = s.readLog := rfl
@[simp] theorem invalidWidth_sched (s : State) (e g w) : (s.invalidWidth e g w).sched = s.sched := rfl
@[simp] theorem invalidWidth_ticks (s : State) (e g w) : (s.invalidWidth e g w).ticks = s.ticks := rfl

/-! ## The status register -/
@[simp] theorem issue_busy (t : Status) : t.issue.busy = true := rfl
@[simp] theorem issue_errCode (t : Status) : t.issue.errCode = t.errCode := rfl
@[simp] theorem issue_errVal (t : Status) : t.issue.errVal = t.errVal := rfl
@[simp] theorem done_busy (c v) : (Status.done c v).busy = false := rfl
@[simp] theorem done_errCode (c v) : (Status.done c v).errCode = c := rfl
@[simp] theorem done_errVal (c v) : (Status.done c v).errVal = v := rfl

/-! ## The engine -/
@[simp] theorem engine_issue_status (g : Engine) (c) : (g.issue c).status = g.status.issue := rfl
@[simp] theorem engine_issue_inflight (g : Engine) (c) : (g.issue c).inflight = some c := rfl
@[simp] theorem engine_issue_vals (g : Engine) (c) : (g.issue c).vals = g.vals := rfl
@[simp] theorem complete_status (g : Engine) (c v) : (g.complete c v).status = Status.done c v := rfl
@[simp] theorem complete_inflight (g : Engine) (c v) : (g.complete c v).inflight = none := rfl
@[simp] theorem complete_vals (g : Engine) (c v) : (g.complete c v).vals = g.vals := rfl
@[simp] theorem succeed_status (g : Engine) : g.succeed.status = Status.done errNone 0#8 := rfl
@[simp] theorem succeed_inflight (g : Engine) : g.succeed.inflight = none := rfl
@[simp] theorem succeed_vals (g : Engine) : g.succeed.vals = g.vals := rfl
@[simp] theorem setVal_status (g : Engine) (k v) : (g.setVal k v).status = g.status := rfl
@[simp] theorem setVal_inflight (g : Engine) (k v) : (g.setVal k v).inflight = g.inflight := rfl
@[simp] theorem setLanes_status (g : Engine) (f) : (g.setLanes f).status = g.status := rfl
@[simp] theorem setLanes_inflight (g : Engine) (f) : (g.setLanes f).inflight = g.inflight := rfl

/-! ## Reading a value register after a write -/
@[simp] theorem val_succeed (g : Engine) (k) : g.succeed.val k = g.val k := rfl
@[simp] theorem val_complete (g : Engine) (c v k) : (g.complete c v).val k = g.val k := rfl
@[simp] theorem val_issue (g : Engine) (c k) : (g.issue c).val k = g.val k := rfl

@[simp] theorem val_setVal_same (g : Engine) (k : Fin 8) (v : Word) : (g.setVal k v).val k = some v := by
  simp [Engine.val, Engine.setVal]

theorem val_setVal_other (g : Engine) {k k' : Fin 8} (v : Word) (h : k ≠ k') :
    (g.setVal k v).val k' = g.val k' := by
  have : k.val ≠ k'.val := fun h' => h (Fin.ext h')
  simp [Engine.val, Engine.setVal, Vector.getElem_set_ne, this]

theorem val_setLanes (g : Engine) (f : Nat → Nat) (k : Fin 8) :
    (g.setLanes f).val k = some (BitVec.ofNat 64 (f k.val)) := by
  fin_cases k <;> rfl

/-- Two engines with the same status, command in flight and value registers are one engine. -/
theorem engine_ext {g h : Engine} (hs : g.status = h.status) (hi : g.inflight = h.inflight)
    (hv : ∀ k, g.val k = h.val k) : g = h := by
  obtain ⟨_, _, v⟩ := g
  obtain ⟨_, _, v'⟩ := h
  simp only [Engine.val] at hs hi hv
  have : v = v' := Vector.ext (fun i hi' => hv ⟨i, hi'⟩)
  simp_all

/-- `allWritten` answers exactly the values of a list in which every register is written. -/
theorem allWritten_eq_some {l : List (Option Word)} {vs : List Word} :
    allWritten l = some vs ↔ l = vs.map some := by
  induction l generalizing vs with
  | nil => cases vs <;> simp [allWritten]
  | cons x r ih =>
    cases x with
    | none => cases vs <;> simp [allWritten]
    | some v =>
      simp only [allWritten]
      cases hr : allWritten r with
      | none =>
        cases vs with
        | nil => simp
        | cons u us => simp only [List.map_cons, List.cons.injEq]; constructor
                       · intro h; simp at h
                       · rintro ⟨-, h⟩; simp [(ih (vs := us)).mpr h] at hr
      | some ws =>
        have hws := (ih (vs := ws)).mp hr
        cases vs with
        | nil => simp
        | cons u us =>
          simp only [Option.some.injEq, List.cons.injEq, List.map_cons, hws]
          constructor
          · rintro ⟨rfl, rfl⟩; exact ⟨rfl, rfl⟩
          · rintro ⟨h1, h2⟩; exact ⟨h1, (List.map_injective_iff.mpr (Option.some_injective _)) h2⟩

/-- `VAL[e][0..7]` are all written with the values `vs` exactly when `lanes` answers them. -/
theorem lanes_eq_some {g : Engine} {vs : List Nat} :
    g.lanes = some vs ↔ ∃ ws : List Word, g.vals.toList = ws.map some ∧ vs = ws.map BitVec.toNat := by
  simp only [Engine.lanes, Option.map_eq_some_iff, allWritten_eq_some]
  constructor <;> rintro ⟨ws, h1, h2⟩ <;> exact ⟨ws, h1, h2.symm⟩

theorem lanes_length {g : Engine} {vs : List Nat} (h : g.lanes = some vs) : vs.length = 8 := by
  obtain ⟨ws, h1, rfl⟩ := lanes_eq_some.mp h
  have := congrArg List.length h1
  simpa using this.symm

/-- Lane `k` of the answer is value register `k`. -/
theorem lanes_get {g : Engine} {vs : List Nat} (h : g.lanes = some vs) (k : Fin 8) :
    ∃ v : Word, g.val k = some v ∧ vs[k.val]? = some v.toNat := by
  obtain ⟨ws, h1, rfl⟩ := lanes_eq_some.mp h
  have hlen : ws.length = 8 := by simpa using (congrArg List.length h1).symm
  have hk : k.val < ws.length := by omega
  refine ⟨ws[k.val], ?_, by simp [hk]⟩
  have h2 := congrArg (fun l => l[k.val]?) h1
  simpa [Engine.val, hk, k.isLt] using h2

end Sys2Proof.Machine
end

