-- ==== Sys2Proof/Laws/Exec.lean ====
section
/-! SUPPORT. What each meaning can do when it answers a next state: one inversion lemma per instruction, cited instead of unfolding it. -/

namespace Sys2Proof.Machine

open Host (Outcome)

theorem withEngine_next {s t : State} {e : Nat} {f : Engine → Outcome State Fault Refusal}
    (h : withEngine s e f = .next t) : ∃ g, s.engines[e]? = some g ∧ f g = .next t := by
  unfold withEngine at h
  split at h
  · cases h
  · next g hg => exact ⟨g, hg, h⟩

theorem withEngine_some {s : State} {e : Nat} {g : Engine} (f : Engine → Outcome State Fault Refusal)
    (h : s.engines[e]? = some g) : withEngine s e f = f g := by simp [withEngine, h]

theorem withEngine_none {s : State} {e : Nat} (f : Engine → Outcome State Fault Refusal)
    (h : s.engines[e]? = none) : withEngine s e f = .refused .unmapped := by simp [withEngine, h]

theorem withReg_next {k : Nat} {t : State} {f : Fin 8 → Outcome State Fault Refusal}
    (h : withReg k f = .next t) : ∃ hk : k < 8, f ⟨k, hk⟩ = .next t := by
  unfold withReg at h
  split at h
  · next hk => exact ⟨hk, h⟩
  · cases h

theorem withReg_lt {k : Nat} (f : Fin 8 → Outcome State Fault Refusal) (hk : k < 8) : withReg k f = f ⟨k, hk⟩ := by
  simp [withReg, hk]

/-- What PACK's buffer write answers: the image stored, its first byte OR-ed when `b > 0` (R66). -/
theorem packField_some {m m' : List Host.Cell} {o b w v : Nat} (h : packField m o b w v = some m') :
    (b = 0 ∧ m' = writeBytes m o (image v w b)) ∨
    (b ≠ 0 ∧ ∃ old, readByte m o = some old ∧ m' = writeBytes m o (orHead old (image v w b))) := by
  unfold packField at h
  split at h
  · exact .inl ⟨by assumption, (Option.some.inj h).symm⟩
  · split at h
    · cases h
    · next old hold => exact .inr ⟨by assumption, old, hold, (Option.some.inj h).symm⟩

/-- PACK's buffer write is one run of bytes over the footprint. -/
theorem packField_run {m m' : List Host.Cell} {o b w v : Nat} (h : packField m o b w v = some m') :
    ∃ bs : List Byte, bs.length = footLen b w ∧ m' = writeBytes m o bs := by
  rcases packField_some h with ⟨-, rfl⟩ | ⟨-, old, -, rfl⟩
  · exact ⟨_, by simp, rfl⟩
  · exact ⟨_, by simp, rfl⟩

theorem execPack_next {e w k o b} {s t : State} (h : execPack e w k o b s = .next t) :
    ∃ g v m, s.engines[e]? = some g ∧ legalWidth w.toNat = true ∧ g.val k = some v ∧ v.toNat < 2 ^ w.toNat ∧
      o.toNat + footLen b.toNat w.toNat - 1 < s.cfg.bufBytes ∧
      packField s.buf o.toNat b.toNat w.toNat v.toNat = some m ∧
      t = (s.setBuf m).setEngine e g.succeed := by
  obtain ⟨g, hg, h⟩ := withEngine_next h
  split at h
  · cases h
  · next hw =>
    split at h
    · cases h
    · next v hv =>
      split at h
      · cases h
      · next hfit =>
        split at h
        · cases h
        · next hin =>
          split at h
          · cases h
          · next m hm =>
            injection h with h
            exact ⟨g, v, m, hg, by simpa using hw, hv, by omega, by omega, hm, h.symm⟩

theorem execUnpack_next {e w k o b} {s t : State} (h : execUnpack e w k o b s = .next t) :
    ∃ g v, s.engines[e]? = some g ∧ legalWidth w.toNat = true ∧
      o.toNat + footLen b.toNat w.toNat - 1 < s.cfg.bufBytes ∧
      unpackField s.buf o.toNat b.toNat w.toNat = some v ∧
      t = s.setEngine e (g.setVal k (BitVec.ofNat 64 v)).succeed := by
  obtain ⟨g, hg, h⟩ := withEngine_next h
  split at h
  · cases h
  · next hw =>
    split at h
    · cases h
    · next hin =>
      split at h
      · cases h
      · next v hv =>
        injection h with h
        exact ⟨g, v, hg, by simpa using hw, by omega, hv, h.symm⟩

theorem execPack8_next {e w o} {s t : State} (h : execPack8 e w o s = .next t) :
    ∃ g, s.engines[e]? = some g ∧
      ((legalWidth w.toNat = false ∧ t = s.invalidWidth e g w) ∨
       (legalWidth w.toNat = true ∧ ∃ vs, g.lanes = some vs ∧ (∀ v ∈ vs, v < 2 ^ w.toNat) ∧
          o.toNat + w.toNat - 1 < s.cfg.bufBytes ∧
          t = (s.setBuf (packBlock s.buf o.toNat w.toNat vs)).setEngine e g.succeed)) := by
  obtain ⟨g, hg, h⟩ := withEngine_next h
  refine ⟨g, hg, ?_⟩
  split at h
  · next hw => injection h with h; exact .inl ⟨hw, h.symm⟩
  · next hw =>
    split at h
    · cases h
    · next vs hvs =>
      split at h
      · cases h
      · next hfit =>
        split at h
        · cases h
        · next hin =>
          injection h with h
          refine .inr ⟨by simpa using hw, vs, hvs, fun v hv => ?_, by omega, h.symm⟩
          simp only [List.any_eq_true, decide_eq_true_eq, not_exists, not_and] at hfit
          exact Nat.lt_of_not_le (hfit v hv)

theorem execUnpack8_next {e w o} {s t : State} (h : execUnpack8 e w o s = .next t) :
    ∃ g, s.engines[e]? = some g ∧
      ((legalWidth w.toNat = false ∧ t = s.invalidWidth e g w) ∨
       (legalWidth w.toNat = true ∧ ∃ x, unpackBlock s.buf o.toNat w.toNat = some x ∧
          o.toNat + w.toNat - 1 < s.cfg.bufBytes ∧
          t = s.setEngine e (g.setLanes (fieldOf w.toNat 8 x)).succeed)) := by
  obtain ⟨g, hg, h⟩ := withEngine_next h
  refine ⟨g, hg, ?_⟩
  split at h
  · next hw => injection h with h; exact .inl ⟨hw, h.symm⟩
  · next hw =>
    split at h
    · cases h
    · next hin =>
      split at h
      · cases h
      · next x hx =>
        injection h with h
        exact .inr ⟨by simpa using hw, x, hx, by omega, h.symm⟩

theorem execCmd_next {e c} {s t : State} (h : execCmd e c s = .next t) :
    ∃ g, s.engines[e]? = some g ∧ g.status.busy = false ∧ reservedWord c = false ∧ overlaps s e c = false ∧
      t = (s.setEngine e (g.issue c)).advance := by
  obtain ⟨g, hg, h⟩ := withEngine_next h
  split at h
  · cases h
  · next hb =>
    split at h
    · cases h
    · next hr =>
      split at h
      · cases h
      · next ho =>
        injection h with h
        exact ⟨g, hg, by simpa using hb, by simpa using hr, by simpa using ho, h.symm⟩

theorem execWrval_next {e k v} {s t : State} (h : execWrval e k v s = .next t) :
    ∃ g, ∃ hk : k < 8, s.engines[e]? = some g ∧ g.status.busy = false ∧
      t = (s.setEngine e (g.setVal ⟨k, hk⟩ v)).advance := by
  obtain ⟨g, hg, h⟩ := withEngine_next h
  obtain ⟨hk, h⟩ := withReg_next h
  split at h
  · cases h
  · next hb => injection h with h; exact ⟨g, hk, hg, by simpa using hb, h.symm⟩

theorem execRdval_next {e k} {s t : State} (h : execRdval e k s = .next t) :
    ∃ g v, ∃ hk : k < 8, s.engines[e]? = some g ∧ g.status.busy = false ∧ g.val ⟨k, hk⟩ = some v ∧
      t = (s.log (.val e k v)).advance := by
  obtain ⟨g, hg, h⟩ := withEngine_next h
  obtain ⟨hk, h⟩ := withReg_next h
  split at h
  · cases h
  · next hb =>
    split at h
    · cases h
    · next v hv => injection h with h; exact ⟨g, v, hk, hg, by simpa using hb, hv, h.symm⟩

theorem execRdstatus_next {e} {s t : State} (h : execRdstatus e s = .next t) :
    ∃ g, s.engines[e]? = some g ∧ t = (s.log (.status e g.status.word)).advance := by
  obtain ⟨g, hg, h⟩ := withEngine_next h
  injection h with h
  exact ⟨g, hg, h.symm⟩

theorem execWrbuf_next {a v} {s t : State} (h : execWrbuf a v s = .next t) :
    a < s.cfg.bufBytes ∧ writeHazard s a = false ∧ t = (s.setBuf (writeByte s.buf a v)).advance := by
  unfold execWrbuf at h
  split at h
  · cases h
  · next hin =>
    split at h
    · cases h
    · next hz => injection h with h; exact ⟨by omega, by simpa using hz, h.symm⟩

theorem execRdbuf_next {a} {s t : State} (h : execRdbuf a s = .next t) :
    ∃ v, a < s.cfg.bufBytes ∧ readHazard s a = false ∧ readByte s.buf a = some v ∧
      t = (s.log (.buf a v)).advance := by
  unfold execRdbuf at h
  split at h
  · cases h
  · next hin =>
    split at h
    · cases h
    · next hz =>
      split at h
      · cases h
      · next v hv => injection h with h; exact ⟨v, by omega, by simpa using hz, hv, h.symm⟩

theorem execWait_next {e} {s t : State} (h : execWait e s = .next t) :
    ∃ g, s.engines[e]? = some g ∧
      ((g.status.busy = true ∧ t = s) ∨ (g.status.busy = false ∧ t = s.advance)) := by
  obtain ⟨g, hg, h⟩ := withEngine_next h
  refine ⟨g, hg, ?_⟩
  split at h <;> injection h with h
  · next hb => exact .inl ⟨hb, h.symm⟩
  · next hb => exact .inr ⟨by simpa using hb, h.symm⟩

/-! ## The conflict checks (R47, R48) -/

theorem busyWith_iff {g : Engine} {p : Word → Bool} :
    g.busyWith p = true ↔ g.status.busy = true ∧ ∃ c, g.inflight = some c ∧ p c = true := by
  unfold Engine.busyWith
  cases g.inflight <;> simp

theorem writeHazard_iff {s : State} {a : Nat} : writeHazard s a = true ↔
    ∃ g ∈ s.engines, g.status.busy = true ∧ ∃ c, g.inflight = some c ∧ footHas c a = true := by
  simp [writeHazard, busyWith_iff]

theorem readHazard_iff {s : State} {a : Nat} : readHazard s a = true ↔
    ∃ g ∈ s.engines, g.status.busy = true ∧ ∃ c, g.inflight = some c ∧ (writeSpan c).has a = true := by
  simp [readHazard, busyWith_iff]

theorem overlaps_iff {s : State} {e : Nat} {c : Word} : overlaps s e c = true ↔
    ∃ e' g c', e' ≠ e ∧ s.engines[e']? = some g ∧ g.status.busy = true ∧ g.inflight = some c' ∧
      conflict c c' = true := by
  simp only [overlaps, List.any_eq_true, List.mem_range, Bool.and_eq_true, bne_iff_ne]
  constructor
  · rintro ⟨e', -, hne, h⟩
    split at h
    · next g hg =>
      obtain ⟨hb, c', hc, hp⟩ := busyWith_iff.mp h
      exact ⟨e', g, c', hne, hg, hb, hc, hp⟩
    · cases h
  · rintro ⟨e', g, c', hne, hg, hb, hc, hp⟩
    obtain ⟨hlt, -⟩ := List.getElem?_eq_some_iff.mp hg
    refine ⟨e', hlt, hne, ?_⟩
    rw [hg]
    exact busyWith_iff.mpr ⟨hb, c', hc, hp⟩

end Sys2Proof.Machine
end

