-- ==== Sys2Proof/Laws/PerInstr.lean ====
section
/-! SUPPORT. The family of statements made per instruction: the decoder reads back what the encoder writes. -/

namespace Sys2Proof.Laws.RoundTrip

/-- For every parameters, the well-formed instruction `i` decodes from its own encoding. -/
def Statement (i : Instr) : Prop := ∀ cfg : Config, i.wellFormed cfg = true → decode cfg (encode cfg i) = .ok i

theorem pack (e w s o b) : Statement (.pack e w s o b) := by
  intro cfg _
  simp [encode, decode, decodeCommand, reservedWord_single, cmdWord_op, cmdWord_width, cmdWord_slot,
    cmdWord_byteOff, cmdWord_bitOff]

theorem unpack (e w s o b) : Statement (.unpack e w s o b) := by
  intro cfg _
  simp [encode, decode, decodeCommand, reservedWord_single, cmdWord_op, cmdWord_width, cmdWord_slot,
    cmdWord_byteOff, cmdWord_bitOff]

theorem pack8 (e w o) : Statement (.pack8 e w o) := by
  intro cfg _
  simp [encode, decode, decodeCommand, reservedWord_block, cmdWord_op, cmdWord_width, cmdWord_byteOff]

theorem unpack8 (e w o) : Statement (.unpack8 e w o) := by
  intro cfg _
  simp [encode, decode, decodeCommand, reservedWord_block, cmdWord_op, cmdWord_width, cmdWord_byteOff]

theorem cmd (e c) : Statement (.cmd e c) := by
  intro cfg h
  have he : e < cfg.nEngines := by simpa [Instr.wellFormed] using h
  simp [encode, decode, assemble, decodeLine, decodeAccess, issueAccess, locate_regAddr he, regAt]

theorem wrval (e k v) : Statement (.wrval e k v) := by
  intro cfg h
  obtain ⟨he, hk⟩ : e < cfg.nEngines ∧ k < 8 := by simpa [Instr.wellFormed] using h
  simp [encode, decode, assemble, decodeLine, decodeAccess, locate_regAddr he (show 0x040 + 8 * k < 0x100 by omega), regAt_val hk]

theorem rdval (e k) : Statement (.rdval e k) := by
  intro cfg h
  obtain ⟨he, hk⟩ : e < cfg.nEngines ∧ k < 8 := by simpa [Instr.wellFormed] using h
  simp [encode, decode, assemble, decodeLine, decodeAccess, locate_regAddr he (show 0x040 + 8 * k < 0x100 by omega), regAt_val hk]

theorem rdstatus (e) : Statement (.rdstatus e) := by
  intro cfg h
  have he : e < cfg.nEngines := by simpa [Instr.wellFormed] using h
  simp [encode, decode, assemble, decodeLine, decodeAccess, locate_regAddr he, regAt]

theorem wrbuf (a v) : Statement (.wrbuf a v) := by
  intro cfg _
  simp [encode, decode, assemble, decodeLine, decodeAccess]

theorem rdbuf (a) : Statement (.rdbuf a) := by
  intro cfg _
  simp [encode, decode, assemble, decodeLine, decodeAccess]

theorem wait (e) : Statement (.wait e) := by
  intro cfg h
  have he : e < cfg.nEngines := by simpa [Instr.wellFormed] using h
  simp [encode, decode, assemble, decodeLine, decodeAccess, locate_regAddr he, regAt]

end Sys2Proof.Laws.RoundTrip
end

