-- ==== Sys2Proof/Laws/Step.lean ====
section
/-! SUPPORT. Which agents can move, and what a step of one, and a step of the system, can do. -/

namespace Sys2Proof.Machine

theorem engineEnabled_iff {s : State} {e : Nat} :
    engineEnabled s e = true ↔ ∃ g c, s.engines[e]? = some g ∧ g.inflight = some c := by
  unfold engineEnabled
  cases h : s.engines[e]? with
  | none => simp
  | some g => simp [Option.isSome_iff_exists]

theorem host_mem_enabled {s : State} : Agent.host ∈ enabledAgents s ↔ hostEnabled s = true := by
  simp [enabledAgents]

theorem engine_mem_enabled {s : State} {e : Nat} : Agent.engine e ∈ enabledAgents s ↔ engineEnabled s e = true := by
  constructor
  · intro h
    simp only [enabledAgents, List.mem_append, List.mem_map, List.mem_filter] at h
    rcases h with h | ⟨e', ⟨-, h⟩, heq⟩
    · split at h <;> simp at h
    · injection heq with heq; rwa [← heq]
  · intro h
    obtain ⟨g, c, hg, -⟩ := engineEnabled_iff.mp h
    obtain ⟨hlt, -⟩ := List.getElem?_eq_some_iff.mp hg
    exact List.mem_append_right _ (List.mem_map.mpr ⟨e, List.mem_filter.mpr ⟨List.mem_range.mpr hlt, h⟩, rfl⟩)

theorem freeChoice_mem (t : Nat) (a : Agent) (as : List Agent) : freeChoice t a as ∈ a :: as := by
  unfold freeChoice
  have h : Config.freeAgent t % (as.length + 1) < (a :: as).length := Nat.mod_lt _ (Nat.succ_pos _)
  rw [List.getD_eq_getElem _ _ h]
  exact List.getElem_mem h

/-- The agent that moves is one that can. -/
theorem pickAgent_mem {s : State} {l : List Agent} {a : Agent} (h : pickAgent s l = some a) : a ∈ l := by
  unfold pickAgent at h
  split at h
  · cases h
  · simpa [eq_comm] using h
  · next x y hne =>
    split at h
    · rw [← Option.some.inj h]; exact freeChoice_mem _ _ _
    · next z _ _ =>
      split at h
      · next hz => rw [← Option.some.inj h]; simpa using hz
      · rw [← Option.some.inj h]; exact freeChoice_mem _ _ _

theorem pickAgent_none {s : State} {l : List Agent} : pickAgent s l = none ↔ l = [] := by
  constructor
  · intro h
    unfold pickAgent at h
    repeat' split at h
    all_goals first | rfl | cases h
  · rintro rfl; rfl

/-- The agent `sched` names moves next, when it can. -/
theorem pickAgent_sched {s : State} {l : List Agent} {a : Agent} {r : List Agent} (hs : s.sched = a :: r)
    (h : a ∈ l) : pickAgent s l = some a := by
  match l, h with
  | [x], h => simp only [List.mem_singleton] at h; rw [pickAgent, h]
  | x :: y :: l, h =>
    have : (x :: y :: l).contains a = true := by simpa using h
    simp only [pickAgent, hs, this, if_true]

theorem nextAgent_mem {s : State} {a : Agent} (h : nextAgent s = some a) : a ∈ enabledAgents s := pickAgent_mem h

theorem nextAgent_none {s : State} : nextAgent s = none ↔ enabledAgents s = [] := pickAgent_none

/-- What a step of one agent can do: rest with nothing to fetch, or execute what it decodes. -/
theorem stepAs_next {a : Agent} {s t : State} (h : stepAs a s = .next t) :
    (fetch s a = none ∧ t = s) ∨
    (∃ code i, fetch s a = some code ∧ decode s.cfg code = .ok i ∧ exec i s = .next t) := by
  unfold stepAs at h
  split at h
  · next hf => injection h with h; exact .inl ⟨hf, h.symm⟩
  · next code hf =>
    split at h
    · cases h
    · next i hd => exact .inr ⟨code, i, hf, hd, h⟩

/-- What a step of the system can do: rest when no agent can move, or be the step of one that can. -/
theorem step_next {s t : State} (h : step s = .next t) :
    (enabledAgents s = [] ∧ t = s) ∨ (∃ a ∈ enabledAgents s, nextAgent s = some a ∧ stepAs a s.tick = .next t) := by
  unfold step at h
  split at h
  · next hn => injection h with h; exact .inl ⟨nextAgent_none.mp hn, h.symm⟩
  · next a ha => exact .inr ⟨a, nextAgent_mem ha, ha, h⟩

/-- What an engine fetches decodes to one of the four commands, its own (R99). -/
theorem decodeCommand_ok {e : Nat} {c : Word} {i : Instr} (h : decodeCommand e c = .ok i) :
    reservedWord c = false ∧
    ((∃ w k o b, i = .pack e w k o b) ∨ (∃ w k o b, i = .unpack e w k o b) ∨
     (∃ w o, i = .pack8 e w o) ∨ (∃ w o, i = .unpack8 e w o)) := by
  unfold decodeCommand at h
  split at h
  · cases h
  · next hr =>
    refine ⟨by simpa using hr, ?_⟩
    repeat' split at h
    all_goals injection h with h; subst h
    · exact .inl ⟨_, _, _, _, rfl⟩
    · exact .inr (.inl ⟨_, _, _, _, rfl⟩)
    · exact .inr (.inr (.inl ⟨_, _, rfl⟩))
    · exact .inr (.inr (.inr ⟨_, _, rfl⟩))

end Sys2Proof.Machine
end

