-- ==== Sys2Proof/Laws/Stream.lean ====
section
/-! SUPPORT. The stream view of the buffer (R12, R14) beside the window view (R71): a bit and a field of the stream, read from the window of the bytes that hold them. -/

namespace Sys2Proof.Machine

/-- A byte of a window (R65, R71). -/
theorem byte_of_window {bs : List Byte} {j : Nat} (h : j < bs.length) :
    (bs[j]).toNat = (joinBytes bs >>> (8 * (bs.length - 1 - j))) % 256 := by
  have h1 := splitBytes_get bs.length (joinBytes bs) j (by simpa using h)
  have h2 : (splitBytes bs.length (joinBytes bs))[j]'(by simpa using h) = bs[j] := by
    simp only [splitBytes_joinBytes]
  rw [← h2, h1, BitVec.toNat_ofNat]

/-- A bit of the stream is a bit of the window of the bytes around it (R12). -/
theorem streamBit_window {m : List Host.Cell} {a n p : Nat} {bs : List Byte} (h : readBytes m a n = some bs)
    (h1 : 8 * a ≤ p) (h2 : p < 8 * (a + n)) :
    streamBit m p = some ((joinBytes bs >>> (8 * (a + n) - p - 1)) % 2) := by
  obtain ⟨hl, hr⟩ := readBytes_eq_some.mp h
  have hj : p / 8 - a < bs.length := by omega
  have hb := hr (p / 8 - a) hj
  rw [show a + (p / 8 - a) = p / 8 by omega] at hb
  simp only [streamBit, hb, Option.some.injEq]
  rw [Nat.and_one_is_mod, byte_of_window hj]
  have e : 8 * (a + n) - p - 1 = 8 * (bs.length - 1 - (p / 8 - a)) + (7 - p % 8) := by omega
  rw [e, Nat.shiftRight_add]
  generalize joinBytes bs >>> (8 * (bs.length - 1 - (p / 8 - a))) = y
  rw [Nat.shiftRight_eq_div_pow, Nat.shiftRight_eq_div_pow]
  have hk : p % 8 < 8 := Nat.mod_lt _ (by decide)
  have hc : p % 8 = 0 ∨ p % 8 = 1 ∨ p % 8 = 2 ∨ p % 8 = 3 ∨ p % 8 = 4 ∨ p % 8 = 5 ∨ p % 8 = 6 ∨ p % 8 = 7 := by omega
  rcases hc with hc | hc | hc | hc | hc | hc | hc | hc <;> rw [hc] <;> norm_num <;> omega

/-- A field of the stream is a slice of the window of the bytes around it (R14, R71). -/
theorem streamField_window {m : List Host.Cell} {a n p w : Nat} {bs : List Byte} (h : readBytes m a n = some bs)
    (h1 : 8 * a ≤ p) (h2 : p + w ≤ 8 * (a + n)) :
    streamField m p w = some ((joinBytes bs >>> (8 * (a + n) - p - w)) % 2 ^ w) := by
  induction w generalizing p with
  | zero => simp [streamField, Nat.mod_one]
  | succ w ih =>
    rw [streamField, streamBit_window h h1 (by omega), ih (p := p + 1) (by omega) (by omega)]
    simp only [Option.some.injEq]
    have e1 : 8 * (a + n) - p - 1 = (8 * (a + n) - p - (w + 1)) + w := by omega
    have e2 : 8 * (a + n) - (p + 1) - w = 8 * (a + n) - p - (w + 1) := by omega
    rw [e1, e2, Nat.shiftRight_add, Nat.shiftLeft_eq, Nat.shiftRight_eq_div_pow _ w, Nat.mod_pow_succ]
    ring

end Sys2Proof.Machine
end

