-- ==== Sys2Proof/Tests/Slice0.lean ====
section
/-! SUPPORT. Tests: ill-formed terms the check refuses; each constructor decoded from a word or a bus access written out from the spec's encoding; one-step vectors of 95_test_vectors.md; and, for every statement with hypotheses, a state and operands that meet them. -/

namespace Sys2Proof.Tests

open Sys2Proof Sys2Proof.Machine Sys2Proof.Claims

/-! ## Small states and what a step left -/

/-- `VAL[0][k] = v` and the given buffer, one idle engine, `BUF_BYTES = 64` (the setting of 95_test_vectors.md). -/
def oneValue (k : Fin 8) (v : Word) (buf : List Host.Cell) : State :=
  { State.launch Config.standard buf [] [] with engines := [Engine.reset.setVal k v] }

/-- `VAL[0][0..7]` set to the naturals of a list. -/
def eightValues (vs : List Nat) (buf : List Host.Cell) : State :=
  { State.launch Config.standard buf [] [] with engines := [Engine.reset.setLanes (fun k => vs.getD k 0)] }

/-- An engine whose registers hold 0 to 7 and whose command in flight is `c`. -/
def busyEngine (c : Word) : Engine := (Engine.reset.setLanes id).issue c

/-- One engine, busy with `c`. -/
def busy (c : Word) (buf : List Host.Cell) : State :=
  { State.launch Config.standard buf [] [] with engines := [busyEngine c] }

/-- Two engines, engine 0 busy with a PACK8 of width 3 at 0. -/
def pair (g1 : Engine) : State :=
  { State.launch { nEngines := 2, bufBytes := 64, regBase := 0x1000 } [] [] [] with
    engines := [busyEngine 0x302#64, g1] }

/-- The §8 bytes (95_test_vectors.md 1.1). -/
def scenario : List Host.Cell := [(0, 0x05#8), (1, 0x39#8), (2, 0x77#8)]

/-- The launch state whose program is one bus access. -/
def action (x : Access) : State := State.launch Config.standard [] [.access x] []

/-- Two engines at launch, and a program of one line. -/
def lineState (i : Instr) : State :=
  State.launch { nEngines := 2, bufBytes := 64, regBase := 0x1000 } [] [.action i] []

/-- The next state, where there is one. -/
def after : Host.Outcome State Fault Refusal → Option State
  | .next t => some t
  | _ => none

/-- The buffer of the next state. -/
def bufAfter (r : Host.Outcome State Fault Refusal) : Option (List Host.Cell) := (after r).map State.buf

/-- `VAL[0][k]` of the next state. -/
def valAfter (r : Host.Outcome State Fault Refusal) (k : Fin 8) : Option Word :=
  (after r).bind fun t => (t.engines[0]?).bind fun g => g.val k

/-- `STATUS[0]` of the next state. -/
def statusAfter (r : Host.Outcome State Fault Refusal) : Option Word :=
  (after r).bind fun t => (t.engines[0]?).map fun g => g.status.word

/-- The read log of the next state. -/
def logAfter (r : Host.Outcome State Fault Refusal) : Option (List LogEntry) := (after r).map State.readLog

/-- The fault a step ends in. -/
def faultAfter : Host.Outcome State Fault Refusal → Option Fault
  | .fault r => some r
  | _ => none

/-- The refusal a step ends in. -/
def refusalAfter : Host.Outcome State Fault Refusal → Option Refusal
  | .refused r => some r
  | _ => none

theorem next_of_after {r : Host.Outcome State Fault Refusal} (h : (after r).isSome = true) : ∃ t, r = .next t := by
  cases r with
  | next t => exact ⟨t, rfl⟩
  | fault => cases h
  | refused => cases h

theorem next_with_of_after {r : Host.Outcome State Fault Refusal} (p : State → Bool)
    (h : (after r).map p = some true) : ∃ t, r = .next t ∧ p t = true := by
  cases r with
  | next t => exact ⟨t, rfl, Option.some.inj h⟩
  | fault => cases h
  | refused => cases h

theorem eq_next_getD {r : Host.Outcome State Fault Refusal} (d : State) (h : (after r).isSome = true) :
    r = .next ((after r).getD d) := by
  obtain ⟨t, rfl⟩ := next_of_after h
  rfl

/-! ## Ill-formed terms -/

/-- R105: `e ≥ N_ENGINES`, one term per instruction that names an engine, with `N_ENGINES = 1`. -/
theorem test_illformed_engine :
    [Instr.pack 1 3 0 0 0, .unpack 1 3 0 0 0, .pack8 1 3 0, .unpack8 1 3 0, .cmd 1 0, .wrval 1 0 0, .rdval 1 0,
      .rdstatus 1, .wait 1].all (fun i => !i.wellFormed Config.standard) = true := by decide

/-- R92, R105: `k > 7`. -/
theorem test_illformed_register :
    (Instr.wrval 0 8 0).wellFormed Config.standard = false ∧ (Instr.rdval 0 8).wellFormed Config.standard = false := by
  decide

/-- R105: a line `WRVAL 0, 24, v` is refused in a run, although `0x040 + 8*24` is the window offset 0x100, engine 1's
CMD; so are the first missing register and the first missing engine. -/
theorem test_illformed_lines_refused :
    [Instr.wrval 0 24 0x302, .wrval 0 8 0, .rdval 1 8, .cmd 2 0x302, .pack8 2 3 0, .wait 2].all
      (fun i => refusalAfter (step (lineState i)) == some .unmapped) = true := by decide

/-- R61: a line that names a command issues its word, and `WRVAL 1, 7, 5` is engine 1's register 7. -/
theorem test_lines_are_actions :
    decodeLine (lineState (.wait 0)).cfg (.action (.pack8 1 3 0)) = .ok (.cmd 1 0x302) ∧
    decodeLine (lineState (.wait 0)).cfg (.action (.wrval 1 7 5)) = .ok (.wrval 1 7 5) := by decide

/-- R92: the largest operands that are well formed. -/
theorem test_wellformed_bounds :
    [Instr.pack 0 255 7 0xFFFFFFFF 7, .wrval 0 7 0, .rdval 0 7, .wait 0, .wrbuf 64 0, .rdbuf 0].all
      (fun i => i.wellFormed Config.standard) = true := by decide

/-! ## Decoding -/

/-- R63: `PACK 0, 13, 2, 5, 3`. Bits: BYTEOFF 5, reserved 0, WIDTH 00001101, SLOT 010, BITOFF 011, OP 00. -/
theorem test_decode_pack :
    decodeCommand 0 0b0000000000000000000000000000010100000000000000000000110101001100#64 =
      .ok (.pack 0 13 2 5 3) := by decide

/-- R63: `UNPACK 0, 13, 7, 5, 3`. Bits: BYTEOFF 5, reserved 0, WIDTH 00001101, SLOT 111, BITOFF 011, OP 01. -/
theorem test_decode_unpack :
    decodeCommand 0 0b0000000000000000000000000000010100000000000000000000110111101101#64 =
      .ok (.unpack 0 13 7 5 3) := by decide

/-- R63: `PACK8 0, 64, 16`. Bits: BYTEOFF 16, reserved 0, WIDTH 01000000, zeros, OP 10. -/
theorem test_decode_pack8 :
    decodeCommand 0 0b0000000000000000000000000001000000000000000000000100000000000010#64 =
      .ok (.pack8 0 64 16) := by decide

/-- R63: `UNPACK8 0, 3, 0`. Bits: BYTEOFF 0, reserved 0, WIDTH 00000011, zeros, OP 11. -/
theorem test_decode_unpack8 :
    decodeCommand 0 0b0000000000000000000000000000000000000000000000000000001100000011#64 =
      .ok (.unpack8 0 3 0) := by decide

/-- 95 E4: SLOT 7 and BITOFF 7 of a PACK are not reserved; E5: the word 0 is a PACK of width 0. -/
theorem test_decode_unreserved :
    decodeCommand 0 0x3FC#64 = .ok (.pack 0 3 7 0 7) ∧ decodeCommand 0 0x0#64 = .ok (.pack 0 0 0 0 0) := by decide

/-- 95 E1 to E3 and R63: reserved bit 16, PACK8 with BITOFF 1, UNPACK8 with SLOT 1, PACK8 with SLOT 1. -/
theorem test_decode_reserved :
    decodeCommand 0 0x10000#64 = .error .reservedField ∧ decodeCommand 0 0x306#64 = .error .reservedField ∧
    decodeCommand 0 0x323#64 = .error .reservedField ∧ decodeCommand 0 0x322#64 = .error .reservedField ∧
    decodeCommand 0 0x80000000#64 = .error .reservedField := by decide

/-- A platform with two engines at `REG_BASE = 0x1000`: engine 1's window begins at 0x1100 (R19). -/
def twoAt1000 : Config := { nEngines := 2, bufBytes := 64, regBase := 0x1000 }

/-- R97: CMD is at window offset 0x000. -/
theorem test_decode_cmd : decodeAccess twoAt1000 (.regWrite 8 0x1100 0x302) = .ok (.cmd 1 0x302) := by decide

/-- R92: `VAL[k]` is at 0x040 + 8k; 0x1178 is `VAL[1][7]`. -/
theorem test_decode_wrval : decodeAccess twoAt1000 (.regWrite 8 0x1178 5) = .ok (.wrval 1 7 5) := by decide

/-- R93. -/
theorem test_decode_rdval : decodeAccess twoAt1000 (.regRead 8 0x1050) = .ok (.rdval 0 2) := by decide

/-- R94: STATUS is at 0x008. -/
theorem test_decode_rdstatus : decodeAccess twoAt1000 (.regRead 8 0x1108) = .ok (.rdstatus 1) := by decide

/-- R95. -/
theorem test_decode_wrbuf : decodeAccess twoAt1000 (.bufWrite 1 5 0xA0) = .ok (.wrbuf 5 0xA0) := by decide

/-- R96. -/
theorem test_decode_rdbuf : decodeAccess twoAt1000 (.bufRead 1 64) = .ok (.rdbuf 64) := by decide

/-- R98. -/
theorem test_decode_wait : decodeAccess twoAt1000 (.regPoll 0x1008) = .ok (.wait 0) := by decide

/-- R19, R53, R105: a read of CMD, a write of STATUS, reserved and misaligned offsets, a third engine, and the
address below the first window. -/
theorem test_decode_unmapped :
    [Access.regRead 8 0x1000, .regWrite 8 0x1008 0, .regRead 8 0x1010, .regRead 8 0x1080, .regRead 8 0x1044,
      .regWrite 8 0x1200 0, .regRead 8 0xFF8, .regWrite 4 0x1100 0, .bufRead 8 0, .bufWrite 2 0 0].all
      (fun x => decodeAccess twoAt1000 x == .error .unmapped) = true := by decide

/-- The opcode table's rows, by their bits: the commands, CMD, WRVAL with k = 7, RDSTATUS. -/
theorem test_decode_table_rows :
    decodeTableWord 32 0x0 = some (.pack 0 0 0 0 0) ∧ decodeTableWord 32 0x1 = some (.unpack 0 0 0 0 0) ∧
    decodeTableWord 32 0x2 = some (.pack8 0 0 0) ∧ decodeTableWord 32 0x3 = some (.unpack8 0 0 0) ∧
    decodeTableWord 8 0x00 = some (.cmd 0 0) ∧ decodeTableWord 8 0x78 = some (.wrval 0 7 0) ∧
    decodeTableWord 8 0x08 = some (.rdstatus 0) ∧ decodeTableWord 8 0x10 = none := by decide

/-! ## One step of each instruction -/

/-- 95 S4, S5, S9: a carry into a second byte, a field inside one byte, and R66's example. -/
theorem test_pack_vectors :
    bufAfter (exec (.pack 0 8 0 0 4) (oneValue 0 0xAB [(0, 0x90), (1, 0xFF)])) = some [(0, 0x9A), (1, 0xB0)] ∧
    bufAfter (exec (.pack 0 3 0 0 2) (oneValue 0 5 [(0, 0xC3)])) = some [(0, 0xEB)] ∧
    bufAfter (exec (.pack 0 13 2 5 3) (oneValue 2 0x1ABC [(5, 0xA0)])) = some [(5, 0xBA), (6, 0xBC)] := by decide

/-- 95 S11: the nine-byte footprint of the widest value. -/
theorem test_pack_widest :
    bufAfter (exec (.pack 0 63 0 0 7) (oneValue 0 0x7FFFFFFFFFFFFFFF [(0, 0x80)])) =
      some [(0, 0x81), (1, 0xFF), (2, 0xFF), (3, 0xFF), (4, 0xFF), (5, 0xFF), (6, 0xFF), (7, 0xFF), (8, 0xFC)] := by
  decide

/-- 95 U3, U5: a field across a byte boundary, and a last bit after the field that is ignored. -/
theorem test_unpack_vectors :
    valAfter (exec (.unpack 0 9 0 0 7) (oneValue 1 0 [(0, 0x01), (1, 0xFF)])) 0 = some 0x1FF ∧
    valAfter (exec (.unpack 0 63 0 0 0) (oneValue 1 0
      [(0, 0x80), (1, 0), (2, 0), (3, 0), (4, 0), (5, 0), (6, 0), (7, 1)])) 0 = some 0x4000000000000000 := by decide

/-- 95 F12, F13, F14: unwritten, bounds before unwritten, width. -/
theorem test_unpack_faults :
    faultAfter (exec (.unpack 0 12 0 0 0) (oneValue 0 0 [(0, 0x01)])) = some .unwritten ∧
    faultAfter (exec (.unpack 0 12 0 63 0) State.reset) = some .outOfBounds ∧
    faultAfter (exec (.unpack 0 64 0 0 0) State.reset) = some .undefWidth := by decide

/-- 95 B3, with `B[5] = 5A` kept. -/
theorem test_pack8_vector :
    bufAfter (exec (.pack8 0 5 0) (eightValues [0x1F, 0, 1, 2, 4, 8, 0x10, 0x1F] [(5, 0x5A)])) =
      some [(0, 0xF8), (1, 0x02), (2, 0x22), (3, 0x22), (4, 0x1F), (5, 0x5A)] := by decide

/-- 95 B12 and B15: an invalid width is reported before bounds and unwritten; a legal width faults. -/
theorem test_pack8_width_first :
    statusAfter (exec (.pack8 0 64 0xFFFFFFFF) State.reset) = some 0x4002 ∧
    faultAfter (exec (.pack8 0 3 0) State.reset) = some .unwritten := by decide

/-- 95 1.1: the §8 bytes give lanes 6 and 7. -/
theorem test_unpack8_scenario :
    valAfter (exec (.unpack8 0 3 0) (oneValue 0 0 scenario)) 6 = some 6 ∧
    valAfter (exec (.unpack8 0 3 0) (oneValue 0 0 scenario)) 7 = some 7 := by decide

/-- 95 B11: the STATUS an UNPACK8 of width 255 leaves; B16: an unwritten third byte. -/
theorem test_unpack8_stops :
    statusAfter (exec (.unpack8 0 255 0) State.reset) = some 0xFF02 ∧
    faultAfter (exec (.unpack8 0 3 0) (oneValue 0 0 [(0, 0x05), (1, 0x39)])) = some .unwritten := by decide

/-- R97's example: issuing `0x302` makes engine 0 busy. -/
theorem test_cmd_issues : statusAfter (exec (.cmd 0 0x302) State.reset) = some 1 := by decide

/-- R97's order: a busy engine is a hazard before the word is seen to be reserved; R48: engine 1's PACK8 at 2
shares byte 2 with engine 0's. -/
theorem test_cmd_stops :
    faultAfter (exec (.cmd 0 0x10000) (busy 0x302 [])) = some .hazard ∧
    refusalAfter (exec (.cmd 0 0x10000) State.reset) = some .reservedField ∧
    faultAfter (exec (.cmd 1 0x200000302) (pair Engine.reset)) = some .overlap ∧
    (after (exec (.cmd 1 0x300000302) (pair Engine.reset))).isSome = true := by decide

/-- 95 H1: the write. -/
theorem test_wrval_sets : valAfter (exec (.wrval 0 2 0x1ABC) State.reset) 2 = some 0x1ABC := by decide

/-- 95 H8: the engine still busy. -/
theorem test_wrval_hazard : faultAfter (exec (.wrval 0 0 1) (busy 0x302 [])) = some .hazard := by decide

/-- 95 H1: the read. -/
theorem test_rdval_logs :
    logAfter (exec (.rdval 0 2) (oneValue 2 0x1ABC [])) = some [.val 0 2 0x1ABC] := by decide

/-- 95 H2. -/
theorem test_rdval_unwritten : faultAfter (exec (.rdval 0 0) State.reset) = some .unwritten := by decide

/-- 95 H3 and H7: at launch, and with a command in flight. -/
theorem test_rdstatus_logs :
    logAfter (exec (.rdstatus 0) State.reset) = some [.status 0 0] ∧
    logAfter (exec (.rdstatus 0) (busy 0x302 [])) = some [.status 0 1] := by decide

/-- R94's example: ERRCODE 1 and ERRVAL 64 read as 0x4002. -/
theorem test_rdstatus_error :
    ({ busy := false, errCode := 1, errVal := 64 } : Status).word = 0x4002 := by decide

/-- 95 H4; R95's example. -/
theorem test_wrbuf :
    faultAfter (exec (.wrbuf 64 0) State.reset) = some .outOfBounds ∧
    bufAfter (exec (.wrbuf 5 0xA0) State.reset) = some [(5, 0xA0)] := by decide

/-- 95 H10: byte 1 is read by the UNPACK8 in flight. -/
theorem test_wrbuf_hazard : faultAfter (exec (.wrbuf 1 0) (busy 0x303 scenario)) = some .hazard := by decide

/-- 95 H9: byte 1 is only read by the UNPACK8 in flight. -/
theorem test_rdbuf_shared_read :
    logAfter (exec (.rdbuf 1) (busy 0x303 scenario)) = some [.buf 1 0x39] := by decide

/-- 95 H5; and a byte a PACK8 in flight writes is a hazard (R96). -/
theorem test_rdbuf_stops :
    faultAfter (exec (.rdbuf 3) State.reset) = some .unwritten ∧
    faultAfter (exec (.rdbuf 2) (busy 0x302 [])) = some .hazard := by decide

/-- 95 H6: one step, and nothing else changes. -/
theorem test_wait_idle : after (exec (.wait 0) State.reset) = some State.reset.advance := by decide

/-- R98: a WAIT on a busy engine leaves the host no step. -/
theorem test_wait_holds :
    enabledAgents { busy 0x302 [] with prog := [.access (.regPoll 0x008)] } = [.engine 0] := by decide

/-! ## The schedule -/

/-- R86, the row of w = 5: start byte, start bit, span and shift of every lane, and the shared pairs of w = 1, 4, 5. -/
theorem test_lane_schedule_row :
    (List.range 8).map (fun k => (laneByte 5 k, laneBit 5 k, laneSpan 5 k, laneShift 5 k)) =
      [(0, 0, 1, 3), (0, 5, 2, 6), (1, 2, 1, 1), (1, 7, 2, 4), (2, 4, 2, 7), (3, 1, 1, 2), (3, 6, 2, 5), (4, 3, 1, 0)] ∧
    sharedPairs 1 = 7 ∧ sharedPairs 4 = 4 ∧ sharedPairs 5 = 7 := by decide

/-! ## The statements' hypotheses are met

One theorem per statement with hypotheses, named after it: a state and operands that meet them, for each clause. -/

/-- The engine of `oneValue`. -/
def gOne (k : Fin 8) (v : Word) : Engine := Engine.reset.setVal k v

/-- The engine of `eightValues`. -/
def gEight (vs : List Nat) : Engine := Engine.reset.setLanes (fun k => vs.getD k 0)

/-- The values 0 to 7. -/
def upTo7 : List Nat := [0, 1, 2, 3, 4, 5, 6, 7]

/-- The state of R66's example. -/
def sPack : State := oneValue 2 0x1ABC [(5, 0xA0)]

theorem legal_three : Legal 3#8 := by unfold Legal; decide

theorem legal_top : Legal 63#8 := by unfold Legal; decide

theorem not_legal_bounds : ¬ Legal 0#8 ∧ ¬ Legal 64#8 := by unfold Legal; decide

theorem test_witness_DecodeOfEncodeIsTheInstruction :
    (Instr.pack 0 255 7 0xFFFFFFFF 7).wellFormed Config.standard = true ∧
    (Instr.wait 0).wellFormed Config.standard = true := by decide

theorem test_witness_EncodeOfDecodedWordIsTheWord :
    decodeAccess twoAt1000 (.regWrite 8 0x1178 5) = .ok (.wrval 1 7 5) ∧
    decodeCommand 0 0x0000000500000D4C#64 = .ok (.pack 0 13 2 5 3) ∧
    decodeCommand 0 0x3F02#64 = .ok (.pack8 0 63 0) := by decide

theorem test_witness_EveryUnreservedWordDecodesByItsFields :
    [0xFFFFFFFF0000FFFC#64, 0xFFFFFFFF0000FFFD#64, 0xFFFFFFFF0000FF02#64, 0x3#64].all
      (fun c => reservedWord c == false) = true ∧
    [0xFFFFFFFF0000FFFC#64, 0xFFFFFFFF0000FFFD#64, 0xFFFFFFFF0000FF02#64, 0x3#64].map (fun c => c.toNat % 4) =
      [0, 1, 2, 3] := by decide

theorem test_witness_ReservedWordsAreRefusedAtIssue :
    State.reset.engines[0]? = some Engine.reset ∧ Engine.reset.status.busy = false ∧
    reservedWord 0x10000#64 = true ∧ reservedWord 0x82#64 = true := by decide

theorem test_witness_HostLineOfACommandReachesItsEngine :
    let i : Instr := .pack8 0 3 0
    let s := { State.reset with prog := [.action i] }
    IsCommandOf 0 i ∧ i.wellFormed s.cfg = true ∧ s.engines[0]? = some Engine.reset ∧
    Engine.reset.status.busy = false ∧ (∀ c, encode s.cfg i = .command 0 c → overlaps s 0 c = false) ∧
    s.prog[s.hpc]? = some (.action i) := by
  refine ⟨.inr (.inr (.inl ⟨_, _, rfl⟩)), by decide, by decide, by decide, ?_, by decide⟩
  intro c hc
  injection hc with _ hc
  subst hc
  decide

theorem test_witness_HostLinesAreTheActionsTheyName :
    (Instr.pack 0 63 7 5 3).wellFormed Config.standard = true ∧
    encode Config.standard (.pack8 0 3 0) = .command 0 0x302 ∧ (Instr.pack8 0 3 0).wellFormed Config.standard = true ∧
    encode Config.standard (.rdval 0 7) = .line (.access (.regRead 8 0x078)) ∧
    (Instr.rdval 0 7).wellFormed Config.standard = true := by decide

/-- A 4-byte access, a misaligned one, the first misaligned offset of all, and 2-byte buffer accesses. -/
theorem test_witness_HostAccessWidthsAndAlignment :
    ((4 ≠ 8) ∧ (action (.regWrite 4 0x40 0)).prog[(action (.regWrite 4 0x40 0)).hpc]? = some (.access (.regWrite 4 0x40 0))) ∧
    (Config.standard.regBase ≤ 1 ∧ (1 - Config.standard.regBase) % 8 ≠ 0 ∧
      (action (.regRead 8 1)).prog[(action (.regRead 8 1)).hpc]? = some (.access (.regRead 8 1))) ∧
    ((2 ≠ 1) ∧ (action (.bufWrite 2 0 0)).prog[(action (.bufWrite 2 0 0)).hpc]? = some (.access (.bufWrite 2 0 0)) ∧
      (action (.bufRead 0 0)).prog[(action (.bufRead 0 0)).hpc]? = some (.access (.bufRead 0 0))) := by decide

/-- A read of CMD, a write of STATUS, and the reserved offsets beside the registers: 0x010, 0x038,
0x080, 0x0F8; polls of CMD and of the STATUS an engine 1 would have. -/
theorem test_witness_UndefinedRegisterAccessesAreRefused :
    (0 < Config.standard.nEngines) ∧
    (action (.regRead 8 0x000)).prog[(action (.regRead 8 0x000)).hpc]? = some (.access (.regRead 8 (0 + 0x100 * 0))) ∧
    (action (.regWrite 8 0x008 7)).prog[(action (.regWrite 8 0x008 7)).hpc]? =
      some (.access (.regWrite 8 (0 + 0x100 * 0 + 0x008) 7)) ∧
    [0x010, 0x038, 0x080, 0x0F8].all (fun off =>
      decide (off < 0x100 ∧ off ≠ 0x000 ∧ off ≠ 0x008) && (List.range 8).all (fun k => off != 0x040 + 8 * k) &&
        (action (.regRead 8 off)).prog[(action (.regRead 8 off)).hpc]? == some (.access (.regRead 8 (0 + 0x100 * 0 + off)))) =
      true ∧
    (∀ e, e < Config.standard.nEngines → 0x000 ≠ Config.standard.regBase + 0x100 * e + 0x008) ∧
    (∀ e, e < Config.standard.nEngines → 0x108 ≠ Config.standard.regBase + 0x100 * e + 0x008) ∧
    (action (.regPoll 0x108)).prog[(action (.regPoll 0x108)).hpc]? = some (.access (.regPoll 0x108)) := by decide

/-- Engine 2 of two; register 8; the first address past the last window; the last one below the first. -/
theorem test_witness_MissingEngineOrRegisterIsRefused :
    let s := lineState (.wait 2)
    (s.cfg.nEngines ≤ 2 ∧ s.engines.length ≤ 2 ∧ s.prog[s.hpc]? = some (.action (.wait 2))) ∧
    (8 ≤ 8 ∧ (lineState (.wrval 0 8 0)).prog[(lineState (.wrval 0 8 0)).hpc]? = some (.action (.wrval 0 8 0))) ∧
    0x1200 = s.cfg.regBase + 0x100 * 2 + 0x000 ∧ 0xFFF < s.cfg.regBase ∧
    { s with prog := [.access (.regRead 8 0xFFF)] }.prog[s.hpc]? = some (.access (.regRead 8 0xFFF)) := by decide

theorem test_witness_ResetLeavesTheStatedValues :
    (State.launch { nEngines := 2, bufBytes := 64, regBase := 0 } scenario [] []).engines[1]? =
      some Engine.reset := by decide

theorem test_witness_EveryLaunchStateMeetsTheInvariant : IsLaunch State.reset where
  valid := by decide
  engines := rfl
  canonical := rfl
  inside := by intro c hc; cases hc
  hpc := rfl
  log := rfl

/-- The state of two engines both busy, with PACK8s of neighbouring blocks, meets the invariant. -/
theorem test_witness_inv_pair : Inv (pair (busyEngine 0x300000302#64)) where
  count := rfl
  canonical := rfl
  inside := by intro c hc; cases hc
  hpc := by decide
  engine := by
    intro g hg
    simp only [pair, List.mem_cons, List.not_mem_nil, or_false] at hg
    rcases hg with rfl | rfl
    · exact ⟨rfl, .inl ⟨rfl, rfl⟩, by rintro c hc; cases hc; decide⟩
    · exact ⟨rfl, .inl ⟨rfl, rfl⟩, by rintro c hc; cases hc; decide⟩
  race := by
    intro e e' g g' c c' hne hg hg' hc hc'
    have h : e < 2 := (List.getElem?_eq_some_iff.mp hg).1
    have h' : e' < 2 := (List.getElem?_eq_some_iff.mp hg').1
    interval_cases e <;> interval_cases e'
    · exact absurd rfl hne
    · cases hg; cases hg'; cases hc; cases hc'; decide
    · cases hg; cases hg'; cases hc; cases hc'; decide
    · exact absurd rfl hne

theorem test_witness_EveryStepKeepsTheInvariant :
    Inv (pair (busyEngine 0x300000302#64)) ∧
    ∃ t, Sys2Proof.Machine.step { pair (busyEngine 0x300000302#64) with sched := [.engine 1] } = .next t :=
  ⟨test_witness_inv_pair, next_of_after (by decide)⟩

theorem test_witness_StepKeepsParametersAndProgram :
    ∃ t, Sys2Proof.Machine.step (action (.regRead 8 0x008)) = .next t := next_of_after (by decide)

theorem test_witness_WrittenStaysWritten :
    (∃ t, Sys2Proof.Machine.step (busy 0x303 scenario) = .next t) ∧ readByte (busy 0x303 scenario).buf 2 ≠ none ∧
    (busy 0x303 scenario).engines[0]? = some (busyEngine 0x303) ∧ (busyEngine 0x303).val 7 ≠ none :=
  ⟨next_of_after (by decide), by decide, by decide, by decide⟩

/-- R66's example, and the last bit of the buffer (95 F8). -/
theorem test_witness_PackStoresTheImage :
    (sPack.engines[0]? = some (gOne 2 0x1ABC) ∧ Legal 13#8 ∧ (gOne 2 0x1ABC).val 2 = some 0x1ABC ∧
      (0x1ABC#64).toNat < 2 ^ (13#8).toNat ∧ (5#32).toNat + spanned 3 13 - 1 < sPack.cfg.bufBytes ∧
      readByte sPack.buf (5#32).toNat = some 0xA0) ∧
    (Legal 1#8 ∧ (63#32).toNat + spanned 7 1 - 1 < sPack.cfg.bufBytes ∧
      readByte (oneValue 0 1 [(63, 0)]).buf (63#32).toNat = some 0) := by
  unfold Legal spanned
  decide

theorem test_witness_PackLeavesTheOtherBits :
    sPack.engines[0]? = some (gOne 2 0x1ABC) ∧ (gOne 2 0x1ABC).val 2 = some 0x1ABC ∧
    (∃ t, exec (.pack 0 13 2 5 3) sPack = .next t) ∧
    (oneValue 0 5 [(0, 0xC3)]).engines[0]? = some (gOne 0 5) ∧ (gOne 0 5).val 0 = some 5 ∧
    (∃ t, exec (.pack 0 3 0 0 2) (oneValue 0 5 [(0, 0xC3)]) = .next t) ∧
    ∃ t, exec (.pack 0 3 0 0 0) (oneValue 0 5 [(0, 0xFF)]) = .next t :=
  ⟨by decide, by decide, next_of_after (by decide), by decide, by decide, next_of_after (by decide),
    next_of_after (by decide)⟩

/-- `b > 0` over a 1 bit (95 S7), `b > 0` over 0 bits and `b = 0`. -/
theorem test_witness_UnpackAfterPackReturnsTheValueOrOldBits :
    (oneValue 0 0 [(0, 0xFF)]).engines[0]? = some (gOne 0 0) ∧ (gOne 0 0).val 0 = some 0 ∧
    (∃ t, exec (.pack 0 3 0 0 2) (oneValue 0 0 [(0, 0xFF)]) = .next t) ∧
    (∃ t, exec (.pack 0 3 0 0 2) (oneValue 0 0 [(0, 0xC3)]) = .next t) ∧
    (∃ t, exec (.pack 0 3 0 0 0) (oneValue 0 0 [(0, 0xFF)]) = .next t) ∧
    0 < (oneValue 0 0 [(0, 0xFF)]).engines.length :=
  ⟨by decide, by decide, next_of_after (by decide), next_of_after (by decide), next_of_after (by decide), by decide⟩

theorem test_witness_SourcePackWritesTheSameBytes : 1 ≤ 63 ∧ 63 ≤ 63 ∧ 7 ≤ 7 ∧ 2 ^ 63 - 1 < 2 ^ 63 := by decide

/-- The values of program P2 (95_test_vectors.md). -/
theorem test_witness_SequentialPacksMakeTheConcatenation :
    1 ≤ 5 ∧ 5 ≤ 63 ∧ 0 ≤ 7 ∧ [3, 31, 0, 17, 9, 22, 5, 30, 12, 1, 27] ≠ [] ∧
    ∀ v ∈ [3, 31, 0, 17, 9, 22, 5, 30, 12, 1, 27], v < 2 ^ 5 := by decide

theorem test_witness_UnpackReadsTheField :
    (oneValue 0 0 scenario).engines[0]? = some (gOne 0 0) ∧ Legal 9#8 ∧
    (0#32).toNat + spanned 7 9 - 1 < (oneValue 0 0 scenario).cfg.bufBytes ∧
    ∀ j, j < spanned 7 9 → readByte (oneValue 0 0 scenario).buf ((0#32).toNat + j) ≠ none := by
  unfold Legal spanned
  decide

theorem test_witness_SourceUnpackReturnsTheSameValue : 1 ≤ 1 ∧ 1 ≤ 63 ∧ 7 ≤ 7 := by decide

theorem test_witness_SingleValueIllegalWidthFaults :
    0 < State.reset.engines.length ∧ (0#8).toNat = 0 ∧ 64 ≤ (64#8).toNat ∧ 64 ≤ (255#8).toNat := by decide

/-- The §8 values, and the last block of the buffer that fits: the three bytes 61 to 63. -/
theorem test_witness_Pack8StoresTheBlock :
    (eightValues upTo7 []).engines[0]? = some (gEight upTo7) ∧ Legal 3#8 ∧
    (∀ k : Fin 8, (gEight upTo7).val k = some (BitVec.ofNat 64 k.val)) ∧
    (∀ k : Fin 8, (BitVec.ofNat 64 k.val).toNat < 2 ^ (3#8).toNat) ∧
    (61#32).toNat + (3#8).toNat - 1 < (eightValues upTo7 []).cfg.bufBytes :=
  ⟨by decide, legal_three, by decide, by decide, by decide⟩

theorem test_witness_Unpack8ReadsTheLanes :
    (oneValue 0 0 scenario).engines[0]? = some (gOne 0 0) ∧ Legal 3#8 ∧
    (0#32).toNat + (3#8).toNat - 1 < (oneValue 0 0 scenario).cfg.bufBytes ∧
    ∀ j, j < (3#8).toNat → readByte (oneValue 0 0 scenario).buf ((0#32).toNat + j) ≠ none :=
  ⟨by decide, legal_three, by decide, by decide⟩

theorem test_witness_InvalidBlockWidthIsReportedAndDoesNothingElse :
    State.reset.engines[0]? = some Engine.reset ∧ (0#8).toNat = 0 ∧ 64 ≤ (64#8).toNat ∧
    (Instr.pack8 0 64 0 = .pack8 0 64 0 ∧ Instr.unpack8 0 64 0 = .unpack8 0 64 0) := by decide

/-- A host action, a command that reports no failure, and one that reports an invalid width. -/
theorem test_witness_OnlyCompletionChangesTheErrorFields :
    State.reset.engines[0]? = some Engine.reset ∧
    ((∃ t, exec (.cmd 0 0x302) State.reset = .next t) ∧ ¬ IsCommandOf 0 (.cmd 0 0x302)) ∧
    ((∃ t, exec (.pack8 0 3 0) (eightValues upTo7 []) = .next t) ∧ IsCommandOf 0 (.pack8 0 3 0)) ∧
    ((∃ t, exec (.pack8 0 64 0) State.reset = .next t) ∧ IsCommandOf 0 (.pack8 0 64 0)) := by
  refine ⟨by decide, ⟨next_of_after (by decide), ?_⟩, ⟨next_of_after (by decide), .inr (.inr (.inl ⟨_, _, rfl⟩))⟩,
    next_of_after (by decide), .inr (.inr (.inl ⟨_, _, rfl⟩))⟩
  rintro (⟨_, _, _, _, h⟩ | ⟨_, _, _, _, h⟩ | ⟨_, _, h⟩ | ⟨_, _, h⟩) <;> cases h

/-- The last offset whose 63-byte block ends inside the offset space; and all four runs complete for the §8 block. -/
theorem test_witness_BlockCommandsEqualEightSingleCommands :
    (Legal 63#8 ∧ (0xFFFFFFC1#32).toNat + (63#8).toNat ≤ 2 ^ 32) ∧
    (Legal 3#8 ∧ Config.standard.bufBytes ≤ 2 ^ 32 ∧
      (∃ t, exec (.pack8 0 3 0) (eightValues upTo7 []) = .next t) ∧
      (∃ t, exec (.unpack8 0 3 0) (oneValue 0 0 scenario) = .next t) ∧
      (∃ t, execAll (lanePacks 0 3 0) (eightValues upTo7 []) = .next t) ∧
      ∃ t, execAll (laneUnpacks 0 3 0) (oneValue 0 0 scenario) = .next t) :=
  ⟨⟨legal_top, by decide⟩, legal_three, by decide, next_of_after (by decide), next_of_after (by decide),
    next_of_after (by decide), next_of_after (by decide)⟩

theorem test_witness_BlockCommandsTouchExactlyTheirBytes :
    Legal 3#8 ∧ (∃ t, exec (.pack8 0 3 0) (eightValues upTo7 []) = .next t) ∧
    (∃ t, exec (.unpack8 0 3 0) (oneValue 0 0 scenario) = .next t) ∧
    ∀ j, j < (3#8).toNat → readByte (scenario ++ [(3, 0x5A)]) ((0#32).toNat + j) = readByte scenario ((0#32).toNat + j) :=
  ⟨legal_three, next_of_after (by decide), next_of_after (by decide), by decide⟩

theorem test_witness_NeighbouringBlocksAreIndependent :
    Legal 3#8 ∧ (3#32).toNat = (0#32).toNat + (3#8).toNat ∧
    (∃ t, execAll [.pack8 0 3 0, .pack8 0 3 3] (eightValues upTo7 []) = .next t) ∧
    (∃ t, execAll [.pack8 0 3 3, .pack8 0 3 0] (eightValues upTo7 []) = .next t) ∧
    (∃ u, exec (.pack8 0 3 0) (eightValues upTo7 []) = .next u) ∧
    ∃ u, exec (.pack8 0 3 3) (eightValues upTo7 []) = .next u :=
  ⟨legal_three, by decide, next_of_after (by decide), next_of_after (by decide), next_of_after (by decide),
    next_of_after (by decide)⟩

theorem test_witness_Unpack8AfterPack8ReturnsTheValues :
    Legal 3#8 ∧ (eightValues upTo7 []).engines[0]? = some (gEight upTo7) ∧
    ∃ t, exec (.pack8 0 3 0) (eightValues upTo7 []) = .next t ∧ t.cfg = (eightValues upTo7 []).cfg ∧
      0 < t.engines.length ∧ t.buf = scenario := by
  obtain ⟨t, ht, hp⟩ := next_with_of_after (r := exec (.pack8 0 3 0) (eightValues upTo7 []))
    (fun t => decide (t.cfg = Config.standard ∧ 0 < t.engines.length ∧ t.buf = scenario)) (by decide)
  exact ⟨legal_three, by decide, t, ht, of_decide_eq_true hp⟩

theorem test_witness_BlocksThenRestEqualsSinglePacks :
    1 ≤ 5 ∧ 5 ≤ 63 ∧ (∀ vs ∈ [[3, 31, 0, 17, 9, 22, 5, 30]], vs.length = 8 ∧ ∀ v ∈ vs, v < 2 ^ 5) ∧
    ∀ v ∈ [12, 1, 27], v < 2 ^ 5 := by decide

theorem test_witness_BlockBytesAreTheLanesContributions :
    1 ≤ 3 ∧ 3 ≤ 63 ∧ 2 < 3 ∧ upTo7.length = 8 ∧ (∀ v ∈ upTo7, v < 2 ^ 3) ∧
    2 ∈ laneSources 3 1 ∧ 5 ∈ laneSources 3 1 := by decide

theorem test_witness_LaneScheduleLaysOutTheBlock : 1 ≤ 63 ∧ 63 ≤ 63 ∧ 7 < 8 := by decide

theorem test_witness_RepeatingACommandChangesNothing :
    IsCommandOf 0 (.pack 0 13 2 5 3) ∧ ∃ t, exec (.pack 0 13 2 5 3) sPack = .next t :=
  ⟨.inl ⟨_, _, _, _, rfl⟩, next_of_after (by decide)⟩

theorem test_witness_CommandsStayInTheirFootprint :
    decodeCommand 0 0x0000000500000D4C#64 = .ok (.pack 0 13 2 5 3) ∧
    (∃ t, exec (.pack 0 13 2 5 3) sPack = .next t) ∧ (writeSpan 0x0000000500000D4C#64).has 7 = false ∧
    (∀ a, footHas 0x0000000500000D4C#64 a = true → readByte [(5, 0xA0#8), (9, 1#8)] a = readByte sPack.buf a) ∧
    (writeSpan 0x0000000500000D4C#64).has 6 = true := by
  refine ⟨by decide, next_of_after (by decide), by decide, ?_, by decide⟩
  intro a h
  have ha : a < 7 := by
    simp only [footHas, Bool.or_eq_true, span_has_iff] at h
    have h1 : (readSpan 0x0000000500000D4C#64) = ⟨5, 1⟩ := by decide
    have h2 : (writeSpan 0x0000000500000D4C#64) = ⟨5, 2⟩ := by decide
    rw [h1, h2] at h
    simp only at h
    omega
  interval_cases a <;> decide

/-- Busy; idle with a reserved word; idle with a clash; idle and free. -/
theorem test_witness_IssueLatchesTheCommandOrStops :
    ((busy 0x302 []).engines[0]? = some (busyEngine 0x302) ∧ (busyEngine 0x302).status.busy = true) ∧
    ((pair Engine.reset).engines[1]? = some Engine.reset ∧ 1 < (pair Engine.reset).cfg.nEngines ∧
      Engine.reset.status.busy = false ∧ reservedWord 0x10000#64 = true ∧ reservedWord 0x200000302#64 = false) ∧
    (∃ e' g' c' a, e' ≠ 1 ∧ (pair Engine.reset).engines[e']? = some g' ∧ g'.status.busy = true ∧
      g'.inflight = some c' ∧ (((writeSpan 0x200000302#64).has a = true ∧
        ((readSpan c').has a = true ∨ (writeSpan c').has a = true)) ∨
       ((writeSpan c').has a = true ∧ (readSpan 0x200000302#64).has a = true))) ∧
    ¬ (∃ e' g' c' a, e' ≠ 0 ∧ State.reset.engines[e']? = some g' ∧ g'.status.busy = true ∧
      g'.inflight = some c' ∧ (((writeSpan 0x302#64).has a = true ∧
        ((readSpan c').has a = true ∨ (writeSpan c').has a = true)) ∨
       ((writeSpan c').has a = true ∧ (readSpan 0x302#64).has a = true))) := by
  refine ⟨by decide, by decide, ⟨0, busyEngine 0x302, 0x302, 2, by decide⟩, ?_⟩
  rintro ⟨e', g', c', a, hne, hg, -⟩
  have h : e' < 1 := (List.getElem?_eq_some_iff.mp hg).1
  omega

theorem test_witness_WriteValueRegisterSetsIt :
    ((busy 0x302 []).engines[0]? = some (busyEngine 0x302) ∧ (busyEngine 0x302).status.busy = true) ∧
    (State.reset.engines[0]? = some Engine.reset ∧ 0 < State.reset.cfg.nEngines ∧
      Engine.reset.status.busy = false) := by decide

theorem test_witness_ReadValueRegisterLogsIt :
    ((busy 0x302 []).engines[0]? = some (busyEngine 0x302) ∧ (busyEngine 0x302).status.busy = true) ∧
    (State.reset.engines[0]? = some Engine.reset ∧ Engine.reset.status.busy = false ∧ Engine.reset.val 7 = none) ∧
    (sPack.engines[0]? = some (gOne 2 0x1ABC) ∧ (gOne 2 0x1ABC).status.busy = false ∧
      (gOne 2 0x1ABC).val 2 = some 0x1ABC) := by decide

theorem test_witness_ReadStatusAlwaysLogsTheFields :
    (busy 0x302 []).engines[0]? = some (busyEngine 0x302) ∧ 0 < (busy 0x302 []).cfg.nEngines ∧
    State.reset.engines[0]? = some Engine.reset := by decide

/-- At `BUF_BYTES`, at the last byte a busy command reads, and at the last byte of the buffer. -/
theorem test_witness_WriteBufferByteStoresIt :
    State.reset.cfg.bufBytes ≤ 64 ∧
    (2 < (busy 0x303 scenario).cfg.bufBytes ∧ ∃ g ∈ (busy 0x303 scenario).engines, g.status.busy = true ∧
      ∃ c, g.inflight = some c ∧ ((readSpan c).has 2 = true ∨ (writeSpan c).has 2 = true)) ∧
    (63 < State.reset.cfg.bufBytes ∧ ¬ ∃ g ∈ State.reset.engines, g.status.busy = true ∧
      ∃ c, g.inflight = some c ∧ ((readSpan c).has 63 = true ∨ (writeSpan c).has 63 = true)) := by
  refine ⟨by decide, ⟨by decide, busyEngine 0x303, by decide, by decide, 0x303, by decide⟩, by decide, ?_⟩
  rintro ⟨g, hg, hb, -⟩
  have e : g = Engine.reset := by simpa [State.reset, State.launch, Config.standard] using hg
  rw [e] at hb
  cases hb

/-- At `BUF_BYTES`; a byte a busy PACK8 writes; an unwritten byte; a byte a busy UNPACK8 only reads. -/
theorem test_witness_ReadBufferByteLogsIt :
    State.reset.cfg.bufBytes ≤ 64 ∧
    (2 < (busy 0x302 []).cfg.bufBytes ∧ ∃ g ∈ (busy 0x302 []).engines, g.status.busy = true ∧
      ∃ c, g.inflight = some c ∧ (writeSpan c).has 2 = true) ∧
    (∀ a, ¬ ∃ g ∈ (busy 0x303 scenario).engines, g.status.busy = true ∧
      ∃ c, g.inflight = some c ∧ (writeSpan c).has a = true) ∧
    (3 < (busy 0x303 scenario).cfg.bufBytes ∧ readByte (busy 0x303 scenario).buf 3 = none ∧
      readByte (busy 0x303 scenario).buf 2 = some 0x77) := by
  refine ⟨by decide, ⟨by decide, busyEngine 0x302, by decide, by decide, 0x302, by decide⟩, ?_, by decide⟩
  rintro a ⟨g, hg, -, c, hc, h⟩
  have e : g = busyEngine 0x303 := by simpa [busy] using hg
  subst e
  cases hc
  have e : writeSpan (0x303 : Word) = ⟨0, 0⟩ := by decide
  rw [span_has_iff, e] at h
  simp only at h
  omega

theorem test_witness_WaitHoldsUntilTheEngineIsIdle :
    (State.reset.engines[0]? = some Engine.reset ∧ 0 < State.reset.cfg.nEngines ∧ Engine.reset.status.busy = false ∧
      decodeAccess State.reset.cfg (.regPoll 0x008) = .ok (.wait 0) ∧
      (action (.regPoll 0x008)).prog[(action (.regPoll 0x008)).hpc]? = some (.access (.regPoll 0x008))) ∧
    ((busy 0x302 []).engines[0]? = some (busyEngine 0x302) ∧ (busyEngine 0x302).status.busy = true) := by decide

theorem test_witness_BusyWindowHazards :
    (busy 0x302 []).engines[0]? = some (busyEngine 0x302) ∧ (busyEngine 0x302).status.busy = true ∧
    (busyEngine 0x302).inflight = some 0x302 ∧ 2 < (busy 0x302 []).cfg.bufBytes ∧
    (writeSpan 0x302#64).has 2 = true ∧ (readSpan 0x303#64).has 0 = true := by decide

/-- One state per clause of R106, at boundary values. -/
theorem test_witness_FirstConditionInTheOrderDecides :
    (¬ Legal 0#8 ∧ ¬ Legal 64#8 ∧ Legal 3#8) ∧
    (State.reset.engines[0]? = some Engine.reset ∧ Engine.reset.val 0 = none) ∧
    ((gOne 0 8).val 0 = some 8 ∧ 2 ^ (3#8).toNat ≤ (8#64).toNat ∧ (7#64).toNat < 2 ^ (3#8).toNat) ∧
    (64 ≤ (63#32).toNat + spanned 7 2 - 1 ∧ (63#32).toNat + spanned 7 1 - 1 < 64) ∧
    (0 < (1#3).toNat ∧ readByte State.reset.buf 0 = none) ∧
    ((∀ k, (gEight upTo7).val k ≠ none) ∧ (∀ k : Fin 8, (gEight [0, 1, 2, 3, 4, 5, 6, 8]).val k ≠ none) ∧
      (gEight [0, 1, 2, 3, 4, 5, 6, 8]).val 7 = some 8) ∧
    (64 ≤ (62#32).toNat + (3#8).toNat - 1 ∧ (61#32).toNat + (3#8).toNat - 1 < 64) ∧
    ((busyEngine 0x302).status.busy = true ∧ Engine.reset.status.busy = false ∧ reservedWord 0x10000#64 = true ∧
      reservedWord 0x200000302#64 = false ∧ overlaps (pair Engine.reset) 1 0x200000302#64 = true) ∧
    (writeHazard (busy 0x303 scenario) 2 = true ∧ readHazard (busy 0x302 []) 2 = true ∧
      readHazard State.reset 63 = false ∧ readByte State.reset.buf 63 = none) := by
  refine ⟨⟨not_legal_bounds.1, not_legal_bounds.2, legal_three⟩, by decide, by decide, ?_, by decide, by decide,
    by decide, by decide, by decide⟩
  unfold spanned
  decide

theorem test_witness_StepRunsTheDecodedInstruction :
    (nextAgent (action (.regRead 8 0x008)) = some .host ∧
      fetch (action (.regRead 8 0x008)) .host = some (.line (.access (.regRead 8 0x008))) ∧
      decode Config.standard (.line (.access (.regRead 8 0x008))) = .ok (.rdstatus 0)) ∧
    (nextAgent (busy 0x302 []) = some (.engine 0) ∧
      fetch (busy 0x302 []) (.engine 0) = some (.command 0 0x302) ∧
      decode Config.standard (.command 0 0x302) = .ok (.pack8 0 3 0)) := by decide

theorem test_witness_PlacedWordIsTheNextInstruction :
    0 < State.reset.engines.length ∧
    decode State.reset.cfg (tableCode State.reset.cfg 32 0x2) = .ok (.pack8 0 0 0) ∧
    decode State.reset.cfg (tableCode State.reset.cfg 8 0x78) = .ok (.wrval 0 7 0) := by decide

/-- Both engines can move, and the host besides. -/
theorem test_witness_AnyEnabledAgentMayMove :
    Agent.engine 1 ∈ enabledAgents (pair (busyEngine 0x300000302#64)) ∧
    Agent.host ∈ enabledAgents { pair (busyEngine 0x300000302#64) with prog := [.access (.regRead 8 0x1008)] } := by decide

theorem test_witness_OrderFieldsOnlyChooseTheMover :
    (∃ t, exec (.wait 0) State.reset = .next t) ∧ exec (.rdbuf 64) State.reset = .fault .outOfBounds ∧
    exec (.wait 1) State.reset = .refused .unmapped := ⟨next_of_after (by decide), rfl, rfl⟩

theorem test_witness_PerformStepCompletesTheCommand :
    ((busy 0x302 []).engines[0]? = some (busyEngine 0x302) ∧ (busyEngine 0x302).inflight = some 0x302 ∧
      decodeCommand 0 0x302 = .ok (.pack8 0 3 0)) ∧ (∃ t, stepAs (.engine 0) (busy 0x302 []) = .next t) ∧
    ∃ t, stepAs (.engine 0) (busy 0x4002 []) = .next t :=
  ⟨by decide, next_of_after (by decide), next_of_after (by decide)⟩

theorem test_witness_NothingTouchesACommandInFlight :
    Inv (pair (busyEngine 0x300000302#64)) ∧
    (pair (busyEngine 0x300000302#64)).engines[0]? = some (busyEngine 0x302) ∧
    (busyEngine 0x302).inflight = some 0x302 ∧ (∃ t, stepAs (.engine 1) (pair (busyEngine 0x300000302#64)) = .next t) ∧
    footHas 0x302 2 = true :=
  ⟨test_witness_inv_pair, by decide, by decide, next_of_after (by decide), by decide⟩

theorem test_witness_PerformStepsOfTwoEnginesCommute :
    Inv (pair (busyEngine 0x300000302#64)) ∧
    (∃ t, runOrder [.engine 0, .engine 1] (pair (busyEngine 0x300000302#64)) = .next t) ∧
    engineEnabled (pair (busyEngine 0x300000302#64)) 0 = true ∧
    engineEnabled (pair (busyEngine 0x300000302#64)) 1 = true :=
  ⟨test_witness_inv_pair, next_of_after (by decide), by decide, by decide⟩

/-- Two engines busy: the run has not ended; nothing placed: it has. -/
theorem test_witness_NoAgentCanMoveExactlyWhenEnded :
    Inv (pair (busyEngine 0x300000302#64)) ∧ ended (pair (busyEngine 0x300000302#64)) = false ∧
    ended State.reset = true := ⟨test_witness_inv_pair, by decide, by decide⟩

/-- The state a PACK8's perform step leaves. -/
def performed : State := (after (stepAs (.engine 0) (busy 0x302 []))).getD State.reset

/-- The run in which engine 0 performs and the system then rests. -/
def performRun : Nat → State
  | 0 => busy 0x302 []
  | _ + 1 => performed

/-- Who moves in that run. -/
def performMover : Nat → Option Agent
  | 0 => some (.engine 0)
  | _ + 1 => none

theorem test_witness_EveryRunIsFair :
    engineEnabled (performRun 0) 0 = true ∧
    ∀ n, (∃ a ∈ enabledAgents (performRun n), performMover n = some a ∧
        stepAs a (performRun n) = .next (performRun (n + 1))) ∨
      (enabledAgents (performRun n) = [] ∧ performMover n = none ∧ performRun (n + 1) = performRun n) := by
  refine ⟨by decide, fun n => ?_⟩
  cases n with
  | zero => exact .inl ⟨.engine 0, by decide, rfl, eq_next_getD State.reset (by decide)⟩
  | succ n => exact .inr ⟨(by decide : enabledAgents performed = []), rfl, rfl⟩

end Sys2Proof.Tests
end

section
/-! PROOFS. The scope statements (00_scope.md): what every step keeps, where the lanes of a block lie, and the
footprint of a command. -/

namespace Sys2Proof.Machine

/-! ## What every step keeps (R7, R8, R9, R90, R91) -/

/-- The parameters, the host program and the number of engines are as before. -/
def ParametersKept (s t : State) : Prop :=
  t.cfg = s.cfg ∧ t.prog = s.prog ∧ t.engines.length = s.engines.length

/-- The host has not moved: `hpc` and the read log are as before. -/
def HostStays (s t : State) : Prop := t.hpc = s.hpc ∧ t.readLog = s.readLog

/-- The host has moved on by one action, which logged at most one entry (R91). -/
def HostAdvances (s t : State) : Prop :=
  t.hpc = s.hpc + 1 ∧ (t.readLog = s.readLog ∨ ∃ x, t.readLog = s.readLog ++ [x])

theorem ParametersKept.refl (s : State) : ParametersKept s s := ⟨rfl, rfl, rfl⟩

theorem ParametersKept.setEngine {s t : State} (h : ParametersKept s t) (e : Nat) (g : Engine) :
    ParametersKept s (t.setEngine e g) := by
  obtain ⟨hcfg, hprog, hcount⟩ := h
  exact ⟨hcfg, hprog, by simpa using hcount⟩

/-- A command leaves the host where it is; a host action moves it on by one, unless it is a WAIT that holds. -/
theorem exec_next_keeps {i : Instr} {s t : State} (h : exec i s = .next t) :
    ParametersKept s t ∧ (HostStays s t ∨ HostAdvances s t) := by
  have kept := ParametersKept.refl s
  cases i with
  | pack e w k o b =>
    obtain ⟨g, v, m, -, -, -, -, -, -, rfl⟩ := execPack_next h
    exact ⟨kept.setEngine .., .inl ⟨rfl, rfl⟩⟩
  | unpack e w k o b =>
    obtain ⟨g, v, -, -, -, -, rfl⟩ := execUnpack_next h
    exact ⟨kept.setEngine .., .inl ⟨rfl, rfl⟩⟩
  | pack8 e w o =>
    obtain ⟨g, -, ⟨-, rfl⟩ | ⟨-, vs, -, -, -, rfl⟩⟩ := execPack8_next h
    · exact ⟨kept.setEngine .., .inl ⟨rfl, rfl⟩⟩
    · exact ⟨kept.setEngine .., .inl ⟨rfl, rfl⟩⟩
  | unpack8 e w o =>
    obtain ⟨g, -, ⟨-, rfl⟩ | ⟨-, x, -, -, rfl⟩⟩ := execUnpack8_next h
    · exact ⟨kept.setEngine .., .inl ⟨rfl, rfl⟩⟩
    · exact ⟨kept.setEngine .., .inl ⟨rfl, rfl⟩⟩
  | cmd e c =>
    obtain ⟨g, -, -, -, -, rfl⟩ := execCmd_next h
    exact ⟨kept.setEngine .., .inr ⟨rfl, .inl rfl⟩⟩
  | wrval e k v =>
    obtain ⟨g, hk, -, -, rfl⟩ := execWrval_next h
    exact ⟨kept.setEngine .., .inr ⟨rfl, .inl rfl⟩⟩
  | rdval e k =>
    obtain ⟨g, v, -, -, -, -, rfl⟩ := execRdval_next h
    exact ⟨kept, .inr ⟨rfl, .inr ⟨_, rfl⟩⟩⟩
  | rdstatus e =>
    obtain ⟨g, -, rfl⟩ := execRdstatus_next h
    exact ⟨kept, .inr ⟨rfl, .inr ⟨_, rfl⟩⟩⟩
  | wrbuf a v =>
    obtain ⟨-, -, rfl⟩ := execWrbuf_next h
    exact ⟨kept, .inr ⟨rfl, .inl rfl⟩⟩
  | rdbuf a =>
    obtain ⟨v, -, -, -, rfl⟩ := execRdbuf_next h
    exact ⟨kept, .inr ⟨rfl, .inr ⟨_, rfl⟩⟩⟩
  | wait e =>
    obtain ⟨g, -, ⟨-, rfl⟩ | ⟨-, rfl⟩⟩ := execWait_next h
    · exact ⟨kept, .inl ⟨rfl, rfl⟩⟩
    · exact ⟨kept, .inr ⟨rfl, .inl rfl⟩⟩

/-- The same of one agent's step: an agent with nothing to fetch changes nothing. -/
theorem stepAs_next_keeps {a : Agent} {s t : State} (h : stepAs a s = .next t) :
    ParametersKept s t ∧ (HostStays s t ∨ HostAdvances s t) := by
  obtain ⟨-, rfl⟩ | ⟨code, i, -, -, hi⟩ := stepAs_next h
  · exact ⟨ParametersKept.refl _, .inl ⟨rfl, rfl⟩⟩
  · exact exec_next_keeps hi

/-- Settles O14: a step of the system rests, or is an agent's step after the order's bookkeeping, which touches only
`sched` and `ticks`. -/
theorem stepKeepsParametersAndProgram : Obligations.StepKeepsParametersAndProgram := by
  intro s t h
  obtain ⟨-, rfl⟩ | ⟨a, -, -, ha⟩ := step_next h
  · exact ⟨rfl, rfl, rfl, .inl ⟨rfl, rfl⟩⟩
  · obtain ⟨⟨hcfg, hprog, hcount⟩, hhost⟩ := stepAs_next_keeps ha
    exact ⟨hcfg, hprog, hcount, hhost⟩

/-! ## The lane schedule (R83, R85, R89) -/

/-- R85's start byte and start bit are the quotient and the remainder of the lane's stream position. -/
theorem lane_position (w k : Nat) : 8 * laneByte w k + laneBit w k = k * w := Nat.div_add_mod (k * w) 8

theorem laneBit_le (w k : Nat) : laneBit w k ≤ 7 := Nat.le_of_lt_succ (Nat.mod_lt _ (by decide))

/-- A lane's span is the footprint of a field at its start bit (R15, R85). -/
theorem laneSpan_eq_footLen {w : Nat} (k : Nat) (hw : w ≠ 0) : laneSpan w k = footLen (laneBit w k) w := by
  rw [footLen_pos hw]; rfl

/-- A lane's shift is the aligner's at its start bit (R15, R85). -/
theorem laneShift_eq_shiftAmt {w : Nat} (k : Nat) (hw : w ≠ 0) : laneShift w k = shiftAmt (laneBit w k) w := by
  rw [laneShift, laneSpan_eq_footLen k hw, shiftAmt]

/-- The byte after a lane's last is the first at or past stream position `(k+1)*w`. -/
theorem lane_end {w : Nat} (k : Nat) (hw : w ≠ 0) : laneByte w k + laneSpan w k = ceil8 ((k + 1) * w) := by
  have hpos := lane_position w k
  rw [laneSpan_eq_footLen k hw, footLen_pos hw, ceil8, Nat.succ_mul]
  omega

/-- Settles O34: every clause is linear in the lane's start byte, start bit and width once its span and shift are the
aligner's and its end is `ceil((k+1)*w/8)`. -/
theorem laneScheduleLaysOutTheBlock : Obligations.LaneScheduleLaysOutTheBlock := by
  intro w k hw1 hw63 hk
  have hw : w ≠ 0 := by omega
  have hbit := laneBit_le w k
  have hspan : laneSpan w k = (laneBit w k + w + 7) / 8 := rfl
  have hend := lane_end k hw
  have hblock : (k + 1) * w ≤ 8 * w := Nat.mul_le_mul_right w hk
  have hnext : laneByte w (k + 1) = (k + 1) * w / 8 := rfl
  rw [ceil8] at hend
  refine ⟨lane_position w k, hbit, ?_, ?_, by omega, by omega, by omega, by omega⟩
  · rw [laneSpan_eq_footLen k hw, laneShift_eq_shiftAmt k hw, footLen_bits hw]
  · rw [laneShift_eq_shiftAmt k hw]; exact shiftAmt_le hw

/-! ## Each command from what it reads (R66, R71, R76, R78) -/

theorem execPack_eq_next {e w k o b} {s : State} {g : Engine} {v : Word} {m : List Host.Cell}
    (hg : s.engines[e]? = some g) (hw : legalWidth w.toNat = true) (hv : g.val k = some v)
    (hfit : v.toNat < 2 ^ w.toNat) (hin : o.toNat + footLen b.toNat w.toNat - 1 < s.cfg.bufBytes)
    (hm : packField s.buf o.toNat b.toNat w.toNat v.toNat = some m) :
    execPack e w k o b s = .next ((s.setBuf m).setEngine e g.succeed) := by
  simp [execPack, withEngine_some _ hg, hw, hv, Nat.not_le.mpr hfit, Nat.not_le.mpr hin, hm]

theorem execUnpack_eq_next {e w k o b} {s : State} {g : Engine} {v : Nat}
    (hg : s.engines[e]? = some g) (hw : legalWidth w.toNat = true)
    (hin : o.toNat + footLen b.toNat w.toNat - 1 < s.cfg.bufBytes)
    (hv : unpackField s.buf o.toNat b.toNat w.toNat = some v) :
    execUnpack e w k o b s = .next (s.setEngine e (g.setVal k (BitVec.ofNat 64 v)).succeed) := by
  simp [execUnpack, withEngine_some _ hg, hw, Nat.not_le.mpr hin, hv]

theorem execPack8_eq_next {e w o} {s : State} {g : Engine} {vs : List Nat}
    (hg : s.engines[e]? = some g) (hw : legalWidth w.toNat = true) (hvs : g.lanes = some vs)
    (hfit : ∀ v ∈ vs, v < 2 ^ w.toNat) (hin : o.toNat + w.toNat - 1 < s.cfg.bufBytes) :
    execPack8 e w o s = .next ((s.setBuf (packBlock s.buf o.toNat w.toNat vs)).setEngine e g.succeed) := by
  simpa [execPack8, withEngine_some _ hg, hw, hvs, Nat.not_le.mpr hin] using hfit

theorem execUnpack8_eq_next {e w o} {s : State} {g : Engine} {x : Nat}
    (hg : s.engines[e]? = some g) (hw : legalWidth w.toNat = true)
    (hin : o.toNat + w.toNat - 1 < s.cfg.bufBytes) (hx : unpackBlock s.buf o.toNat w.toNat = some x) :
    execUnpack8 e w o s = .next (s.setEngine e (g.setLanes (fieldOf w.toNat 8 x)).succeed) := by
  simp [execUnpack8, withEngine_some _ hg, hw, Nat.not_le.mpr hin, hx]

theorem execPack8_illegal {e w o} {s : State} {g : Engine} (hg : s.engines[e]? = some g)
    (hw : legalWidth w.toNat = false) : execPack8 e w o s = .next (s.invalidWidth e g w) := by
  simp [execPack8, withEngine_some _ hg, hw]

theorem execUnpack8_illegal {e w o} {s : State} {g : Engine} (hg : s.engines[e]? = some g)
    (hw : legalWidth w.toNat = false) : execUnpack8 e w o s = .next (s.invalidWidth e g w) := by
  simp [execUnpack8, withEngine_some _ hg, hw]

/-! ## The footprint of a command (R15, R41, R42) -/

/-- `Rd` of a decoded command (R42); `decodeCommand_spans` says that it is `readSpan` of the command word. -/
def instrReadSpan : Instr → Span
  | .pack _ w _ o b => ⟨o.toNat, if 0 < b.toNat ∧ 1 ≤ w.toNat then 1 else 0⟩
  | .unpack _ w _ o b => ⟨o.toNat, footLen b.toNat w.toNat⟩
  | .pack8 _ _ o => ⟨o.toNat, 0⟩
  | .unpack8 _ w o => ⟨o.toNat, if legalWidth w.toNat then w.toNat else 0⟩
  | _ => ⟨0, 0⟩

/-- `Wr` of a decoded command (R42). -/
def instrWriteSpan : Instr → Span
  | .pack _ w _ o b => ⟨o.toNat, footLen b.toNat w.toNat⟩
  | .unpack _ _ _ o _ => ⟨o.toNat, 0⟩
  | .pack8 _ w o => ⟨o.toNat, if legalWidth w.toNat then w.toNat else 0⟩
  | .unpack8 _ _ o => ⟨o.toNat, 0⟩
  | _ => ⟨0, 0⟩

theorem decodeCommand_spans {e : Nat} {c : Word} {i : Instr} (h : decodeCommand e c = .ok i) :
    readSpan c = instrReadSpan i ∧ writeSpan c = instrWriteSpan i := by
  unfold decodeCommand at h
  split at h
  · cases h
  · repeat' split at h
    all_goals
      injection h with h
      subst h
      simp_all [readSpan, writeSpan, instrReadSpan, instrWriteSpan]

/-- What `i` does to `s` seen as a write over `wr`: it stores one run of bytes, and from every buffer that reads the
same on `rd` it stores that run again and leaves everything else as in `t`. -/
def StoresRun (i : Instr) (s t : State) (rd wr : Span) : Prop :=
  ∃ bs : List Byte, bs.length = wr.len ∧
    ∀ m, (∀ a, rd.has a = true → readByte m a = readByte s.buf a) →
      exec i (s.setBuf m) = .next (t.setBuf (writeBytes m wr.start bs))

/-- PACK's buffer write is one run over its footprint, fixed by the one byte it reads when `b > 0` (R66). -/
theorem packField_storesRun {m₀ m₁ : List Host.Cell} {o b w v : Nat} (hw : 1 ≤ w)
    (h : packField m₀ o b w v = some m₁) :
    ∃ bs : List Byte, bs.length = footLen b w ∧
      ∀ m, (∀ a, Span.has ⟨o, if 0 < b ∧ 1 ≤ w then 1 else 0⟩ a = true → readByte m a = readByte m₀ a) →
        packField m o b w v = some (writeBytes m o bs) := by
  obtain ⟨rfl, -⟩ | ⟨hb, old, hold, -⟩ := packField_some h
  · exact ⟨image v w 0, by simp, fun m _ => by simp [packField]⟩
  · refine ⟨orHead old (image v w b), by simp, fun m hm => ?_⟩
    have hread : readByte m o = some old := by
      rw [hm o (by simp [Span.has, hw, Nat.pos_of_ne_zero hb]), hold]
    simp [packField, hb, hread]

/-- UNPACK's value depends on the footprint alone (R71). -/
theorem unpackField_congr {m m' : List Host.Cell} {o b w : Nat}
    (h : ∀ a, o ≤ a → a < o + footLen b w → readByte m a = readByte m' a) :
    unpackField m o b w = unpackField m' o b w := by
  rw [unpackField, unpackField, readBytes_congr h]

/-- UNPACK8's window depends on the block alone (R78). -/
theorem unpackBlock_congr {m m' : List Host.Cell} {o w : Nat}
    (h : ∀ a, o ≤ a → a < o + w → readByte m a = readByte m' a) :
    unpackBlock m o w = unpackBlock m' o w := by
  rw [unpackBlock, unpackBlock, readBytes_congr h]

theorem pack_storesRun {e w k o b} {s t : State} (h : exec (.pack e w k o b) s = .next t) :
    StoresRun (.pack e w k o b) s t (instrReadSpan (.pack e w k o b)) (instrWriteSpan (.pack e w k o b)) := by
  obtain ⟨g, v, m₁, hg, hw, hv, hfit, hin, hm₁, rfl⟩ := execPack_next h
  obtain ⟨bs, hlen, hrun⟩ := packField_storesRun (legalWidth_iff.mp hw).1 hm₁
  exact ⟨bs, hlen, fun m hm => execPack_eq_next (s := s.setBuf m) hg hw hv hfit hin (hrun m hm)⟩

theorem unpack_storesRun {e w k o b} {s t : State} (h : exec (.unpack e w k o b) s = .next t) :
    StoresRun (.unpack e w k o b) s t (instrReadSpan (.unpack e w k o b)) (instrWriteSpan (.unpack e w k o b)) := by
  obtain ⟨g, v, hg, hw, hin, hv, rfl⟩ := execUnpack_next h
  exact ⟨[], rfl, fun m hm => execUnpack_eq_next (s := s.setBuf m) hg hw hin <|
    (unpackField_congr fun a h1 h2 => hm a (span_has_iff.mpr ⟨h1, h2⟩)).trans hv⟩

theorem pack8_storesRun {e w o} {s t : State} (h : exec (.pack8 e w o) s = .next t) :
    StoresRun (.pack8 e w o) s t (instrReadSpan (.pack8 e w o)) (instrWriteSpan (.pack8 e w o)) := by
  obtain ⟨g, hg, ⟨hw, rfl⟩ | ⟨hw, vs, hvs, hfit, hin, rfl⟩⟩ := execPack8_next h
  · exact ⟨[], by simp [instrWriteSpan, hw], fun m _ => execPack8_illegal (s := s.setBuf m) hg hw⟩
  · exact ⟨splitBytes w.toNat (joinFields w.toNat vs), by simp [instrWriteSpan, hw],
      fun m _ => execPack8_eq_next (s := s.setBuf m) hg hw hvs hfit hin⟩

theorem unpack8_storesRun {e w o} {s t : State} (h : exec (.unpack8 e w o) s = .next t) :
    StoresRun (.unpack8 e w o) s t (instrReadSpan (.unpack8 e w o)) (instrWriteSpan (.unpack8 e w o)) := by
  obtain ⟨g, hg, ⟨hw, rfl⟩ | ⟨hw, x, hx, hin, rfl⟩⟩ := execUnpack8_next h
  · exact ⟨[], rfl, fun m _ => execUnpack8_illegal (s := s.setBuf m) hg hw⟩
  · refine ⟨[], rfl, fun m hm => execUnpack8_eq_next (s := s.setBuf m) hg hw hin ?_⟩
    refine (unpackBlock_congr fun a h1 h2 => hm a ?_).trans hx
    simp [instrReadSpan, hw, Span.has, h1, h2]

/-- Every command that completes stores one run over its write set, fixed by what its read set holds (R41, R42). -/
theorem command_storesRun {e : Nat} {c : Word} {i : Instr} {s t : State} (hd : decodeCommand e c = .ok i)
    (h : exec i s = .next t) : StoresRun i s t (readSpan c) (writeSpan c) := by
  obtain ⟨hrd, hwr⟩ := decodeCommand_spans hd
  rw [hrd, hwr]
  obtain ⟨-, ⟨w, k, o, b, rfl⟩ | ⟨w, k, o, b, rfl⟩ | ⟨w, o, rfl⟩ | ⟨w, o, rfl⟩⟩ := decodeCommand_ok hd
  · exact pack_storesRun h
  · exact unpack_storesRun h
  · exact pack8_storesRun h
  · exact unpack8_storesRun h

/-- Outside a span a run over it changes no byte. -/
theorem readByte_writeBytes_of_not_has {p : Span} {bs : List Byte} {a : Nat} (m : List Host.Cell)
    (hlen : bs.length = p.len) (ha : p.has a = false) :
    readByte (writeBytes m p.start bs) a = readByte m a := by
  rw [← Bool.not_eq_true, span_has_iff] at ha
  exact readByte_writeBytes_outside bs m (by omega)

/-- Inside a span what a run over it leaves does not depend on the buffer before. -/
theorem readByte_writeBytes_of_has {p : Span} {bs : List Byte} {a : Nat} (m m' : List Host.Cell)
    (hlen : bs.length = p.len) (ha : p.has a = true) :
    readByte (writeBytes m p.start bs) a = readByte (writeBytes m' p.start bs) a := by
  have hin := span_has_iff.mp ha
  rw [← hlen] at hin
  rw [readByte_writeBytes, readByte_writeBytes, if_pos hin, if_pos hin]

/-- Settles O37: the command stores one run over its write set, the same run from every buffer that agrees on its read
set, the buffer of `s` itself among them. -/
theorem commandsStayInTheirFootprint : Obligations.CommandsStayInTheirFootprint := by
  intro s t e c i hd h
  obtain ⟨bs, hlen, hrun⟩ := command_storesRun hd h
  have hbuf : t.buf = writeBytes s.buf (writeSpan c).start bs := by
    have hself : Host.Outcome.next t = .next (t.setBuf (writeBytes s.buf (writeSpan c).start bs)) :=
      h.symm.trans (hrun s.buf fun _ _ => rfl)
    injection hself with hself
    exact congrArg State.buf hself
  refine ⟨fun a ha => ?_, fun m hm => ⟨_, hrun m fun a ha => hm a ?_, rfl, fun a ha => ?_⟩⟩
  · rw [hbuf]; exact readByte_writeBytes_of_not_has _ hlen ha
  · simp [footHas, ha]
  · rw [hbuf]; exact readByte_writeBytes_of_has _ _ hlen ha

end Sys2Proof.Machine
end

section
/-! PROOFS. The state statements (10_state.md): what one instruction can do to the buffer and to each engine, the
invariant, written values that stay written, the error fields, reset, and the undefined register accesses. -/

namespace Sys2Proof.Machine

open Sys2Proof.Claims

/-! ## Which engine performs an instruction (R99) -/

/-- The engine that performs a command; none for a host action. -/
def performer : Instr → Option Nat
  | .pack e _ _ _ _ | .unpack e _ _ _ _ | .pack8 e _ _ | .unpack8 e _ _ => some e
  | _ => none

theorem isCommandOf_iff {e : Nat} {i : Instr} : IsCommandOf e i ↔ performer i = some e := by
  cases i <;> simp [IsCommandOf, performer, eq_comm]

theorem decodeCommand_isCommandOf {e : Nat} {c : Word} {i : Instr} (h : decodeCommand e c = .ok i) :
    IsCommandOf e i := (decodeCommand_ok h).2

/-! ## What an instruction does to the buffer (R30, R31, R43) -/

/-- The buffer of `t` is that of `s` after one run of writes inside `BUF_BYTES`, the empty run among them. -/
def WritesInside (s t : State) : Prop :=
  ∃ (a : Nat) (bs : List Byte), t.buf = writeBytes s.buf a bs ∧ ∀ x, a ≤ x → x < a + bs.length → x < s.cfg.bufBytes

theorem WritesInside.of_buf_eq {s t : State} (h : t.buf = s.buf) : WritesInside s t :=
  ⟨0, [], h, fun x _ hx => absurd hx (Nat.not_lt_zero x)⟩

/-- The written bytes stay inside the buffer (R30). -/
theorem WritesInside.bufInside {s t : State} (h : WritesInside s t) (hcfg : t.cfg = s.cfg) (hs : BufInside s) :
    BufInside t := by
  obtain ⟨a, bs, hbuf, hin⟩ := h
  intro c hc
  rw [hbuf] at hc
  rw [hcfg]
  obtain ⟨hlo, hhi⟩ | hold := mem_writeBytes hc
  · exact hin _ hlo hhi
  · exact hs c hold

/-- The buffer's list keeps its canonical form. -/
theorem WritesInside.wf {s t : State} (h : WritesInside s t) (hs : Memory.wf s.buf = true) :
    Memory.wf t.buf = true := by
  obtain ⟨a, bs, hbuf, -⟩ := h
  rw [hbuf]
  exact wf_writeBytes bs a hs

/-- A written byte stays written (R31). -/
theorem WritesInside.written {s t : State} (h : WritesInside s t) {x : Nat} (hx : readByte s.buf x ≠ none) :
    readByte t.buf x ≠ none := by
  obtain ⟨a, bs, hbuf, -⟩ := h
  rw [hbuf, readByte_writeBytes]
  split
  · next hin => simpa using (by omega : x - a < bs.length)
  · exact hx

/-! ## What completing a command does to its engine (R27, R28, R29) -/

/-- `STATUS` after the completion of a command: INVALID_WIDTH with the width for a block command of illegal width
(R75, R103), else NONE with 0 (R28). -/
def completionStatus : Instr → Status
  | .pack8 _ w _ | .unpack8 _ w _ =>
    if legalWidth w.toNat then Status.done errNone 0#8 else Status.done errInvalidWidth w
  | _ => Status.done errNone 0#8

theorem completionStatus_eq (i : Instr) : completionStatus i = Status.done errNone 0#8 ∨
    ∃ w : BitVec 8, legalWidth w.toNat = false ∧ completionStatus i = Status.done errInvalidWidth w := by
  cases i with
  | pack8 e w o | unpack8 e w o =>
    cases hw : legalWidth w.toNat
    · exact .inr ⟨w, hw, by simp [completionStatus, hw]⟩
    · exact .inl (by simp [completionStatus, hw])
  | _ => exact .inl rfl

theorem completionStatus_busy (i : Instr) : (completionStatus i).busy = false := by
  obtain h | ⟨w, -, h⟩ := completionStatus_eq i <;> rw [h, done_busy]

/-- The error fields a completion sets are legal (R27, R28). -/
theorem completionStatus_legal (i : Instr) :
    ((completionStatus i).errCode = errNone ∧ (completionStatus i).errVal = 0#8) ∨
    ((completionStatus i).errCode = errInvalidWidth ∧ legalWidth (completionStatus i).errVal.toNat = false) := by
  obtain h | ⟨w, hw, h⟩ := completionStatus_eq i
  · exact .inl (by simp [h])
  · exact .inr (by simp [h, hw])

/-- Every written value register stays written (R20). -/
def ValsStayWritten (g g' : Engine) : Prop := ∀ k, g.val k ≠ none → g'.val k ≠ none

theorem ValsStayWritten.refl (g : Engine) : ValsStayWritten g g := fun _ h => h

theorem ValsStayWritten.setVal (g : Engine) (k : Fin 8) (v : Word) : ValsStayWritten g (g.setVal k v) := by
  intro k' hk'
  by_cases h : k = k'
  · subst h; simp
  · rwa [val_setVal_other g v h]

theorem ValsStayWritten.setLanes (g : Engine) (f : Nat → Nat) : ValsStayWritten g (g.setLanes f) := by
  intro k _
  simp [val_setLanes]

/-- A command of engine `e` that completes: it writes the buffer inside `BUF_BYTES`, leaves engine `e` idle with the
command's completion status, and touches no other engine and nothing of the host's. -/
theorem command_next {i : Instr} {s t : State} {e : Nat} (hi : IsCommandOf e i) (h : exec i s = .next t) :
    ∃ m g g', s.engines[e]? = some g ∧ t = (s.setBuf m).setEngine e g' ∧ WritesInside s (s.setBuf m) ∧
      g'.inflight = none ∧ g'.status = completionStatus i ∧ ValsStayWritten g g' := by
  have nowrite : WritesInside s (s.setBuf s.buf) := .of_buf_eq rfl
  obtain ⟨w, k, o, b, rfl⟩ | ⟨w, k, o, b, rfl⟩ | ⟨w, o, rfl⟩ | ⟨w, o, rfl⟩ := hi
  · obtain ⟨g, v, m, hg, -, -, -, hin, hm, rfl⟩ := execPack_next h
    obtain ⟨bs, hlen, rfl⟩ := packField_run hm
    exact ⟨_, g, _, hg, rfl, ⟨_, bs, rfl, fun x _ hx => by omega⟩, rfl, rfl, .refl g⟩
  · obtain ⟨g, v, hg, -, -, -, rfl⟩ := execUnpack_next h
    exact ⟨_, g, _, hg, rfl, nowrite, rfl, rfl, .setVal g k _⟩
  · obtain ⟨g, hg, ⟨hw, rfl⟩ | ⟨hw, vs, -, -, hin, rfl⟩⟩ := execPack8_next h
    · exact ⟨_, g, _, hg, rfl, nowrite, rfl, by simp [completionStatus, hw], .refl g⟩
    · refine ⟨_, g, _, hg, rfl, ⟨_, _, rfl, fun x _ hx => ?_⟩, rfl, by simp [completionStatus, hw], .refl g⟩
      rw [splitBytes_length] at hx
      omega
  · obtain ⟨g, hg, ⟨hw, rfl⟩ | ⟨hw, x, -, -, rfl⟩⟩ := execUnpack8_next h
    · exact ⟨_, g, _, hg, rfl, nowrite, rfl, by simp [completionStatus, hw], .refl g⟩
    · exact ⟨_, g, _, hg, rfl, nowrite, rfl, by simp [completionStatus, hw], .setLanes g _⟩

/-! ## What an instruction does to each engine (R23, R29) -/

/-- What instruction `i`, run in `s`, can do to engine `e`: keep its status and the command it holds, issue a command
to it, or complete one on it. -/
inductive EngineStep (i : Instr) (s : State) (e : Nat) (g g' : Engine) : Prop
  | keeps (hi : ¬ IsCommandOf e i) (hst : g'.status = g.status) (hin : g'.inflight = g.inflight)
  | issues (c : Word) (hi : i = .cmd e c) (hidle : g.status.busy = false) (hword : reservedWord c = false)
      (hfree : overlaps s e c = false) (hst : g'.status = g.status.issue) (hin : g'.inflight = some c)
  | completes (hi : IsCommandOf e i) (hst : g'.status = completionStatus i) (hin : g'.inflight = none)

/-- Every engine of `s` is there in `t`, after an `EngineStep` of `i` that takes no value away. -/
def EnginesStep (i : Instr) (s t : State) : Prop :=
  ∀ (e : Nat) (g : Engine), s.engines[e]? = some g →
    ∃ g', t.engines[e]? = some g' ∧ EngineStep i s e g g' ∧ ValsStayWritten g g'

theorem enginesStep_of_engines_eq {i : Instr} {s t : State} (hi : performer i = none) (ht : t.engines = s.engines) :
    EnginesStep i s t := fun e g hg =>
  ⟨g, ht ▸ hg, .keeps (by simp [isCommandOf_iff, hi]) rfl rfl, .refl g⟩

/-- An instruction that replaces the one engine it names. -/
theorem enginesStep_of_set {i : Instr} {s t : State} {e : Nat} {g g' : Engine} (hg : s.engines[e]? = some g)
    (ht : t.engines = s.engines.set e g') (hi : ∀ e', e' ≠ e → ¬ IsCommandOf e' i) (hstep : EngineStep i s e g g')
    (hvals : ValsStayWritten g g') : EnginesStep i s t := by
  intro e' g₀ hg₀
  rw [ht]
  by_cases he : e' = e
  · subst he
    obtain rfl : g = g₀ := Option.some.inj (hg.symm.trans hg₀)
    obtain ⟨hlt, -⟩ := List.getElem?_eq_some_iff.mp hg
    exact ⟨g', List.getElem?_set_self hlt, hstep, hvals⟩
  · exact ⟨g₀, by rw [List.getElem?_set_ne (Ne.symm he), hg₀], .keeps (hi e' he) rfl rfl, .refl g₀⟩

theorem command_effect {i : Instr} {s t : State} {e : Nat} (hi : IsCommandOf e i) (h : exec i s = .next t) :
    WritesInside s t ∧ EnginesStep i s t := by
  obtain ⟨m, g, g', hg, rfl, hbuf, hin, hst, hvals⟩ := command_next hi h
  refine ⟨hbuf, enginesStep_of_set hg rfl (fun e' he' hi' => he' ?_) (.completes hi hst hin) hvals⟩
  exact Option.some.inj ((isCommandOf_iff.mp hi').symm.trans (isCommandOf_iff.mp hi))

/-- What every instruction that answers a next state does to the buffer and to each engine. -/
theorem exec_next_effect {i : Instr} {s t : State} (h : exec i s = .next t) :
    WritesInside s t ∧ EnginesStep i s t := by
  cases i with
  | pack e w k o b => exact command_effect (isCommandOf_iff.mpr rfl) h
  | unpack e w k o b => exact command_effect (isCommandOf_iff.mpr rfl) h
  | pack8 e w o => exact command_effect (isCommandOf_iff.mpr rfl) h
  | unpack8 e w o => exact command_effect (isCommandOf_iff.mpr rfl) h
  | cmd e c =>
    obtain ⟨g, hg, hidle, hword, hfree, rfl⟩ := execCmd_next h
    exact ⟨.of_buf_eq rfl, enginesStep_of_set hg rfl (by simp [isCommandOf_iff, performer])
      (.issues c rfl hidle hword hfree rfl rfl) (.refl g)⟩
  | wrval e k v =>
    obtain ⟨g, hk, hg, -, rfl⟩ := execWrval_next h
    exact ⟨.of_buf_eq rfl, enginesStep_of_set hg rfl (by simp [isCommandOf_iff, performer])
      (.keeps (by simp [isCommandOf_iff, performer]) rfl rfl) (.setVal g ⟨k, hk⟩ v)⟩
  | rdval e k =>
    obtain ⟨g, v, -, -, -, -, rfl⟩ := execRdval_next h
    exact ⟨.of_buf_eq rfl, enginesStep_of_engines_eq rfl rfl⟩
  | rdstatus e =>
    obtain ⟨g, -, rfl⟩ := execRdstatus_next h
    exact ⟨.of_buf_eq rfl, enginesStep_of_engines_eq rfl rfl⟩
  | wrbuf a v =>
    obtain ⟨ha, -, rfl⟩ := execWrbuf_next h
    exact ⟨⟨a, [v], rfl, fun x _ hx => by rw [List.length_singleton] at hx; omega⟩, enginesStep_of_engines_eq rfl rfl⟩
  | rdbuf a =>
    obtain ⟨v, -, -, -, rfl⟩ := execRdbuf_next h
    exact ⟨.of_buf_eq rfl, enginesStep_of_engines_eq rfl rfl⟩
  | wait e =>
    obtain ⟨g, -, ⟨-, rfl⟩ | ⟨-, rfl⟩⟩ := execWait_next h
    · exact ⟨.of_buf_eq rfl, enginesStep_of_engines_eq rfl rfl⟩
    · exact ⟨.of_buf_eq rfl, enginesStep_of_engines_eq rfl rfl⟩

/-- Where an engine of the next state comes from. -/
theorem exec_next_engine {i : Instr} {s t : State} (h : exec i s = .next t) {e : Nat} {g' : Engine}
    (hg' : t.engines[e]? = some g') : ∃ g, s.engines[e]? = some g ∧ EngineStep i s e g g' := by
  obtain ⟨⟨-, -, hcount⟩, -⟩ := exec_next_keeps h
  obtain ⟨hlt, -⟩ := List.getElem?_eq_some_iff.mp hg'
  have hg := List.getElem?_eq_getElem (hcount ▸ hlt)
  obtain ⟨g'', hg'', hstep, -⟩ := (exec_next_effect h).2 e _ hg
  obtain rfl : g' = g'' := Option.some.inj (hg'.symm.trans hg'')
  exact ⟨_, hg, hstep⟩

/-! ## The invariant (R24, R27, R28, R30, R48, R57, R91) -/

theorem EngineStep.keeps_engineOk {i : Instr} {s : State} {e : Nat} {g g' : Engine} (h : EngineStep i s e g g')
    (hg : EngineOk g) : EngineOk g' := by
  obtain ⟨hbusy, hcode, hword⟩ := hg
  cases h with
  | keeps _ hst hin => exact ⟨by rw [hst, hin, hbusy], by rwa [hst], by rwa [hin]⟩
  | issues c _ _ hres _ hst hin =>
    refine ⟨by simp [hst, hin], by simpa [hst] using hcode, fun c' hc' => ?_⟩
    obtain rfl : c = c' := Option.some.inj (hin.symm.trans hc')
    exact hres
  | completes _ hst hin =>
    exact ⟨by rw [hst, hin, completionStatus_busy]; rfl, hst ▸ completionStatus_legal i, by simp [hin]⟩

/-- The check of CMD speaks of every command in flight elsewhere, since an engine that holds one is busy (R24, R48). -/
theorem conflict_of_not_overlaps {s : State} {e e' : Nat} {c c' : Word} {g : Engine} (hs : Inv s)
    (hfree : overlaps s e c = false) (hne : e' ≠ e) (hg : s.engines[e']? = some g) (hc' : g.inflight = some c') :
    conflict c c' = false := by
  have hbusy : g.status.busy = true := by
    rw [(hs.engine g (List.mem_of_getElem? hg)).busy, hc']; rfl
  by_contra hconf
  have hover := overlaps_iff.mpr ⟨e', g, c', hne, hg, hbusy, hc', by simpa using hconf⟩
  exact absurd hover (by simp [hfree])

/-- A command in flight in the next state was in flight before, or CMD has just issued it after its check (R23, R48). -/
theorem EngineStep.inflight {i : Instr} {s : State} {e : Nat} {g g' : Engine} {c : Word}
    (h : EngineStep i s e g g') (hc : g'.inflight = some c) :
    g.inflight = some c ∨ (i = .cmd e c ∧ overlaps s e c = false) := by
  cases h with
  | keeps _ _ hin => exact .inl (hin ▸ hc)
  | issues c' hi _ _ hfree _ hin =>
    obtain rfl : c' = c := Option.some.inj (hin.symm.trans hc)
    exact .inr ⟨hi, hfree⟩
  | completes _ _ hin => simp [hin] at hc

/-- No instruction makes two commands in flight conflict (R48): at most one of the two is newly issued. -/
theorem exec_keeps_noConflict {i : Instr} {s t : State} (h : exec i s = .next t) (hs : Inv s) : NoConflict t := by
  intro e e' g g' c c' hne hg hg' hc hc'
  obtain ⟨g₀, hg₀, hstep⟩ := exec_next_engine h hg
  obtain ⟨g₀', hg₀', hstep'⟩ := exec_next_engine h hg'
  rcases hstep.inflight hc, hstep'.inflight hc' with ⟨hold | ⟨hi, hfree⟩, hold' | ⟨hi', hfree'⟩⟩
  · exact hs.race e e' g₀ g₀' c c' hne hg₀ hg₀' hold hold'
  · rw [conflict_comm]; exact conflict_of_not_overlaps hs hfree' hne hg₀ hold
  · exact conflict_of_not_overlaps hs hfree hne.symm hg₀' hold'
  · obtain ⟨rfl, -⟩ := Instr.cmd.inj (hi.symm.trans hi')
    exact absurd rfl hne

/-- Every instruction keeps the invariant but for the bound on `hpc`, which is the fetch's to give. -/
theorem exec_keeps_inv {i : Instr} {s t : State} (h : exec i s = .next t) (hs : Inv s)
    (hpc : t.hpc ≤ t.prog.length) : Inv t := by
  obtain ⟨⟨hcfg, -, hcount⟩, -⟩ := exec_next_keeps h
  obtain ⟨hbuf, -⟩ := exec_next_effect h
  refine ⟨by rw [hcount, hcfg, hs.count], hbuf.wf hs.canonical, hbuf.bufInside hcfg hs.inside, hpc, fun g' hg' => ?_,
    exec_keeps_noConflict h hs⟩
  obtain ⟨e, he⟩ := List.mem_iff_getElem?.mp hg'
  obtain ⟨g, hg, hstep⟩ := exec_next_engine h he
  exact hstep.keeps_engineOk (hs.engine g (List.mem_of_getElem? hg))

/-- An engine fetches the command word it holds (R99). -/
theorem fetch_engine_iff {s : State} {e : Nat} {code : Code} : fetch s (.engine e) = some code ↔
    ∃ g c, s.engines[e]? = some g ∧ g.inflight = some c ∧ code = .command e c := by
  cases hg : s.engines[e]? with
  | none => simp [fetch, hg]
  | some g => simp [fetch, hg, eq_comm]

/-- What an engine fetches and decodes is a command of its own (R99). -/
theorem engine_decodes_command {s : State} {e : Nat} {code : Code} {i : Instr} (hf : fetch s (.engine e) = some code)
    (hd : decode s.cfg code = .ok i) : IsCommandOf e i := by
  obtain ⟨g, c, -, -, rfl⟩ := fetch_engine_iff.mp hf
  exact decodeCommand_isCommandOf hd

/-- What the host fetches stands in its program (R91). -/
theorem host_fetch_lt {s : State} {code : Code} (hf : fetch s .host = some code) : s.hpc < s.prog.length := by
  obtain ⟨l, hl, -⟩ := Option.map_eq_some_iff.mp hf
  exact (List.getElem?_eq_some_iff.mp hl).1

/-- `hpc` stays inside the program: a command does not move it, and the host moves it past a line that is there. -/
theorem fetched_exec_keeps_hpc {a : Agent} {s t : State} {code : Code} {i : Instr} (hf : fetch s a = some code)
    (hd : decode s.cfg code = .ok i) (h : exec i s = .next t) (hs : s.hpc ≤ s.prog.length) :
    t.hpc ≤ t.prog.length := by
  cases a with
  | host =>
    have hlt := host_fetch_lt hf
    obtain ⟨⟨-, hprog, -⟩, ⟨hpc, -⟩ | ⟨hpc, -⟩⟩ := exec_next_keeps h <;> rw [hpc, hprog] <;> omega
  | engine e =>
    obtain ⟨m, g, g', -, rfl, -⟩ := command_next (engine_decodes_command hf hd) h
    exact hs

theorem stepAs_keeps_inv {a : Agent} {s t : State} (h : stepAs a s = .next t) (hs : Inv s) : Inv t := by
  obtain ⟨-, rfl⟩ | ⟨code, i, hf, hd, hi⟩ := stepAs_next h
  · exact hs
  · exact exec_keeps_inv hi hs (fetched_exec_keeps_hpc hf hd hi hs.hpc)

/-- The order's bookkeeping is no part of the invariant (log 3). -/
theorem inv_tick {s : State} (h : Inv s) : Inv s.tick :=
  ⟨h.count, h.canonical, h.inside, h.hpc, h.engine, h.race⟩

/-- Settles O13: a step rests, or is one agent's step after the order's bookkeeping. -/
theorem everyStepKeepsTheInvariant : Obligations.EveryStepKeepsTheInvariant := by
  intro s t hs h
  obtain ⟨-, rfl⟩ | ⟨a, -, -, ha⟩ := step_next h
  · exact hs
  · exact stepAs_keeps_inv ha (inv_tick hs)

/-! ## Written stays written (R20, R31) -/

theorem stepAs_keeps_written {a : Agent} {s t : State} (h : stepAs a s = .next t) :
    (∀ x, readByte s.buf x ≠ none → readByte t.buf x ≠ none) ∧
    ∀ (e : Nat) (g : Engine), s.engines[e]? = some g → ∃ g', t.engines[e]? = some g' ∧ ValsStayWritten g g' := by
  obtain ⟨-, rfl⟩ | ⟨code, i, -, -, hi⟩ := stepAs_next h
  · exact ⟨fun _ hx => hx, fun e g hg => ⟨g, hg, .refl g⟩⟩
  · obtain ⟨hbuf, heng⟩ := exec_next_effect hi
    refine ⟨fun _ => hbuf.written, fun e g hg => ?_⟩
    obtain ⟨g', hg', -, hvals⟩ := heng e g hg
    exact ⟨g', hg', hvals⟩

/-- Settles O15: the buffer changes by a run of writes, and a value register only by a write. -/
theorem writtenStaysWritten : Obligations.WrittenStaysWritten := by
  intro s t h
  obtain ⟨-, rfl⟩ | ⟨a, -, -, ha⟩ := step_next h
  · exact ⟨fun _ hx => hx, fun e g hg => ⟨g, hg, ValsStayWritten.refl g⟩⟩
  · exact stepAs_keeps_written (s := s.tick) ha

/-! ## The error fields (R26, R27, R28, R103) -/

theorem legal_iff_legalWidth {w : BitVec 8} : Legal w ↔ legalWidth w.toNat = true := legalWidth_iff.symm

/-- The error fields of a completion, by whether the command is a block command of illegal width (R75, R103). -/
theorem completionStatus_error {e : Nat} {i : Instr} (hi : IsCommandOf e i) :
    ((completionStatus i).errCode = 1#2 ∧ IsBlockCommandOf e (completionStatus i).errVal i ∧
      ¬ Legal (completionStatus i).errVal) ∨
    ((completionStatus i).errCode = 0#2 ∧ (completionStatus i).errVal = 0#8 ∧
      ∀ w, IsBlockCommandOf e w i → Legal w) := by
  obtain ⟨w, k, o, b, rfl⟩ | ⟨w, k, o, b, rfl⟩ | ⟨w, o, rfl⟩ | ⟨w, o, rfl⟩ := hi
  · exact .inr ⟨rfl, rfl, by simp [IsBlockCommandOf]⟩
  · exact .inr ⟨rfl, rfl, by simp [IsBlockCommandOf]⟩
  · cases hw : legalWidth w.toNat <;>
      simp [completionStatus, IsBlockCommandOf, legal_iff_legalWidth, hw, errInvalidWidth, errNone]
  · cases hw : legalWidth w.toNat <;>
      simp [completionStatus, IsBlockCommandOf, legal_iff_legalWidth, hw, errInvalidWidth, errNone]

/-- Settles O27: an instruction that is no command of the engine keeps its status or issues a command to it, which
keeps the error fields. -/
theorem onlyCompletionChangesTheErrorFields : Obligations.OnlyCompletionChangesTheErrorFields := by
  intro i s t e g g' h hg hg'
  obtain ⟨g₀, hg₀, hstep⟩ := exec_next_engine h hg'
  obtain rfl : g = g₀ := Option.some.inj (hg.symm.trans hg₀)
  cases hstep with
  | keeps hi hst => exact ⟨fun _ => by rw [hst]; exact ⟨rfl, rfl⟩, fun hc => absurd hc hi⟩
  | issues c hi _ _ _ hst =>
    subst hi
    exact ⟨fun _ => by rw [hst]; exact ⟨rfl, rfl⟩, fun hc => by simp [isCommandOf_iff, performer] at hc⟩
  | completes hi hst =>
    rw [hst]
    exact ⟨fun hc => absurd hi hc, fun _ => ⟨completionStatus_busy i, completionStatus_error hi⟩⟩

/-! ## The perform step (R29, R99) -/

/-- The step of an engine that holds a word that decodes is the command it decodes to. -/
theorem stepAs_engine {s : State} {e : Nat} {g : Engine} {c : Word} {i : Instr} (hg : s.engines[e]? = some g)
    (hc : g.inflight = some c) (hd : decodeCommand e c = .ok i) : stepAs (.engine e) s = exec i s := by
  simp [stepAs, fetch_engine_iff.mpr ⟨g, c, hg, hc, rfl⟩, decode, hd]

theorem cmdOp_toNat (c : Word) : (cmdOp c).toNat = c.toNat % 4 := (toNat_field c 0 2).trans (by simp)

/-- A word is a block command's when its OP is 2 or 3, and its width is then the WIDTH field (R54, R56). -/
theorem decodeCommand_isBlockCommandOf {e : Nat} {c : Word} {i : Instr} (h : decodeCommand e c = .ok i) (w : BitVec 8) :
    IsBlockCommandOf e w i ↔ 2 ≤ c.toNat % 4 ∧ w = cmdWidth c := by
  have hop := cmdOp_toNat c
  unfold decodeCommand at h
  split at h
  · cases h
  split at h
  · next h0 =>
    cases h
    have : ¬ 2 ≤ c.toNat % 4 := by bv_omega
    simp [IsBlockCommandOf, this]
  split at h
  · next h1 =>
    cases h
    have : ¬ 2 ≤ c.toNat % 4 := by bv_omega
    simp [IsBlockCommandOf, this]
  split at h
  · next h2 =>
    cases h
    have : 2 ≤ c.toNat % 4 := by bv_omega
    simp [IsBlockCommandOf, this, eq_comm]
  · next h0 h1 h2 =>
    cases h
    have : 2 ≤ c.toNat % 4 := by bv_omega
    simp [IsBlockCommandOf, this, eq_comm]

/-- Settles O52: the engine's step is its command's exec, whose completion frames the host and the other engines. -/
theorem performStepCompletesTheCommand : Obligations.PerformStepCompletesTheCommand := by
  intro s t e c i g hg hc hd
  have hi := decodeCommand_isCommandOf hd
  have hstep := stepAs_engine hg hc hd
  refine ⟨engine_mem_enabled.mpr (engineEnabled_iff.mpr ⟨g, c, hg, hc⟩), hstep, fun h => ?_⟩
  obtain ⟨m, g₀, g', hg₀, rfl, -, hin, hst, -⟩ := command_next hi (hstep ▸ h)
  obtain ⟨hlt, -⟩ := List.getElem?_eq_some_iff.mp hg
  refine ⟨g', List.getElem?_set_self hlt, hin, hst ▸ completionStatus_busy i, ?_,
    ⟨by simp, fun e' he' => List.getElem?_set_ne he'.symm⟩, rfl, rfl, rfl, rfl, rfl, rfl⟩
  rw [hst]
  obtain ⟨hcode, hblock, hw⟩ | ⟨hcode, hval, hlegal⟩ := completionStatus_error hi
  · obtain ⟨hop, hval⟩ := (decodeCommand_isBlockCommandOf hd _).mp hblock
    exact .inl ⟨hop, hval ▸ hw, hcode, hval⟩
  · refine .inr ⟨fun ⟨hop, hw⟩ => hw (hlegal _ ?_), hcode, hval⟩
    exact (decodeCommand_isBlockCommandOf hd _).mpr ⟨hop, rfl⟩

/-! ## Undefined register accesses (R19, R23, R26, R105) -/

/-- The host's step at an access the block does not define. -/
theorem stepAs_host_unmapped {s : State} {x : Access} (hl : s.prog[s.hpc]? = some (.access x))
    (hd : decodeAccess s.cfg x = .error .unmapped) : stepAs .host s = .refused .unmapped := by
  simp [stepAs, fetch, hl, hd, refusalOf]

theorem decodeAccess_regRead_cmd {cfg : Config} {e : Nat} (he : e < cfg.nEngines) :
    decodeAccess cfg (.regRead 8 (regAddr cfg e 0x000)) = .error .unmapped := by
  simp [decodeAccess, locate_regAddr he, regAt]

theorem decodeAccess_regWrite_status {cfg : Config} {e : Nat} (he : e < cfg.nEngines) (d : Word) :
    decodeAccess cfg (.regWrite 8 (regAddr cfg e 0x008) d) = .error .unmapped := by
  simp [decodeAccess, locate_regAddr he, regAt]

/-- No register stands at a reserved offset. -/
theorem locate_reserved {cfg : Config} {e off : Nat} (he : e < cfg.nEngines) (ho : off < 0x100) (h0 : off ≠ 0x000)
    (h8 : off ≠ 0x008) (hv : ¬ ∃ k, k < 8 ∧ off = 0x040 + 8 * k) : locate cfg (regAddr cfg e off) = none := by
  rw [locate_regAddr he ho, Option.map_eq_none_iff, Option.eq_none_iff_forall_ne_some]
  intro r hr
  obtain ⟨h, -⟩ | ⟨h, -⟩ | ⟨k, hk, h, -⟩ := regAt_eq_some.mp hr
  · exact h0 h
  · exact h8 h
  · exact hv ⟨k, hk, h⟩

theorem decodeAccess_regRead_of_locate_none {cfg : Config} {addr : Nat} (h : locate cfg addr = none) :
    decodeAccess cfg (.regRead 8 addr) = .error .unmapped := by simp [decodeAccess, h]

theorem decodeAccess_regWrite_of_locate_none {cfg : Config} {addr : Nat} (h : locate cfg addr = none) (d : Word) :
    decodeAccess cfg (.regWrite 8 addr d) = .error .unmapped := by simp [decodeAccess, h]

/-- STATUS stands at offset 0x008 of its window (R19). -/
theorem locate_status {cfg : Config} {addr e : Nat} (h : locate cfg addr = some (e, .status)) :
    e < cfg.nEngines ∧ addr = regAddr cfg e 0x008 := by
  obtain ⟨off, he, -, rfl, hr⟩ := locate_eq_some.mp h
  obtain ⟨-, hr⟩ | ⟨rfl, -⟩ | ⟨k, -, -, hr⟩ := regAt_eq_some.mp hr
  · cases hr
  · exact ⟨he, rfl⟩
  · cases hr

theorem decodeAccess_regPoll_unmapped {cfg : Config} {addr : Nat}
    (h : ∀ e, e < cfg.nEngines → addr ≠ regAddr cfg e 0x008) : decodeAccess cfg (.regPoll addr) = .error .unmapped := by
  rw [decodeAccess]
  split
  · next e hl =>
    obtain ⟨he, haddr⟩ := locate_status hl
    exact absurd haddr (h e he)
  · rfl

/-- Settles O9: each of these accesses is rejected by the decoder. -/
theorem undefinedRegisterAccessesAreRefused : Obligations.UndefinedRegisterAccessesAreRefused := by
  intro s d
  refine ⟨fun e off he ho => ⟨?_, ?_, fun h0 h8 hv => ?_⟩, fun addr haddr hl => ?_⟩
  · exact fun hl => stepAs_host_unmapped hl (decodeAccess_regRead_cmd he)
  · exact fun hl => stepAs_host_unmapped hl (decodeAccess_regWrite_status he d)
  · have hres := locate_reserved he ho h0 h8 hv
    exact ⟨fun hl => stepAs_host_unmapped hl (decodeAccess_regRead_of_locate_none hres),
      fun hl => stepAs_host_unmapped hl (decodeAccess_regWrite_of_locate_none hres d)⟩
  · exact stepAs_host_unmapped hl (decodeAccess_regPoll_unmapped haddr)

/-! ## Reset (R33) -/

theorem launch_engine {cfg : Config} {bufInit : List Host.Cell} {prog : List Line} {sched : List Agent} {e : Nat}
    {g : Engine} (h : (State.launch cfg bufInit prog sched).engines[e]? = some g) :
    e < cfg.nEngines ∧ g = Engine.reset := by
  simpa [State.launch, List.getElem?_replicate, eq_comm] using h

theorem reset_val (k : Fin 8) : Engine.reset.val k = none := by simp [Engine.val, Engine.reset]

/-- Settles O11: every engine of a launch state is `Engine.reset`. -/
theorem resetLeavesTheStatedValues : Obligations.ResetLeavesTheStatedValues := by
  intro cfg bufInit prog sched
  refine ⟨rfl, by simp [State.launch], fun e g hg => ?_⟩
  obtain ⟨he, rfl⟩ := launch_engine hg
  exact ⟨rfl, rfl, rfl, rfl, rfl, reset_val, decodeAccess_regRead_cmd he⟩

/-! ## The status word (R26) -/

/-- STATUS as the sum of its fields at their places: no two of them share a bit (R26). -/
theorem status_word_toNat (t : Status) :
    t.word.toNat = t.errVal.toNat * 2 ^ 8 + (t.errCode.toNat * 2 ^ 1 + t.busy.toNat) := by
  have hval := t.errVal.isLt
  have hcode := t.errCode.isLt
  have hbusy := Bool.toNat_lt t.busy
  have hb : (if t.busy then 1#64 else 0#64).toNat = t.busy.toNat := by cases t.busy <;> rfl
  have hc : (t.errCode.setWidth 64 <<< 1).toNat = t.errCode.toNat <<< 1 := by
    rw [BitVec.toNat_shiftLeft, BitVec.toNat_setWidth, Nat.shiftLeft_eq, Nat.shiftLeft_eq]; omega
  have hv : (t.errVal.setWidth 64 <<< 8).toNat = t.errVal.toNat <<< 8 := by
    rw [BitVec.toNat_shiftLeft, BitVec.toNat_setWidth, Nat.shiftLeft_eq, Nat.shiftLeft_eq]; omega
  have hlow : t.errCode.toNat <<< 1 + t.busy.toNat < 2 ^ 8 := by rw [Nat.shiftLeft_eq]; omega
  rw [Status.word, BitVec.toNat_or, BitVec.toNat_or, hb, hc, hv, Nat.or_comm t.busy.toNat,
    ← Nat.shiftLeft_add_eq_or_of_lt (by omega), Nat.or_comm, ← Nat.shiftLeft_add_eq_or_of_lt hlow,
    Nat.shiftLeft_eq, Nat.shiftLeft_eq]

/-- Settles O42: each clause is a slice of that sum. -/
theorem statusWordPlacesItsFields : Obligations.StatusWordPlacesItsFields := by
  intro t
  have hword := status_word_toNat t
  have hval := t.errVal.isLt
  have hcode := t.errCode.isLt
  have hbusy := Bool.toNat_lt t.busy
  have hlow : t.word.toNat % 2 = t.busy.toNat := by omega
  refine ⟨?_, ?_, ?_, ?_, ?_⟩
  · rw [BitVec.getLsbD, Nat.testBit_zero, hlow]
    cases t.busy <;> rfl
  · apply BitVec.eq_of_toNat_eq
    rw [toNat_field]; omega
  · apply BitVec.eq_of_toNat_eq
    rw [toNat_field, BitVec.toNat_ofNat]; omega
  · apply BitVec.eq_of_toNat_eq
    rw [toNat_field]; omega
  · apply BitVec.eq_of_toNat_eq
    rw [toNat_field, BitVec.toNat_ofNat]; omega

end Sys2Proof.Machine
end

section
/-! PROOFS. The memory statements (20_memory.md): the host accesses that are refused, the read and write sets of a
command word, repeated commands, the hazards of a busy engine, and commands in flight together. -/

namespace Sys2Proof.Machine

open Sys2Proof.Claims

/-! ## One agent's step (R46, R91, R99) -/

/-- The step of an agent that has something to fetch is the meaning of what it decodes. -/
theorem stepAs_of_decode {a : Agent} {s : State} {code : Code} {i : Instr} (hf : fetch s a = some code)
    (hd : decode s.cfg code = .ok i) : stepAs a s = exec i s := by
  simp [stepAs, hf, hd]

/-- The order's bookkeeping changes nothing that an agent fetches (log 3). -/
@[simp] theorem fetch_tick (s : State) (a : Agent) : fetch s.tick a = fetch s a := by
  cases a <;> rfl

/-- Settles O48: the agent fetches and decodes after the bookkeeping what it did before it. -/
theorem stepRunsTheDecodedInstruction : Obligations.StepRunsTheDecodedInstruction := by
  intro s a code i ha hf hd
  rw [step, ha]
  exact stepAs_of_decode (by rwa [fetch_tick]) hd

/-! ## Accesses of another width or alignment (R53, R105) -/

/-- Every register stands at a multiple of 8 of its window (R19). -/
theorem regAt_aligned {off : Nat} {r : Reg} (h : regAt off = some r) : off % 8 = 0 := by
  obtain ⟨rfl, -⟩ | ⟨rfl, -⟩ | ⟨k, -, rfl, -⟩ := regAt_eq_some.mp h
  · rfl
  · rfl
  · omega

/-- A misaligned address names no register. -/
theorem locate_misaligned {cfg : Config} {addr : Nat} (h : (addr - cfg.regBase) % 8 ≠ 0) : locate cfg addr = none := by
  rw [Option.eq_none_iff_forall_ne_some]
  rintro ⟨e, r⟩ hl
  obtain ⟨off, -, -, rfl, hr⟩ := locate_eq_some.mp hl
  have hoff := regAt_aligned hr
  rw [regAddr] at h
  omega

theorem decodeAccess_regWrite_width {cfg : Config} {n : Nat} (hn : n ≠ 8) (addr : Nat) (d : Word) :
    decodeAccess cfg (.regWrite n addr d) = .error .unmapped := by simp [decodeAccess, hn]

theorem decodeAccess_regRead_width {cfg : Config} {n : Nat} (hn : n ≠ 8) (addr : Nat) :
    decodeAccess cfg (.regRead n addr) = .error .unmapped := by simp [decodeAccess, hn]

theorem decodeAccess_bufWrite_width {cfg : Config} {n : Nat} (hn : n ≠ 1) (addr : Nat) (v : Byte) :
    decodeAccess cfg (.bufWrite n addr v) = .error .unmapped := by simp [decodeAccess, hn]

theorem decodeAccess_bufRead_width {cfg : Config} {n : Nat} (hn : n ≠ 1) (addr : Nat) :
    decodeAccess cfg (.bufRead n addr) = .error .unmapped := by simp [decodeAccess, hn]

/-- Settles O8: the decoder rejects each access, by its width or because its address names no register. -/
theorem hostAccessWidthsAndAlignment : Obligations.HostAccessWidthsAndAlignment := by
  intro s n addr d v
  refine ⟨fun h => ?_, fun hn => ?_⟩
  · by_cases hn : n = 8
    · subst hn
      have hloc : locate s.cfg addr = none := locate_misaligned (by simpa using h.imp_right And.right)
      exact ⟨fun hl => stepAs_host_unmapped hl (decodeAccess_regWrite_of_locate_none hloc d),
        fun hl => stepAs_host_unmapped hl (decodeAccess_regRead_of_locate_none hloc)⟩
    · exact ⟨fun hl => stepAs_host_unmapped hl (decodeAccess_regWrite_width hn addr d),
        fun hl => stepAs_host_unmapped hl (decodeAccess_regRead_width hn addr)⟩
  · exact ⟨fun hl => stepAs_host_unmapped hl (decodeAccess_bufWrite_width hn addr v),
      fun hl => stepAs_host_unmapped hl (decodeAccess_bufRead_width hn addr)⟩

/-! ## The read and write sets of a command word (R42) -/

theorem cmdWidth_toNat (c : Word) : (cmdWidth c).toNat = c.toNat / 2 ^ 8 % 2 ^ 8 := toNat_field c 8 8

theorem cmdBitOff_toNat (c : Word) : (cmdBitOff c).toNat = c.toNat / 2 ^ 2 % 2 ^ 3 := toNat_field c 2 3

theorem cmdByteOff_toNat (c : Word) : (cmdByteOff c).toNat = c.toNat / 2 ^ 32 := by
  have hc := c.isLt
  rw [cmdByteOff, toNat_field]
  omega

/-- No address is in an empty set. -/
theorem span_empty_has (o a : Nat) : Span.has ⟨o, 0⟩ a = false := by
  simp [Span.has]

/-- The one byte that PACK reads. -/
theorem span_head_has {o b w a : Nat} :
    Span.has ⟨o, if 0 < b ∧ 1 ≤ w then 1 else 0⟩ a = true ↔ 0 < b ∧ 1 ≤ w ∧ a = o := by
  rw [span_has_iff]
  dsimp only
  split <;> omega

/-- The footprint of a field. -/
theorem span_footprint_has {o b w a : Nat} :
    Span.has ⟨o, footLen b w⟩ a = true ↔ w ≠ 0 ∧ o ≤ a ∧ a < o + (b + w + 7) / 8 := by
  rw [span_has_iff]
  by_cases hw : w = 0
  · subst hw; simp only [footLen, if_true]; omega
  · simp only [footLen_pos hw]; omega

/-- The block of a block command, empty when the width is not legal. -/
theorem span_block_has {o w a : Nat} :
    Span.has ⟨o, if legalWidth w then w else 0⟩ a = true ↔ 1 ≤ w ∧ w ≤ 63 ∧ o ≤ a ∧ a < o + w := by
  rw [span_has_iff]
  dsimp only
  split
  · next hw => have := legalWidth_iff.mp hw; omega
  · next hw => have := mt legalWidth_iff.mpr hw; omega

/-- Settles O36: the fields are slices of the word, and each OP has its own sets. -/
theorem readAndWriteSetsAreThoseOfTheTable : Obligations.ReadAndWriteSetsAreThoseOfTheTable := by
  intro c a
  dsimp only
  rw [← cmdWidth_toNat, ← cmdBitOff_toNat, ← cmdByteOff_toNat, ← cmdOp_toNat]
  obtain hop | hop | hop | hop : cmdOp c = 0#2 ∨ cmdOp c = 1#2 ∨ cmdOp c = 2#2 ∨ cmdOp c = 3#2 := by bv_omega
  · simp [readSpan, writeSpan, hop, span_head_has, span_footprint_has]
  · simp [readSpan, writeSpan, hop, span_footprint_has, span_empty_has]
  · simp [readSpan, writeSpan, hop, span_block_has, span_empty_has]
  · simp [readSpan, writeSpan, hop, span_block_has, span_empty_has]

/-! ## Hazards (R47) -/

theorem execCmd_busy {s : State} {e : Nat} {g : Engine} (hg : s.engines[e]? = some g) (hb : g.status.busy = true)
    (c : Word) : execCmd e c s = .fault .hazard := by simp [execCmd, withEngine_some _ hg, hb]

theorem execWrval_busy {s : State} {e : Nat} {g : Engine} (hg : s.engines[e]? = some g) (hb : g.status.busy = true)
    (k : Fin 8) (v : Word) : execWrval e k v s = .fault .hazard := by
  simp [execWrval, withEngine_some _ hg, withReg_lt _ k.isLt, hb]

theorem execRdval_busy {s : State} {e : Nat} {g : Engine} (hg : s.engines[e]? = some g) (hb : g.status.busy = true)
    (k : Fin 8) : execRdval e k s = .fault .hazard := by
  simp [execRdval, withEngine_some _ hg, withReg_lt _ k.isLt, hb]

theorem execWrbuf_hazard {s : State} {a : Nat} (ha : a < s.cfg.bufBytes) (hz : writeHazard s a = true) (v : Byte) :
    execWrbuf a v s = .fault .hazard := by simp [execWrbuf, Nat.not_le.mpr ha, hz]

theorem execRdbuf_hazard {s : State} {a : Nat} (ha : a < s.cfg.bufBytes) (hz : readHazard s a = true) :
    execRdbuf a s = .fault .hazard := by simp [execRdbuf, Nat.not_le.mpr ha, hz]

theorem execRdstatus_eq_next {s : State} {e : Nat} {g : Engine} (hg : s.engines[e]? = some g) :
    execRdstatus e s = .next (s.log (.status e g.status.word)).advance := by
  rw [execRdstatus, withEngine_some _ hg]

/-- Settles O46: the busy engine raises the host's own check of each of these actions; a read of STATUS has none. -/
theorem busyWindowHazards : Obligations.BusyWindowHazards := by
  intro s e a g c c' k v x hg hb hc
  have hmem := List.mem_of_getElem? hg
  refine ⟨fun ha hfoot => execWrbuf_hazard ha (writeHazard_iff.mpr ⟨g, hmem, hb, c, hc, ?_⟩) x,
    fun ha hwr => execRdbuf_hazard ha (readHazard_iff.mpr ⟨g, hmem, hb, c, hc, hwr⟩),
    execCmd_busy hg hb c', execWrval_busy hg hb k v, execRdval_busy hg hb k, _, execRdstatus_eq_next hg⟩
  simpa [footHas] using hfoot

/-! ## Replacing an engine, and runs of bytes that commute -/

theorem setEngine_get_same {s : State} {e : Nat} {g : Engine} (hg : s.engines[e]? = some g) (g' : Engine) :
    (s.setEngine e g').engines[e]? = some g' :=
  List.getElem?_set_self (List.getElem?_eq_some_iff.mp hg).1

theorem setEngine_get_other (s : State) {e e' : Nat} (he : e ≠ e') (g : Engine) :
    (s.setEngine e g).engines[e']? = s.engines[e']? := List.getElem?_set_ne he

/-- Replacing the buffer and an engine twice leaves what the second replacement gave. -/
theorem setBuf_setEngine_twice (s : State) (m m' : List Host.Cell) (e : Nat) (g g' : Engine) :
    (((s.setBuf m).setEngine e g).setBuf m').setEngine e g' = (s.setBuf m').setEngine e g' := by
  simp [State.setBuf, State.setEngine]

theorem setEngine_twice (s : State) (e : Nat) (g g' : Engine) :
    (s.setEngine e g).setEngine e g' = s.setEngine e g' := setBuf_setEngine_twice s s.buf s.buf e g g'

/-- A write to a byte outside a run may come before it or after it. -/
theorem writeBytes_writeByte_comm (bs : List Byte) (m : List Host.Cell) {a x : Nat} (v : Byte)
    (h : ¬ (a ≤ x ∧ x < a + bs.length)) : writeBytes (writeByte m x v) a bs = writeByte (writeBytes m a bs) x v := by
  induction bs generalizing m a with
  | nil => rfl
  | cons b bs ih =>
    rw [List.length_cons] at h
    rw [writeBytes, writeBytes, writeByte_comm m v b (by omega), ih _ (by omega)]

/-- Two runs that share no byte commute. -/
theorem writeBytes_comm (bs bs' : List Byte) (m : List Host.Cell) {a a' : Nat}
    (h : ∀ x, a ≤ x ∧ x < a + bs.length → ¬ (a' ≤ x ∧ x < a' + bs'.length)) :
    writeBytes (writeBytes m a bs) a' bs' = writeBytes (writeBytes m a' bs') a bs := by
  induction bs generalizing m a with
  | nil => rfl
  | cons b bs ih =>
    rw [List.length_cons] at h
    rw [writeBytes, writeBytes, ih _ (fun x hx => h x (by omega)), writeBytes_writeByte_comm bs' m b (h a (by omega))]

/-- A run stored over a run of the same bytes leaves the second. -/
theorem writeBytes_writeBytes_same {bs bs' : List Byte} (m : List Host.Cell) (a : Nat) (h : bs.length = bs'.length) :
    writeBytes (writeBytes m a bs) a bs' = writeBytes m a bs' := by
  induction bs generalizing m a bs' with
  | nil => rw [writeBytes]
  | cons b bs ih =>
    obtain _ | ⟨b', bs'⟩ := bs'
    · cases h
    · rw [writeBytes, writeBytes, ← writeBytes_writeByte_comm bs _ b' (by omega), writeByte_writeByte_same,
        ih _ _ (Nat.succ.inj h), writeBytes]

/-! ## Repeated commands (R45) -/

/-- PACK's buffer write repeated: the byte it OR-ed into already holds the image's bits (R66). -/
theorem packField_repeat {m m' : List Host.Cell} {o b w v : Nat} (hw : w ≠ 0) (h : packField m o b w v = some m') :
    packField m' o b w v = some m' := by
  obtain ⟨rfl, rfl⟩ | ⟨hb, old, -, rfl⟩ := packField_some h
  · simp [packField, writeBytes_writeBytes_same]
  · obtain ⟨x, xs, himage⟩ : ∃ x xs, image v w b = x :: xs :=
      List.exists_cons_of_length_pos (by rw [image_length, footLen_pos hw]; omega)
    simp [packField, hb, himage, orHead, readByte_writeBytes, writeBytes_writeBytes_same, BitVec.or_assoc]

/-- A register set again to the value a completed command gave it. -/
theorem setVal_succeed_repeat (g : Engine) (k : Fin 8) (v : Word) :
    ((g.setVal k v).succeed.setVal k v).succeed = (g.setVal k v).succeed := by
  simp [Engine.setVal, Engine.succeed, Engine.complete]

/-- The report of an illegal width repeated (R75, R103). -/
theorem invalidWidth_repeat (s : State) (e : Nat) (g : Engine) (w : BitVec 8) :
    (s.invalidWidth e g w).invalidWidth e (g.complete errInvalidWidth w) w = s.invalidWidth e g w :=
  setEngine_twice s e _ _

theorem execPack_repeat {e w k o b} {s t : State} (h : execPack e w k o b s = .next t) :
    execPack e w k o b t = .next t := by
  obtain ⟨g, v, m, hg, hw, hv, hfit, hin, hm, rfl⟩ := execPack_next h
  have hm' := packField_repeat (Nat.ne_of_gt (legalWidth_iff.mp hw).1) hm
  rw [execPack_eq_next (setEngine_get_same (s := s.setBuf m) hg g.succeed) hw hv hfit hin hm', setBuf_setEngine_twice]
  rfl

theorem execUnpack_repeat {e w k o b} {s t : State} (h : execUnpack e w k o b s = .next t) :
    execUnpack e w k o b t = .next t := by
  obtain ⟨g, v, hg, hw, hin, hv, rfl⟩ := execUnpack_next h
  rw [execUnpack_eq_next (setEngine_get_same hg _) hw hin hv, setEngine_twice, setVal_succeed_repeat]

theorem execPack8_repeat {e w o} {s t : State} (h : execPack8 e w o s = .next t) : execPack8 e w o t = .next t := by
  obtain ⟨g, hg, ⟨hw, rfl⟩ | ⟨hw, vs, hvs, hfit, hin, rfl⟩⟩ := execPack8_next h
  · exact (execPack8_illegal (setEngine_get_same hg _) hw).trans (congrArg _ (invalidWidth_repeat s e g w))
  · have hgt := setEngine_get_same (s := s.setBuf (packBlock s.buf o.toNat w.toNat vs)) hg g.succeed
    rw [execPack8_eq_next hgt hw hvs hfit hin, setBuf_setEngine_twice]
    simp only [setEngine_buf, setBuf_buf, packBlock, writeBytes_writeBytes_same]
    rfl

theorem execUnpack8_repeat {e w o} {s t : State} (h : execUnpack8 e w o s = .next t) :
    execUnpack8 e w o t = .next t := by
  obtain ⟨g, hg, ⟨hw, rfl⟩ | ⟨hw, x, hx, hin, rfl⟩⟩ := execUnpack8_next h
  · exact (execUnpack8_illegal (setEngine_get_same hg _) hw).trans (congrArg _ (invalidWidth_repeat s e g w))
  · rw [execUnpack8_eq_next (setEngine_get_same hg _) hw hin hx, setEngine_twice]
    rfl

/-- Settles O35: each command finds in the state it left the operands it had, and stores again what it stored. -/
theorem repeatingACommandChangesNothing : Obligations.RepeatingACommandChangesNothing := by
  intro s t e i hi h
  obtain ⟨w, k, o, b, rfl⟩ | ⟨w, k, o, b, rfl⟩ | ⟨w, o, rfl⟩ | ⟨w, o, rfl⟩ := hi
  · exact execPack_repeat h
  · exact execUnpack_repeat h
  · exact execPack8_repeat h
  · exact execUnpack8_repeat h

/-! ## Commands in flight (R46, R47, R51) -/

theorem decodeAccess_hostAction {cfg : Config} {x : Access} {i : Instr} (h : decodeAccess cfg x = .ok i) :
    performer i = none := by
  cases x <;> simp only [decodeAccess] at h
  all_goals
    repeat' split at h
    all_goals cases h <;> rfl

theorem decodeLine_hostAction {cfg : Config} {l : Line} {i : Instr} (h : decodeLine cfg l = .ok i) :
    performer i = none := by
  unfold decodeLine at h
  split at h
  · exact decodeAccess_hostAction h
  · split at h
    · exact decodeAccess_hostAction h
    · cases h

/-- What the host fetches and decodes is no command (R61, R92 to R98). -/
theorem host_decodes_action {s : State} {code : Code} {i : Instr} (hf : fetch s .host = some code)
    (hd : decode s.cfg code = .ok i) : performer i = none := by
  obtain ⟨l, -, rfl⟩ := Option.map_eq_some_iff.mp hf
  exact decodeLine_hostAction hd

/-- A host action replaces at most one engine, which is idle, or else writes at most one byte, which is no hazard. -/
theorem hostAction_next {i : Instr} {s t : State} (hi : performer i = none) (h : exec i s = .next t) :
    (t.buf = s.buf ∧ ∃ e g g', s.engines[e]? = some g ∧ g.status.busy = false ∧ t.engines = s.engines.set e g') ∨
    (t.engines = s.engines ∧ (t.buf = s.buf ∨ ∃ a v, writeHazard s a = false ∧ t.buf = writeByte s.buf a v)) := by
  cases i with
  | pack | unpack | pack8 | unpack8 => cases hi
  | cmd e c =>
    obtain ⟨g, hg, hidle, -, -, rfl⟩ := execCmd_next h
    exact .inl ⟨rfl, e, g, _, hg, hidle, rfl⟩
  | wrval e k v =>
    obtain ⟨g, hk, hg, hidle, rfl⟩ := execWrval_next h
    exact .inl ⟨rfl, e, g, _, hg, hidle, rfl⟩
  | rdval e k =>
    obtain ⟨g, v, -, -, -, -, rfl⟩ := execRdval_next h
    exact .inr ⟨rfl, .inl rfl⟩
  | rdstatus e =>
    obtain ⟨g, -, rfl⟩ := execRdstatus_next h
    exact .inr ⟨rfl, .inl rfl⟩
  | wrbuf a v =>
    obtain ⟨-, hfree, rfl⟩ := execWrbuf_next h
    exact .inr ⟨rfl, .inr ⟨a, v, hfree, rfl⟩⟩
  | rdbuf a =>
    obtain ⟨v, -, -, -, rfl⟩ := execRdbuf_next h
    exact .inr ⟨rfl, .inl rfl⟩
  | wait e =>
    obtain ⟨g, -, ⟨-, rfl⟩ | ⟨-, rfl⟩⟩ := execWait_next h
    · exact .inr ⟨rfl, .inl rfl⟩
    · exact .inr ⟨rfl, .inl rfl⟩

/-- Engine `e` and the bytes of `c` are as before. -/
def InFlightSame (e : Nat) (c : Word) (s t : State) : Prop :=
  t.engines[e]? = s.engines[e]? ∧ ∀ x, footHas c x = true → readByte t.buf x = readByte s.buf x

/-- A host action leaves a busy engine and the bytes of its command alone (R47). -/
theorem hostAction_inFlightSame {i : Instr} {s t : State} {e : Nat} {g : Engine} {c : Word} (hi : performer i = none)
    (h : exec i s = .next t) (hg : s.engines[e]? = some g) (hb : g.status.busy = true) (hc : g.inflight = some c) :
    InFlightSame e c s t := by
  obtain ⟨hbuf, e', g₀, g', hg₀, hidle, hengines⟩ | ⟨hengines, hbuf | ⟨a, v, hfree, hbuf⟩⟩ := hostAction_next hi h
  · have hne : e' ≠ e := by
      rintro rfl
      obtain rfl : g = g₀ := Option.some.inj (hg.symm.trans hg₀)
      exact absurd hb (by simp [hidle])
    exact ⟨by rw [hengines, List.getElem?_set_ne hne], fun x _ => by rw [hbuf]⟩
  · exact ⟨by rw [hengines], fun x _ => by rw [hbuf]⟩
  · refine ⟨by rw [hengines], fun x hx => ?_⟩
    have hne : a ≠ x := by
      rintro rfl
      exact absurd (writeHazard_iff.mpr ⟨g, List.mem_of_getElem? hg, hb, c, hc, hx⟩) (by simp [hfree])
    rw [hbuf, readByte_writeByte_other _ _ hne]

/-- A command leaves another engine and the bytes of a command it does not conflict with alone (R41, R48). -/
theorem command_inFlightSame {i : Instr} {s t : State} {e e' : Nat} {c c' : Word} (hd : decodeCommand e' c' = .ok i)
    (h : exec i s = .next t) (hne : e' ≠ e) (hfree : conflict c' c = false) : InFlightSame e c s t := by
  obtain ⟨m, -, g', -, ht, -⟩ := command_next (decodeCommand_isCommandOf hd) h
  refine ⟨by rw [ht]; exact setEngine_get_other _ hne g', fun x hx => ?_⟩
  obtain ⟨hframe, -⟩ := commandsStayInTheirFootprint s t e' c' i hd h
  refine hframe x (Bool.eq_false_iff.mpr fun hwr => ?_)
  have hout := (conflict_false_iff.mp hfree x).1 hwr
  exact absurd hx (by simp [hout])

/-- Settles O53: the host's checks of R47 and the absence of conflicts in `Inv` keep every other agent off. -/
theorem nothingTouchesACommandInFlight : Obligations.NothingTouchesACommandInFlight := by
  intro s t e g c a hs hg hc hne h
  suffices hsame : InFlightSame e c s t from ⟨hsame.1.trans hg, hsame.2⟩
  obtain ⟨-, rfl⟩ | ⟨code, i, hf, hd, hi⟩ := stepAs_next h
  · exact ⟨rfl, fun _ _ => rfl⟩
  cases a with
  | host =>
    have hb : g.status.busy = true := by rw [(hs.engine g (List.mem_of_getElem? hg)).busy, hc]; rfl
    exact hostAction_inFlightSame (host_decodes_action hf hd) hi hg hb hc
  | engine e' =>
    have hne' : e' ≠ e := fun he => hne (congrArg Agent.engine he)
    obtain ⟨g', c', hg', hc', rfl⟩ := fetch_engine_iff.mp hf
    exact command_inFlightSame hd hi hne' (hs.race e' e g' g c' c hne' hg' hg hc' hc)

/-! ## Two commands in flight (R46, R48) -/

/-- The state after engine `e` has stored the run `bs` at `a` and become `g`. -/
def State.storeRun (s : State) (a : Nat) (bs : List Byte) (e : Nat) (g : Engine) : State :=
  (s.setBuf (writeBytes s.buf a bs)).setEngine e g

/-- Runs of two engines that share no byte commute. -/
theorem storeRun_comm (s : State) {a a' e e' : Nat} {bs bs' : List Byte} (g g' : Engine) (hne : e ≠ e')
    (h : ∀ x, a ≤ x ∧ x < a + bs.length → ¬ (a' ≤ x ∧ x < a' + bs'.length)) :
    (s.storeRun a bs e g).storeRun a' bs' e' g' = (s.storeRun a' bs' e' g').storeRun a bs e g := by
  simp [State.storeRun, State.setBuf, State.setEngine, writeBytes_comm bs bs' s.buf h, List.set_comm g g' hne]

/-- Command `i` of engine `e`, which completes in `s`, stores one run over `wr` and changes no engine but its own; and
it does the same in every state with the same parameters, the same engine `e` and the same bytes in `rd`. -/
def PerformsRun (i : Instr) (e : Nat) (rd wr : Span) (s : State) : Prop :=
  ∃ (g g' : Engine) (bs : List Byte), s.engines[e]? = some g ∧ bs.length = wr.len ∧
    ∀ u : State, u.cfg = s.cfg → u.engines[e]? = some g →
      (∀ a, rd.has a = true → readByte u.buf a = readByte s.buf a) → exec i u = .next (u.storeRun wr.start bs e g')

theorem pack_performsRun {e w k o b} {s t : State} (h : execPack e w k o b s = .next t) :
    PerformsRun (.pack e w k o b) e (instrReadSpan (.pack e w k o b)) (instrWriteSpan (.pack e w k o b)) s := by
  obtain ⟨g, v, m, hg, hw, hv, hfit, hin, hm, -⟩ := execPack_next h
  obtain ⟨bs, hlen, hrun⟩ := packField_storesRun (legalWidth_iff.mp hw).1 hm
  exact ⟨g, g.succeed, bs, hg, hlen, fun u hcfg hgu hrd =>
    execPack_eq_next hgu hw hv hfit (hcfg ▸ hin) (hrun u.buf hrd)⟩

theorem unpack_performsRun {e w k o b} {s t : State} (h : execUnpack e w k o b s = .next t) :
    PerformsRun (.unpack e w k o b) e (instrReadSpan (.unpack e w k o b)) (instrWriteSpan (.unpack e w k o b)) s := by
  obtain ⟨g, v, hg, hw, hin, hv, -⟩ := execUnpack_next h
  exact ⟨g, _, [], hg, rfl, fun u hcfg hgu hrd => execUnpack_eq_next hgu hw (hcfg ▸ hin) <|
    (unpackField_congr fun a h1 h2 => hrd a (span_has_iff.mpr ⟨h1, h2⟩)).trans hv⟩

theorem pack8_performsRun {e w o} {s t : State} (h : execPack8 e w o s = .next t) :
    PerformsRun (.pack8 e w o) e (instrReadSpan (.pack8 e w o)) (instrWriteSpan (.pack8 e w o)) s := by
  obtain ⟨g, hg, ⟨hw, -⟩ | ⟨hw, vs, hvs, hfit, hin, -⟩⟩ := execPack8_next h
  · exact ⟨g, _, [], hg, by simp [instrWriteSpan, hw], fun u _ hgu _ => execPack8_illegal hgu hw⟩
  · exact ⟨g, _, splitBytes w.toNat (joinFields w.toNat vs), hg, by simp [instrWriteSpan, hw],
      fun u hcfg hgu _ => execPack8_eq_next hgu hw hvs hfit (hcfg ▸ hin)⟩

theorem unpack8_performsRun {e w o} {s t : State} (h : execUnpack8 e w o s = .next t) :
    PerformsRun (.unpack8 e w o) e (instrReadSpan (.unpack8 e w o)) (instrWriteSpan (.unpack8 e w o)) s := by
  obtain ⟨g, hg, ⟨hw, -⟩ | ⟨hw, x, hx, hin, -⟩⟩ := execUnpack8_next h
  · exact ⟨g, _, [], hg, rfl, fun u _ hgu _ => execUnpack8_illegal hgu hw⟩
  · refine ⟨g, _, [], hg, rfl, fun u hcfg hgu hrd => execUnpack8_eq_next (x := x) hgu hw (hcfg ▸ hin) ?_⟩
    refine (unpackBlock_congr fun a h1 h2 => hrd a ?_).trans hx
    simp [instrReadSpan, hw, Span.has, h1, h2]

/-- Every command that completes does so by what its own engine and its read set hold (R41, R42, R46). -/
theorem command_performsRun {e : Nat} {c : Word} {i : Instr} {s t : State} (hd : decodeCommand e c = .ok i)
    (h : exec i s = .next t) : PerformsRun i e (readSpan c) (writeSpan c) s := by
  obtain ⟨hrd, hwr⟩ := decodeCommand_spans hd
  rw [hrd, hwr]
  obtain ⟨-, ⟨w, k, o, b, rfl⟩ | ⟨w, k, o, b, rfl⟩ | ⟨w, o, rfl⟩ | ⟨w, o, rfl⟩⟩ := decodeCommand_ok hd
  · exact pack_performsRun h
  · exact unpack_performsRun h
  · exact pack8_performsRun h
  · exact unpack8_performsRun h

/-- A run over a span that shares no byte with the footprint of `c` leaves the bytes `c` reads. -/
theorem storeRun_keeps_readSpan {p : Span} {bs : List Byte} {c : Word} (s : State) (e : Nat) (g : Engine)
    (hlen : bs.length = p.len) (h : ∀ a, p.has a = true → footHas c a = false) :
    ∀ a, (readSpan c).has a = true → readByte (s.storeRun p.start bs e g).buf a = readByte s.buf a := by
  intro a ha
  refine readByte_writeBytes_of_not_has s.buf hlen (Bool.eq_false_iff.mpr fun hp => ?_)
  have hout := h a hp
  simp [footHas, ha] at hout

/-- Two commands of two engines that do not conflict complete in either order, with the same state. -/
theorem commands_commute {s u t : State} {e e' : Nat} {c c' : Word} {i i' : Instr} (hne : e ≠ e')
    (hd : decodeCommand e c = .ok i) (hd' : decodeCommand e' c' = .ok i') (hfree : conflict c c' = false)
    (h : exec i s = .next u) (h' : exec i' u = .next t) : ∃ u', exec i' s = .next u' ∧ exec i u' = .next t := by
  have hout := conflict_false_iff.mp hfree
  obtain ⟨g, g₁, bs, hg, hlen, hrun⟩ := command_performsRun hd h
  obtain rfl : u = s.storeRun (writeSpan c).start bs e g₁ := by
    injection h.symm.trans (hrun s rfl hg fun _ _ => rfl)
  obtain ⟨g', g₁', bs', hg', hlen', hrun'⟩ := command_performsRun hd' h'
  obtain rfl : t = (s.storeRun (writeSpan c).start bs e g₁).storeRun (writeSpan c').start bs' e' g₁' := by
    injection h'.symm.trans (hrun' _ rfl hg' fun _ _ => rfl)
  have hother : (s.storeRun (writeSpan c).start bs e g₁).engines[e']? = s.engines[e']? := setEngine_get_other _ hne g₁
  have hother' : (s.storeRun (writeSpan c').start bs' e' g₁').engines[e]? = s.engines[e]? :=
    setEngine_get_other _ hne.symm g₁'
  have hsecond := hrun' s rfl (hother.symm.trans hg') fun a ha =>
    (storeRun_keeps_readSpan s e g₁ hlen (fun x => (hout x).1) a ha).symm
  have hfirst := hrun (s.storeRun (writeSpan c').start bs' e' g₁') rfl (hother'.trans hg)
    (storeRun_keeps_readSpan s e' g₁' hlen' fun x => (hout x).2)
  refine ⟨_, hsecond, hfirst.trans (congrArg _ (storeRun_comm s g₁ g₁' hne fun x hx hx' => ?_).symm)⟩
  have hwr : (writeSpan c).has x = true := span_has_iff.mpr (hlen ▸ hx)
  have hwr' : (writeSpan c').has x = true := span_has_iff.mpr (hlen' ▸ hx')
  simpa [footHas, hwr'] using (hout x).1 hwr

/-- A run in a chosen order whose first agent can move is that agent's step and then the rest of the run (R100). -/
theorem runOrder_cons_next {a : Agent} {as : List Agent} {s t : State} (ha : a ∈ enabledAgents s) :
    runOrder (a :: as) s = .next t ↔ ∃ u, stepAs a s = .next u ∧ runOrder as u = .next t := by
  rw [runOrder, if_pos (List.contains_iff_mem.mpr ha)]
  cases stepAs a s <;> simp

/-- The perform step of an engine is the command its word decodes to (R99). -/
theorem stepAs_engine_next {s t : State} {e : Nat} {g : Engine} {c : Word} (hg : s.engines[e]? = some g)
    (hc : g.inflight = some c) (h : stepAs (.engine e) s = .next t) :
    ∃ i, decodeCommand e c = .ok i ∧ exec i s = .next t := by
  have hf : fetch s (.engine e) = some (.command e c) := fetch_engine_iff.mpr ⟨g, c, hg, hc, rfl⟩
  obtain ⟨hnone, -⟩ | ⟨code, i, hcode, hd, hi⟩ := stepAs_next h
  · simp [hf] at hnone
  · obtain rfl : Code.command e c = code := Option.some.inj (hf.symm.trans hcode)
    exact ⟨i, hd, hi⟩

theorem engine_mem_enabled_of {s : State} {e : Nat} {g : Engine} {c : Word} (hg : s.engines[e]? = some g)
    (hc : g.inflight = some c) : Agent.engine e ∈ enabledAgents s :=
  engine_mem_enabled.mpr (engineEnabled_iff.mpr ⟨g, c, hg, hc⟩)

/-- Settles O54: the two steps are two commands that do not conflict, and neither touches the other's engine. -/
theorem performStepsOfTwoEnginesCommute : Obligations.PerformStepsOfTwoEnginesCommute := by
  intro s t e e' hs hne h he he'
  obtain ⟨g, c, hg, hc⟩ := engineEnabled_iff.mp he
  obtain ⟨g', c', hg', hc'⟩ := engineEnabled_iff.mp he'
  have hfree := hs.race e e' g g' c c' hne hg hg' hc hc'
  obtain ⟨u, hu, h⟩ := (runOrder_cons_next (engine_mem_enabled_of hg hc)).mp h
  obtain ⟨i, hd, hi⟩ := stepAs_engine_next hg hc hu
  have hgu : u.engines[e']? = some g' := (command_inFlightSame hd hi hne hfree).1.trans hg'
  obtain ⟨v, hv, ⟨⟩⟩ := (runOrder_cons_next (engine_mem_enabled_of hgu hc')).mp h
  obtain ⟨i', hd', hi'⟩ := stepAs_engine_next hgu hc' hv
  obtain ⟨u', hu', ht⟩ := commands_commute hne hd hd' hfree hi hi'
  have hgu' : u'.engines[e]? = some g :=
    (command_inFlightSame hd' hu' hne.symm (conflict_comm c c' ▸ hfree)).1.trans hg
  refine (runOrder_cons_next (engine_mem_enabled_of hg' hc')).mpr ⟨u', (stepAs_engine hg' hc' hd').trans hu', ?_⟩
  exact (runOrder_cons_next (engine_mem_enabled_of hgu' hc)).mpr ⟨t, (stepAs_engine hgu' hc hd).trans ht, rfl⟩

end Sys2Proof.Machine
end

section
/-! PROOFS. The encoding statements (30_encoding.md): the command words that decode and the reserved ones, the round
trips between an instruction and its word or bus access, and the lines of a host program. -/

namespace Sys2Proof.Machine

open Sys2Proof.Claims

/-! ## Decoding an encoding (R54 to R56, R92 to R98) -/

/-- The round trip of each instruction, from the laws of its own encoding. -/
theorem decode_encode {cfg : Config} {i : Instr} (h : i.wellFormed cfg = true) : decode cfg (encode cfg i) = .ok i := by
  cases i with
  | pack e w s o b => exact Laws.RoundTrip.pack e w s o b cfg h
  | unpack e w s o b => exact Laws.RoundTrip.unpack e w s o b cfg h
  | pack8 e w o => exact Laws.RoundTrip.pack8 e w o cfg h
  | unpack8 e w o => exact Laws.RoundTrip.unpack8 e w o cfg h
  | cmd e c => exact Laws.RoundTrip.cmd e c cfg h
  | wrval e k v => exact Laws.RoundTrip.wrval e k v cfg h
  | rdval e k => exact Laws.RoundTrip.rdval e k cfg h
  | rdstatus e => exact Laws.RoundTrip.rdstatus e cfg h
  | wrbuf a v => exact Laws.RoundTrip.wrbuf a v cfg h
  | rdbuf a => exact Laws.RoundTrip.rdbuf a cfg h
  | wait e => exact Laws.RoundTrip.wait e cfg h

/-- Settles O1, one round trip per instruction. -/
theorem decodeOfEncodeIsTheInstruction : Obligations.DecodeOfEncodeIsTheInstruction := fun _ _ => decode_encode

/-! ## Reserved words (R57) -/

theorem cmdSlot_val (c : Word) : (cmdSlot c).val = c.toNat / 2 ^ 5 % 2 ^ 3 := toNat_field c 5 3

theorem cmdOp_cases (c : Word) : cmdOp c = 0#2 ∨ cmdOp c = 1#2 ∨ cmdOp c = 2#2 ∨ cmdOp c = 3#2 := by bv_omega

/-- A field is 0 as a bit vector exactly when it is as a natural. -/
theorem field_eq_zero_iff {c : Word} {lo n : Nat} : c.extractLsb' lo n = 0#n ↔ c.toNat / 2 ^ lo % 2 ^ n = 0 := by
  rw [← BitVec.toNat_inj, toNat_field, BitVec.toNat_zero]

theorem cmdOp_eq_iff {c : Word} {n : BitVec 2} : cmdOp c = n ↔ c.toNat % 4 = n.toNat := by
  rw [← cmdOp_toNat, BitVec.toNat_inj]

/-- The rule of R57, on the fields as naturals. -/
theorem reservedWord_iff {c : Word} : reservedWord c = true ↔
    c.toNat / 2 ^ 16 % 2 ^ 16 ≠ 0 ∨ (c.toNat / 2 ^ 2 % 2 ^ 6 ≠ 0 ∧ (c.toNat % 4 = 2 ∨ c.toNat % 4 = 3)) := by
  simp only [reservedWord, Bool.or_eq_true, Bool.and_eq_true, bne_iff_ne, beq_iff_eq, ne_eq, field_eq_zero_iff,
    cmdOp_eq_iff]
  exact or_congr_right And.comm

theorem execCmd_reserved {s : State} {e : Nat} {g : Engine} {c : Word} (hg : s.engines[e]? = some g)
    (hb : g.status.busy = false) (hr : reservedWord c = true) : execCmd e c s = .refused .reservedField := by
  simp [execCmd, withEngine_some _ hg, hb, hr]

/-- Settles O4: `reservedWord` is R57's rule, and the check for it comes next after the busy engine's. -/
theorem reservedWordsAreRefusedAtIssue : Obligations.ReservedWordsAreRefusedAtIssue :=
  ⟨fun _ => reservedWord_iff, fun _ _ _ _ => execCmd_reserved⟩

/-! ## The words that are not reserved (R55, R56, R58, R60) -/

section
variable {e : Nat} {c : Word} (hr : reservedWord c = false)
include hr

theorem decodeCommand_of_op_pack (hop : cmdOp c = 0#2) :
    decodeCommand e c = .ok (.pack e (cmdWidth c) (cmdSlot c) (cmdByteOff c) (cmdBitOff c)) := by
  simp [decodeCommand, hr, hop]

theorem decodeCommand_of_op_unpack (hop : cmdOp c = 1#2) :
    decodeCommand e c = .ok (.unpack e (cmdWidth c) (cmdSlot c) (cmdByteOff c) (cmdBitOff c)) := by
  simp [decodeCommand, hr, hop]

theorem decodeCommand_of_op_pack8 (hop : cmdOp c = 2#2) :
    decodeCommand e c = .ok (.pack8 e (cmdWidth c) (cmdByteOff c)) := by
  simp [decodeCommand, hr, hop]

theorem decodeCommand_of_op_unpack8 (hop : cmdOp c = 3#2) :
    decodeCommand e c = .ok (.unpack8 e (cmdWidth c) (cmdByteOff c)) := by
  simp [decodeCommand, hr, hop]

/-- The fields of R54 make up the word: the bits between them are 0. -/
theorem cmdWord_fields : cmdWord (cmdOp c) (cmdBitOff c) (cmdSlot c) (cmdWidth c) (cmdByteOff c) = c := by
  have hzero : c.toNat / 2 ^ 16 % 2 ^ 16 = 0 := by
    by_contra hne
    simp [reservedWord_iff.mpr (.inl hne)] at hr
  apply BitVec.eq_of_toNat_eq
  rw [cmdWord_toNat, cmdOp_toNat, cmdBitOff_toNat, cmdSlot_val, cmdWidth_toNat, cmdByteOff_toNat]
  omega

/-- BITOFF and SLOT of a block command are 0. -/
theorem cmdBitOff_cmdSlot_of_block (hop : cmdOp c = 2#2 ∨ cmdOp c = 3#2) : cmdBitOff c = 0#3 ∧ cmdSlot c = 0 := by
  have hzero : c.toNat / 2 ^ 2 % 2 ^ 6 = 0 := by
    by_contra hne
    simp [reservedWord_iff.mpr (.inr ⟨hne, hop.imp cmdOp_eq_iff.mp cmdOp_eq_iff.mp⟩)] at hr
  constructor
  · apply BitVec.eq_of_toNat_eq
    rw [cmdBitOff_toNat, BitVec.toNat_zero]
    omega
  · apply Fin.ext
    rw [cmdSlot_val, Fin.val_zero]
    omega

theorem cmdWord_block_fields (hop : cmdOp c = 2#2 ∨ cmdOp c = 3#2) :
    cmdWord (cmdOp c) 0#3 0 (cmdWidth c) (cmdByteOff c) = c := by
  obtain ⟨hb, hs⟩ := cmdBitOff_cmdSlot_of_block hr hop
  rw [← hb, ← hs, cmdWord_fields hr]

end

/-- Settles O3: the operands are the fields of the word. -/
theorem everyUnreservedWordDecodesByItsFields : Obligations.EveryUnreservedWordDecodesByItsFields := fun _ c hr =>
  ⟨cmdWidth c, cmdSlot c, cmdBitOff c, cmdByteOff c, cmdWidth_toNat c, cmdBitOff_toNat c, cmdSlot_val c,
    cmdByteOff_toNat c, fun h => decodeCommand_of_op_pack hr (cmdOp_eq_iff.mpr h),
    fun h => decodeCommand_of_op_unpack hr (cmdOp_eq_iff.mpr h),
    fun h => decodeCommand_of_op_pack8 hr (cmdOp_eq_iff.mpr h),
    fun h => decodeCommand_of_op_unpack8 hr (cmdOp_eq_iff.mpr h)⟩

/-- Settles O5: the six words of R63's table, decoded. -/
theorem encodingExamplesDecode : Obligations.EncodingExamplesDecode := by
  unfold Obligations.EncodingExamplesDecode
  decide

/-! ## Encoding what was decoded (R54, R60, R92 to R98) -/

theorem encode_of_decodeCommand {e : Nat} {c : Word} {i : Instr} (cfg : Config) (h : decodeCommand e c = .ok i) :
    encode cfg i = .command e c := by
  obtain ⟨hr, -⟩ := decodeCommand_ok h
  obtain hop | hop | hop | hop := cmdOp_cases c
  · obtain rfl := Except.ok.inj ((decodeCommand_of_op_pack hr hop).symm.trans h)
    rw [encode, ← hop, cmdWord_fields hr]
  · obtain rfl := Except.ok.inj ((decodeCommand_of_op_unpack hr hop).symm.trans h)
    rw [encode, ← hop, cmdWord_fields hr]
  · obtain rfl := Except.ok.inj ((decodeCommand_of_op_pack8 hr hop).symm.trans h)
    rw [encode, ← hop, cmdWord_block_fields hr (.inl hop)]
  · obtain rfl := Except.ok.inj ((decodeCommand_of_op_unpack8 hr hop).symm.trans h)
    rw [encode, ← hop, cmdWord_block_fields hr (.inr hop)]

/-- The offset of a register in its window (the table of R19); `locate_regOffset` ties it to `locate`. -/
def regOffset : Reg → Nat
  | .cmd => 0x000
  | .status => 0x008
  | .val k => 0x040 + 8 * k

/-- An address that names a register stands at the register's offset in the window of an engine that exists. -/
theorem locate_regOffset {cfg : Config} {addr e : Nat} {r : Reg} (h : locate cfg addr = some (e, r)) :
    e < cfg.nEngines ∧ addr = regAddr cfg e (regOffset r) ∧ ∀ k, r = .val k → k < 8 := by
  obtain ⟨off, he, -, rfl, hreg⟩ := locate_eq_some.mp h
  obtain ⟨rfl, rfl⟩ | ⟨rfl, rfl⟩ | ⟨k, hk, rfl, rfl⟩ := regAt_eq_some.mp hreg
  · exact ⟨he, rfl, nofun⟩
  · exact ⟨he, rfl, nofun⟩
  · exact ⟨he, rfl, fun k' hk' => Reg.val.inj hk' ▸ hk⟩

/-- Each access that decodes has the width and the address of the action it decodes to. -/
theorem encode_of_decodeAccess {cfg : Config} {x : Access} {i : Instr} (h : decodeAccess cfg x = .ok i) :
    encode cfg i = .line (.access x) ∧ i.wellFormed cfg = true := by
  cases x with
  | regWrite n addr d =>
    obtain rfl : n = 8 := by_contra fun hn => by simp [decodeAccess_regWrite_width hn] at h
    simp only [decodeAccess, ne_eq, not_true_eq_false, if_false] at h
    split at h
    · next e hl =>
      obtain ⟨he, rfl, -⟩ := locate_regOffset hl
      cases h
      exact ⟨rfl, decide_eq_true he⟩
    · next e k hl =>
      obtain ⟨he, rfl, hk⟩ := locate_regOffset hl
      cases h
      exact ⟨rfl, by simpa [Instr.wellFormed] using ⟨he, hk k rfl⟩⟩
    · cases h
  | regRead n addr =>
    obtain rfl : n = 8 := by_contra fun hn => by simp [decodeAccess_regRead_width hn] at h
    simp only [decodeAccess, ne_eq, not_true_eq_false, if_false] at h
    split at h
    · next e hl =>
      obtain ⟨he, rfl, -⟩ := locate_regOffset hl
      cases h
      exact ⟨rfl, decide_eq_true he⟩
    · next e k hl =>
      obtain ⟨he, rfl, hk⟩ := locate_regOffset hl
      cases h
      exact ⟨rfl, by simpa [Instr.wellFormed] using ⟨he, hk k rfl⟩⟩
    · cases h
  | regPoll addr =>
    simp only [decodeAccess] at h
    split at h
    · next e hl =>
      obtain ⟨he, rfl, -⟩ := locate_regOffset hl
      cases h
      exact ⟨rfl, decide_eq_true he⟩
    · cases h
  | bufWrite n a v =>
    obtain rfl : n = 1 := by_contra fun hn => by simp [decodeAccess_bufWrite_width hn] at h
    cases h
    exact ⟨rfl, rfl⟩
  | bufRead n a =>
    obtain rfl : n = 1 := by_contra fun hn => by simp [decodeAccess_bufRead_width hn] at h
    cases h
    exact ⟨rfl, rfl⟩

/-- Settles O2: a word is made up of its fields, and each register has one address. -/
theorem encodeOfDecodedWordIsTheWord : Obligations.EncodeOfDecodedWordIsTheWord :=
  ⟨fun cfg _ _ _ => encode_of_decodeCommand cfg, fun _ _ _ => encode_of_decodeAccess⟩

/-! ## The lines of a host program (R61, R62, R92 to R98) -/

/-- A line that names a command is assembled to the issue of its word to its engine (R61, R97). -/
theorem assemble_of_encode_command {cfg : Config} {i : Instr} {e : Nat} {c : Word} (h : encode cfg i = .command e c) :
    assemble cfg i = assemble cfg (.cmd e c) ∧ i.wellFormed cfg = (Instr.cmd e c).wellFormed cfg := by
  cases i <;> cases h <;> exact ⟨rfl, rfl⟩

/-- Any other line is assembled to its own encoding. -/
theorem line_of_encode_line {cfg : Config} {i : Instr} {l : Line} (h : encode cfg i = .line l) :
    l = .access (assemble cfg i) := by
  cases i <;> cases h <;> rfl

theorem decodeLine_of_encode_command {cfg : Config} {i : Instr} {e : Nat} {c : Word} (hi : i.wellFormed cfg = true)
    (h : encode cfg i = .command e c) : decodeLine cfg (.action i) = .ok (.cmd e c) := by
  obtain ⟨hasm, hwf⟩ := assemble_of_encode_command h
  rw [decodeLine_wellFormed hi, hasm]
  exact decode_encode (hwf ▸ hi)

theorem decodeLine_of_encode_line {cfg : Config} {i : Instr} {l : Line} (hi : i.wellFormed cfg = true)
    (h : encode cfg i = .line l) : decodeLine cfg (.action i) = .ok i := by
  have hdec := decode_encode hi
  rwa [h, line_of_encode_line h, decode_line, decodeLine_access, ← decodeLine_wellFormed hi] at hdec

/-- Settles O7, by what the line is encoded to: a command word or a bus access. -/
theorem hostLinesAreTheActionsTheyName : Obligations.HostLinesAreTheActionsTheyName := fun _ _ hi =>
  ⟨decodeLine_wellFormed hi, fun _ _ => decodeLine_of_encode_command hi,
    fun _ hl => ⟨line_of_encode_line hl, decodeLine_of_encode_line hi hl⟩⟩

theorem encode_command {e : Nat} {i : Instr} (cfg : Config) (hi : IsCommandOf e i) :
    ∃ c, encode cfg i = .command e c := by
  obtain ⟨w, k, o, b, rfl⟩ | ⟨w, k, o, b, rfl⟩ | ⟨w, o, rfl⟩ | ⟨w, o, rfl⟩ := hi <;> exact ⟨_, rfl⟩

theorem execCmd_eq_next {s : State} {e : Nat} {g : Engine} {c : Word} (hg : s.engines[e]? = some g)
    (hb : g.status.busy = false) (hr : reservedWord c = false) (ho : overlaps s e c = false) :
    execCmd e c s = .next (s.setEngine e (g.issue c)).advance := by
  simp [execCmd, withEngine_some _ hg, hb, hr, ho]

/-- Settles O6: the line is the issue of the command's word, which decodes to the command and so is not reserved. -/
theorem hostLineOfACommandReachesItsEngine : Obligations.HostLineOfACommandReachesItsEngine := by
  intro s e i g hi hwf hg hb hfree hl
  obtain ⟨c, hc⟩ := encode_command s.cfg hi
  have hdec : decodeCommand e c = .ok i := by simpa [hc, decode] using decode_encode hwf
  have hstep : stepAs .host s = exec (.cmd e c) s :=
    stepAs_of_decode (code := .line (.action i)) (by simp [fetch, hl]) (decodeLine_of_encode_command hwf hc)
  exact ⟨_, c, g.issue c, hstep.trans (execCmd_eq_next hg hb (decodeCommand_ok hdec).1 (hfree c hc)),
    setEngine_get_same hg _, rfl, rfl, hdec⟩

end Sys2Proof.Machine
end

section
/-! PROOFS. The single-value statements (40_single_value.md): the image byte by byte, what PACK leaves in the buffer,
fields of the stream and the windows UNPACK reads, and the source's three-phase algorithms. -/

namespace Sys2Proof.Machine

open Sys2Proof.Claims

/-! ## The image byte by byte (R65) -/

theorem image_no_bits (v b : Nat) : image v 0 b = [] := rfl

/-- A field that fits in the rest of its first byte has an image of one byte. -/
theorem image_of_one_byte {b w : Nat} (v : Nat) (hw : 1 ≤ w) (hfit : b + w ≤ 8) :
    image v w b = [BitVec.ofNat 8 (v <<< (8 - b - w))] := by
  have hn : footLen b w = 1 := by rw [footLen_pos (by omega)]; omega
  simp [image, shiftAmt, hn, splitBytes]

/-- A field that fills its first byte: that byte holds its top bits, and the rest is the image of the other bits. -/
theorem image_cons {b w : Nat} (v : Nat) (hb : b ≤ 7) (hfill : 8 - b ≤ w) :
    image v w b = BitVec.ofNat 8 (v >>> (w - (8 - b))) :: image v (w - (8 - b)) 0 := by
  obtain ⟨r, rfl⟩ := Nat.exists_eq_add_of_le hfill
  rw [Nat.add_sub_cancel_left]
  have hn : footLen b (8 - b + r) = footLen 0 r + 1 := by
    rw [footLen_pos (by omega), footLen, ceil8]; split <;> omega
  have hs : shiftAmt b (8 - b + r) = shiftAmt 0 r := by rw [shiftAmt, shiftAmt, hn]; omega
  have hbits : 8 * footLen 0 r = shiftAmt 0 r + r := by
    rw [shiftAmt, footLen, ceil8]; split <;> omega
  rw [image, hn, hs, splitBytes, image, hbits, Nat.shiftRight_add, Nat.shiftLeft_shiftRight]

/-- The image at bit offset 0 holds no bit above the width. -/
theorem image_drops_high {r d : Nat} (u v : Nat) (h : r ≤ d) : image (u <<< d + v) r 0 = image v r 0 := by
  obtain rfl | hr := Nat.eq_zero_or_pos r
  · rfl
  obtain ⟨c, rfl⟩ := Nat.exists_eq_add_of_le h
  have hbits := footLen_bits (b := 0) (Nat.ne_of_gt hr)
  have hmul : (u * 2 ^ (r + c) + v) * 2 ^ shiftAmt 0 r
      = v * 2 ^ shiftAmt 0 r + 2 ^ (r + shiftAmt 0 r) * (u * 2 ^ c) := by ring
  rw [image, image, ← splitBytes_mod, ← splitBytes_mod (footLen 0 r) (v <<< shiftAmt 0 r), hbits, Nat.zero_add,
    Nat.shiftLeft_eq, Nat.shiftLeft_eq, Nat.shiftLeft_eq, hmul, Nat.add_mul_mod_self_left]

/-- Two fields, the first ending inside its first byte: the image of both is that of the second, the first's byte OR-ed
into it. -/
theorem image_concat_in_byte {b w₁ w₂ u v : Nat} (h1 : 1 ≤ w₁) (h2 : 1 ≤ w₂) (hin : b + w₁ ≤ 7) (hv : v < 2 ^ w₂) :
    ∃ y ys, image v w₂ (b + w₁) = y :: ys ∧
      image (u <<< w₂ + v) (w₁ + w₂) b = (BitVec.ofNat 8 (u <<< (8 - b - w₁)) ||| y) :: ys := by
  by_cases hfit : b + w₁ + w₂ ≤ 8
  · refine ⟨_, _, image_of_one_byte v h2 hfit, ?_⟩
    rw [image_of_one_byte _ (by omega) (by omega), Nat.shiftLeft_add_eq_or_of_lt hv, Nat.shiftLeft_or_distrib,
      BitVec.ofNat_or, ← Nat.shiftLeft_add, show w₂ + (8 - b - (w₁ + w₂)) = 8 - b - w₁ by omega,
      show 8 - b - (w₁ + w₂) = 8 - (b + w₁) - w₂ by omega]
  · refine ⟨_, _, image_cons v hin (by omega), ?_⟩
    have hrest : w₁ + w₂ - (8 - b) = w₂ - (8 - (b + w₁)) := by omega
    rw [image_cons _ (by omega) (by omega), hrest, image_drops_high u v (by omega), Nat.shiftLeft_add_eq_or_of_lt hv,
      Nat.shiftRight_or_distrib, BitVec.ofNat_or, ← Nat.shiftLeft_sub _ (by omega),
      show w₂ - (w₂ - (8 - (b + w₁))) = 8 - b - w₁ by omega]

/-! ## PACK's buffer write, its first byte apart (R66) -/

/-- PACK's write of its first byte: OR-ed into `B[o]` when `b > 0`, stored otherwise (R66). -/
def packByte (m : List Host.Cell) (o b : Nat) (x : Byte) : Option (List Host.Cell) :=
  if b = 0 then some (writeByte m o x) else (readByte m o).map fun old => writeByte m o (old ||| x)

theorem packField_of_image {b w v : Nat} {x : Byte} {xs : List Byte} (m : List Host.Cell) (o : Nat)
    (h : image v w b = x :: xs) :
    packField m o b w v = (packByte m o b x).map fun m' => writeBytes m' (o + 1) xs := by
  rw [packField, packByte, h]
  split
  · rfl
  · cases readByte m o <;> rfl

theorem packField_aligned (m : List Host.Cell) (o w v : Nat) :
    packField m o 0 w v = some (writeBytes m o (image v w 0)) := rfl

/-- A field that fills its first byte is packed as that byte and then, aligned, the rest. -/
theorem packField_of_filled {b w : Nat} (m : List Host.Cell) (o v : Nat) (hb : b ≤ 7) (hfill : 8 - b ≤ w) :
    packField m o b w v = (packByte m o b (BitVec.ofNat 8 (v >>> (w - (8 - b))))).bind
      fun m' => packField m' (o + 1) 0 (w - (8 - b)) v := by
  rw [packField_of_image m o (image_cons v hb hfill), Option.map_eq_bind]
  rfl

/-- Two writes into one byte, the second OR-ed, are one write of both. -/
theorem packByte_packByte {b' : Nat} (m : List Host.Cell) (o b : Nat) (x y : Byte) (hb' : b' ≠ 0) :
    ((packByte m o b x).bind fun m' => packByte m' o b' y) = packByte m o b (x ||| y) := by
  by_cases hb : b = 0
  · simp [packByte, hb, hb', writeByte_writeByte_same]
  · cases hold : readByte m o <;> simp [packByte, hb, hb', hold, writeByte_writeByte_same, BitVec.or_assoc]

/-! ## Successive PACKs (R74) -/

theorem moveCursor_in_byte {o b k : Nat} (h : b + k ≤ 7) : moveCursor o b k = (o, b + k) := by
  simp only [moveCursor, Prod.mk.injEq]; omega

/-- A move to the end of the byte or past it starts again at the next byte. -/
theorem moveCursor_past_byte {o b k : Nat} (hb : b ≤ 7) (h : 8 - b ≤ k) :
    moveCursor o b k = moveCursor (o + 1) 0 (k - (8 - b)) := by
  simp only [moveCursor, Prod.mk.injEq]; omega

/-- PACK of a concatenation is PACK of its first part and then of its second at the cursor after it. -/
theorem packField_concat {b w₁ w₂ v : Nat} (m : List Host.Cell) (o u : Nat) (hb : b ≤ 7) (h1 : 1 ≤ w₁) (h2 : 1 ≤ w₂)
    (hv : v < 2 ^ w₂) :
    packField m o b (w₁ + w₂) (u <<< w₂ + v) =
      (packField m o b w₁ u).bind fun m' => packField m' (moveCursor o b w₁).1 (moveCursor o b w₁).2 w₂ v := by
  induction w₁ using Nat.strong_induction_on generalizing m o b with
  | _ w₁ ih =>
    by_cases hin : b + w₁ ≤ 7
    · obtain ⟨y, ys, hsecond, hboth⟩ := image_concat_in_byte (u := u) h1 h2 hin hv
      rw [packField_of_image m o hboth, packField_of_image m o (image_of_one_byte u h1 (by omega)),
        moveCursor_in_byte hin, ← packByte_packByte m o b _ y (b' := b + w₁) (by omega)]
      simp [packField_of_image _ _ hsecond, writeBytes, Option.map_bind]
    · have hfill : 8 - b ≤ w₁ := by omega
      have htop : (u <<< w₂ + v) >>> (w₁ + w₂ - (8 - b)) = u >>> (w₁ - (8 - b)) := by
        rw [show w₁ + w₂ - (8 - b) = w₂ + (w₁ - (8 - b)) by omega, Nat.shiftRight_add,
          Nat.shiftLeft_add_eq_or_of_lt hv, Nat.shiftRight_or_distrib, Nat.shiftLeft_shiftRight,
          Nat.shiftRight_eq_zero _ _ hv, Nat.or_zero]
      rw [packField_of_filled m o _ hb (by omega), packField_of_filled m o u hb hfill, htop,
        moveCursor_past_byte hb hfill, Option.bind_assoc, Nat.sub_add_comm hfill]
      refine congrArg (Option.bind _) (funext fun m' => ?_)
      obtain h0 | hpos := Nat.eq_zero_or_pos (w₁ - (8 - b))
      · rw [h0, Nat.zero_add, packField_aligned, packField_aligned, image_no_bits, writeBytes, Option.bind_some,
          moveCursor_in_byte (by omega), packField_aligned, image_drops_high u v (Nat.le_refl w₂)]
      · exact ih _ (by omega) m' (o + 1) (by omega) hpos

theorem packRun_cons (w : Nat) (m : List Host.Cell) (o b v : Nat) (vs : List Nat) :
    packRun w m o b (v :: vs) = (packField m o b w v).bind
      fun m' => packRun w m' (moveCursor o b w).1 (moveCursor o b w).2 vs := by
  rw [packRun]
  cases packField m o b w v <;> rfl

/-- Settles O20, by induction on the values: each PACK and those after it are one PACK of the concatenation. -/
theorem sequentialPacksMakeTheConcatenation : Obligations.SequentialPacksMakeTheConcatenation := by
  intro m o b w vs hw1 hw63 hb hne hfit
  induction vs generalizing m o b with
  | nil => exact absurd rfl hne
  | cons v vs ih =>
    rw [packRun_cons]
    cases vs with
    | nil => simp [packRun, joinFields]
    | cons u us =>
      have hlast : ∀ x ∈ u :: us, x < 2 ^ w := fun x hx => hfit x (List.mem_cons_of_mem _ hx)
      have hlen : 1 ≤ w * (u :: us).length := Nat.mul_pos hw1 (by simp)
      have hcursor : (moveCursor o b w).2 ≤ 7 := by simp only [moveCursor]; omega
      rw [joinFields, List.length_cons, Nat.succ_mul, Nat.add_comm, Nat.mul_comm,
        packField_concat m o v hb hw1 hlen (joinFields_lt hlast)]
      refine congrArg (Option.bind _) (funext fun m' => ?_)
      rw [ih m' _ _ hcursor (by simp) hlast, Nat.mul_comm]

/-! ## The source's PACK (R67) -/

/-- `& 0xFF` before a value becomes a byte changes nothing. -/
theorem ofNat_low_byte (x : Nat) : BitVec.ofNat 8 (x &&& 0xFF) = BitVec.ofNat 8 x :=
  BitVec.eq_of_toNat_eq (by simp [Nat.and_two_pow_sub_one_eq_mod _ 8])

/-- The second and third phases store the image of the bits that are left. -/
theorem srcPackRest_eq (v r : Nat) (m : List Host.Cell) (a : Nat) :
    srcPackRest v m a r = writeBytes m a (image v r 0) := by
  induction r using Nat.strong_induction_on generalizing m a with
  | _ r ih =>
    by_cases hfull : 8 ≤ r
    · have hstep : srcPackRest v m a r
          = srcPackRest v (writeByte m a (BitVec.ofNat 8 ((v >>> (r - 8)) &&& 0xFF))) (a + 1) (r - 8) := by
        rw [srcPackRest, srcPackRest, show r / 8 = (r - 8) / 8 + 1 by omega, show (r - 8) % 8 = r % 8 by omega,
          srcFullBytes, show a + ((r - 8) / 8 + 1) = a + 1 + (r - 8) / 8 by omega]
      rw [hstep, ih _ (by omega), ofNat_low_byte, image_cons v (b := 0) (by omega) hfull, writeBytes]
    · rw [srcPackRest, Nat.div_eq_of_lt (by omega), Nat.mod_eq_of_lt (by omega), srcFullBytes]
      obtain rfl | hpos := Nat.eq_zero_or_pos r
      · rfl
      · simp only [if_pos hpos, ofNat_low_byte, image_of_one_byte v hpos (show 0 + r ≤ 8 by omega), Nat.add_zero,
          Nat.sub_zero, writeBytes]

/-- The top `k` bits of a `w`-bit value. -/
theorem shiftRight_lt_two_pow {v w k : Nat} (hv : v < 2 ^ w) (h : k ≤ w) : v >>> (w - k) < 2 ^ k := by
  rwa [Nat.shiftRight_eq_div_pow, Nat.div_lt_iff_lt_mul (Nat.two_pow_pos _), ← Nat.pow_add, Nat.add_sub_cancel' h]

/-- The first phase's mask when the field ends in its first byte changes nothing. -/
theorem srcPack_mask_within {b w v : Nat} (hv : v < 2 ^ w) (hin : w < 8 - b) :
    (v <<< (8 - b - w)) &&& (2 ^ (8 - b) - 1) = v <<< (8 - b - w) := by
  have hlt := Nat.shiftLeft_lt (m := 8 - b - w) hv
  rw [show w + (8 - b - w) = 8 - b by omega] at hlt
  rw [Nat.and_two_pow_sub_one_eq_mod, Nat.mod_eq_of_lt hlt]

/-- The first phase's mask when the field fills its first byte changes nothing. -/
theorem srcPack_mask_filled {b w v : Nat} (hv : v < 2 ^ w) (hfill : 8 - b ≤ w) :
    (v >>> (w - (8 - b))) &&& (2 ^ (8 - b) - 1) = v >>> (w - (8 - b)) := by
  rw [Nat.and_two_pow_sub_one_eq_mod, Nat.mod_eq_of_lt (shiftRight_lt_two_pow hv hfill)]

/-- Settles O19: the masks aside, the source stores the image's first byte and then the image of the rest. -/
theorem sourcePackWritesTheSameBytes : Obligations.SourcePackWritesTheSameBytes := by
  intro m o b w v hw1 _ hb hv
  refine ⟨?_, srcPack_mask_within hv, srcPack_mask_filled hv⟩
  by_cases h0 : b = 0
  · simp [srcPack, packField, h0, srcPackRest_eq]
  cases hold : readByte m o with
  | none => simp [srcPack, packField, h0, hold]
  | some old =>
    by_cases hin : w < 8 - b
    · have himage := image_of_one_byte v hw1 (show b + w ≤ 8 by omega)
      simp [srcPack, packField, h0, hold, hin, srcPack_mask_within hv hin, himage, orHead, writeBytes]
    · have hfill : 8 - b ≤ w := by omega
      simp [srcPack, packField, h0, hold, hin, srcPack_mask_filled hv hfill, image_cons v hb hfill, orHead, writeBytes,
        srcPackRest_eq]

/-! ## Fields of the stream (R12, R14) -/

/-- Joining fields is associative. -/
theorem shiftLeft_join (a x y i j : Nat) : ((a <<< i) + x) <<< j + y = (a <<< (i + j)) + ((x <<< j) + y) := by
  simp only [Nat.shiftLeft_eq, Nat.pow_add]
  ring

/-- A field of the stream is its first bits joined with its other bits. -/
theorem streamField_add (m : List Host.Cell) (p i j : Nat) :
    streamField m p (i + j) = (streamField m p i).bind
      fun x => (streamField m (p + i) j).map fun y => (x <<< j) + y := by
  induction i generalizing p with
  | zero => simp [streamField]
  | succ i ih =>
    rw [Nat.succ_add, streamField, streamField, ih, show p + 1 + i = p + (i + 1) by omega]
    cases streamBit m p <;> cases streamField m (p + 1) i <;> cases streamField m (p + (i + 1)) j <;>
      simp [shiftLeft_join]

/-- A field with a bit in an unwritten byte is no value. -/
theorem streamField_unwritten {m : List Host.Cell} {p q w : Nat} (h : readByte m (q / 8) = none) (h1 : p ≤ q)
    (h2 : q < p + w) : streamField m p w = none := by
  induction w generalizing p with
  | zero => omega
  | succ w ih =>
    rw [streamField]
    obtain rfl | hlt := Nat.eq_or_lt_of_le h1
    · simp [streamBit, h]
    · rw [ih hlt (by omega)]
      cases streamBit m p <;> rfl

theorem readBytes_one {m : List Host.Cell} {a : Nat} {x : Byte} (h : readByte m a = some x) :
    readBytes m a 1 = some [x] := by
  simp [readBytes, h]

/-- A field inside one byte, from bit `b` on, is a slice of that byte. -/
theorem streamField_in_byte (m : List Host.Cell) (a : Nat) {b w : Nat} (hw : 1 ≤ w) (h : b + w ≤ 8) :
    streamField m (8 * a + b) w = (readByte m a).map fun x => (x.toNat >>> (8 - b - w)) % 2 ^ w := by
  cases hx : readByte m a with
  | none =>
    have hbyte : readByte m ((8 * a + b) / 8) = none := by rw [show (8 * a + b) / 8 = a by omega, hx]
    exact streamField_unwritten hbyte (by omega) (by omega)
  | some x =>
    rw [streamField_window (readBytes_one hx) (by omega) (by omega),
      show 8 * (a + 1) - (8 * a + b) - w = 8 - b - w by omega]
    simp [joinBytes_cons, joinBytes_nil]

/-- `readBytes` has no answer only when some byte is unwritten. -/
theorem readBytes_eq_none {m : List Host.Cell} {a n : Nat} (h : readBytes m a n = none) :
    ∃ x, a ≤ x ∧ x < a + n ∧ readByte m x = none := by
  induction n generalizing a with
  | zero => cases h
  | succ n ih =>
    cases hx : readByte m a with
    | none => exact ⟨a, by omega, by omega, hx⟩
    | some x =>
      have hrest : readBytes m (a + 1) n = none := by
        cases hxs : readBytes m (a + 1) n with
        | none => rfl
        | some xs => simp [readBytes, hx, hxs] at h
      obtain ⟨y, h1, h2, hy⟩ := ih hrest
      exact ⟨y, by omega, by omega, hy⟩

/-- The value of R71's window is the field of the stream at the cursor (R14), in every buffer. -/
theorem unpackField_eq_streamField {b w : Nat} (m : List Host.Cell) (o : Nat) (hw : 1 ≤ w) (hb : b ≤ 7) :
    unpackField m o b w = streamField m (8 * o + b) w := by
  have hbits := footLen_bits (b := b) (Nat.ne_of_gt hw)
  have hshift := shiftAmt_le (b := b) (Nat.ne_of_gt hw)
  cases hbs : readBytes m o (footLen b w) with
  | some bs =>
    rw [unpackField, hbs, streamField_window hbs (by omega) (by omega),
      show 8 * (o + footLen b w) - (8 * o + b) - w = shiftAmt b w by omega]
    simp [Nat.and_two_pow_sub_one_eq_mod]
  | none =>
    obtain ⟨x, h1, h2, hx⟩ := readBytes_eq_none hbs
    rw [unpackField, hbs, streamField_unwritten (q := max (8 * x) (8 * o + b)) _ (by omega) (by omega)]
    rw [show max (8 * x) (8 * o + b) / 8 = x by omega, hx]

/-! ## The source's UNPACK (R72) -/

/-- The source's loop appends the next `k` bytes of the stream to its accumulator. -/
theorem srcAccumulate_eq (m : List Host.Cell) (k acc a : Nat) :
    srcAccumulate m k acc a = (streamField m (8 * a) (8 * k)).map fun y => (acc <<< (8 * k)) + y := by
  induction k generalizing acc a with
  | zero => simp [srcAccumulate, streamField]
  | succ k ih =>
    have hbyte := streamField_in_byte m a (b := 0) (w := 8) (by omega) (by omega)
    rw [srcAccumulate, show 8 * (k + 1) = 8 + 8 * k by omega, streamField_add]
    rw [Nat.add_zero] at hbyte
    rw [hbyte]
    cases readByte m a with
    | none => rfl
    | some x =>
      have hx : x.toNat % 2 ^ 8 = x.toNat := Nat.mod_eq_of_lt x.isLt
      simp only [ih, Option.map_some, Option.bind_some, Option.map_map, Function.comp_def,
        ← Nat.shiftLeft_add_eq_or_of_lt x.isLt, shiftLeft_join, Nat.mul_succ, Nat.sub_zero, Nat.sub_self,
        Nat.shiftRight_zero, hx]

/-- The source's last phase appends the `r` bits that are left. -/
theorem srcRemainder_eq (m : List Host.Cell) (acc a : Nat) {r : Nat} (h : r ≤ 7) :
    srcRemainder m acc a r = (streamField m (8 * a) r).map fun y => (acc <<< r) + y := by
  rw [srcRemainder]
  obtain rfl | hr := Nat.eq_zero_or_pos r
  · simp [streamField]
  rw [if_pos hr, ← Nat.add_zero (8 * a), streamField_in_byte m a hr (by omega)]
  cases readByte m a with
  | none => rfl
  | some x =>
    have hlt : x.toNat >>> (8 - r) < 2 ^ r := shiftRight_lt_two_pow (w := 8) x.isLt (by omega)
    simp [Nat.mod_eq_of_lt hlt, Nat.shiftLeft_add_eq_or_of_lt hlt]

/-- The loop and the last phase append the next `r` bits of the stream. -/
theorem srcUnpack_rest (m : List Host.Cell) (acc a r : Nat) :
    ((srcAccumulate m (r / 8) acc a).bind fun x => srcRemainder m x (a + r / 8) (r % 8)) =
      (streamField m (8 * a) r).map fun y => (acc <<< r) + y := by
  have hr : r = 8 * (r / 8) + r % 8 := by omega
  conv_rhs => rw [hr, streamField_add, ← Nat.mul_add]
  rw [srcAccumulate_eq]
  cases streamField m (8 * a) (8 * (r / 8)) with
  | none => rfl
  | some y =>
    simp [srcRemainder_eq m _ _ (show r % 8 ≤ 7 by omega), Function.comp_def, shiftLeft_join]

/-- Settles O22: each phase of the source's algorithm appends the next bits of the stream to what it holds. -/
theorem sourceUnpackReturnsTheSameValue : Obligations.SourceUnpackReturnsTheSameValue := by
  intro m o b w hw1 _ hb
  rw [unpackField_eq_streamField m o hw1 hb, srcUnpack]
  by_cases hin : w < 8 - b
  · rw [streamField_in_byte m o hw1 (by omega), Nat.min_eq_right (by omega), Nat.sub_self]
    cases readByte m o <;> simp [srcAccumulate, srcRemainder, Nat.and_two_pow_sub_one_eq_mod]
  · obtain ⟨r, rfl⟩ := Nat.exists_eq_add_of_le (Nat.le_of_not_lt hin)
    rw [streamField_add, streamField_in_byte m o (by omega) (by omega), Nat.min_eq_left (by omega),
      Nat.add_sub_cancel_left, if_pos rfl, show 8 * o + b + (8 - b) = 8 * (o + 1) by omega]
    cases readByte m o with
    | none => rfl
    | some x =>
      simp only [Option.map_some, Option.bind_some, Nat.and_two_pow_sub_one_eq_mod, ← srcUnpack_rest]
      cases srcAccumulate m (r / 8) ((x.toNat >>> (8 - b - (8 - b))) % 2 ^ (8 - b)) (o + 1) <;> rfl

/-! ## What PACK's buffer write leaves (R66, R69) -/

/-- Byte `j` of the footprint after PACK's buffer write: the image's byte, OR-ed with what was there in the first byte
when `b > 0`. -/
theorem packField_byte {m m' : List Host.Cell} {o b w v j : Nat} (h : packField m o b w v = some m')
    (hj : j < footLen b w) :
    ∃ x, readByte m' (o + j) = some (x ||| BitVec.ofNat 8 ((v <<< shiftAmt b w) >>> (8 * (footLen b w - 1 - j)))) ∧
      (j = 0 → 0 < b → readByte m o = some x) ∧ (0 < j ∨ b = 0 → x = 0#8) := by
  have hlen : j < (image v w b).length := by simpa using hj
  have hbyte : (image v w b)[j] = BitVec.ofNat 8 ((v <<< shiftAmt b w) >>> (8 * (footLen b w - 1 - j))) :=
    splitBytes_get ..
  rw [← hbyte]
  obtain ⟨hb, rfl⟩ | ⟨hb, old, hold, rfl⟩ := packField_some h
  · refine ⟨0#8, ?_, by omega, fun _ => rfl⟩
    simp [readByte_writeBytes, hj]
  · cases j with
    | zero =>
      refine ⟨old, ?_, fun _ _ => hold, by omega⟩
      simp [readByte_writeBytes, hj, orHead_get_zero old hlen]
    | succ j =>
      refine ⟨0#8, ?_, by omega, fun _ => rfl⟩
      simp [readByte_writeBytes, hj, orHead_get_succ old hlen]

theorem packField_outside {m m' : List Host.Cell} {o b w v a : Nat} (h : packField m o b w v = some m')
    (ha : ¬ (o ≤ a ∧ a < o + footLen b w)) : readByte m' a = readByte m a := by
  obtain ⟨bs, hlen, rfl⟩ := packField_run h
  exact readByte_writeBytes_outside bs m (by omega)

/-- PACK's buffer write fails only on the unwritten first byte it reads. -/
theorem packField_isSome {m : List Host.Cell} {o b : Nat} (w v : Nat) (h : 0 < b → readByte m o ≠ none) :
    ∃ m', packField m o b w v = some m' := by
  obtain rfl | hb := Nat.eq_zero_or_pos b
  · exact ⟨_, rfl⟩
  · obtain ⟨old, hold⟩ := Option.ne_none_iff_exists'.mp (h hb)
    simp [packField, hold, Nat.ne_of_gt hb]

theorem spanned_eq_footLen {b : BitVec 3} {w : BitVec 8} (hw : 1 ≤ w.toNat) :
    spanned b w = footLen b.toNat w.toNat := by
  rw [spanned, footLen_pos (by omega)]

theorem doneWell_succeed (g : Engine) : DoneWell g.succeed := ⟨rfl, rfl, rfl, rfl⟩

theorem otherEnginesSame_setEngine (s : State) (e : Nat) (g : Engine) : OtherEnginesSame e s (s.setEngine e g) :=
  ⟨by simp, fun e' he => setEngine_get_other s (Ne.symm he) g⟩

/-- Settles O16: PACK's buffer write has an answer, and it holds the image in the footprint. -/
theorem packStoresTheImage : Obligations.PackStoresTheImage := by
  intro s e w k o b g v old hg hw hv hfit hin hold
  have hn := spanned_eq_footLen (b := b) hw.1
  obtain ⟨m, hm⟩ := packField_isSome w.toNat v.toNat fun hb => Option.ne_none_iff_exists'.mpr ⟨old, hold hb⟩
  rw [hn] at hin
  refine ⟨_, g.succeed, execPack_eq_next hg (legalWidth_iff.mpr hw) hv hfit hin hm, fun j hj => ?_, fun a ha => ?_,
    setEngine_get_same (s := s.setBuf m) hg _, rfl, doneWell_succeed g, otherEnginesSame_setEngine (s.setBuf m) e _,
    rfl, rfl, rfl, rfl, rfl, rfl⟩
  · rw [hn] at hj ⊢
    obtain ⟨x, hread, hfirst, hlater⟩ := packField_byte hm hj
    refine ⟨_, hread, ?_⟩
    rw [BitVec.toNat_or, BitVec.toNat_ofNat, shiftAmt, Nat.and_two_pow_sub_one_eq_mod _ 8]
    split
    · next h => rw [Option.some.inj ((hold h.2).symm.trans (hfirst h.1 h.2))]
    · next h => rw [hlater (by omega)]; rfl
  · rw [hn] at ha
    exact packField_outside hm ha

/-- A bit of a value that was made a byte. -/
theorem ofNat_byte_bit (y : Nat) {i : Nat} (hi : i < 8) : ((BitVec.ofNat 8 y).toNat >>> i) &&& 1 = (y >>> i) &&& 1 := by
  have h := congrArg Bool.toNat (Nat.testBit_mod_two_pow y 8 i)
  rwa [decide_eq_true hi, Bool.true_and, Nat.toNat_testBit, Nat.toNat_testBit, ← Nat.shiftRight_eq_div_pow,
    ← Nat.shiftRight_eq_div_pow, ← Nat.and_one_is_mod, ← Nat.and_one_is_mod, ← BitVec.toNat_ofNat] at h

/-- Bit `p` of the stream inside the footprint after PACK's buffer write: a bit of the shifted value, OR-ed with what was
there in the first byte when `b > 0`. -/
theorem packField_streamBit {m m' : List Host.Cell} {o b w v p : Nat} (h : packField m o b w v = some m')
    (h1 : o ≤ p / 8) (h2 : p / 8 < o + footLen b w) :
    ∃ x, streamBit m' p = some (x ||| (((v <<< shiftAmt b w) >>> (8 * (o + footLen b w) - p - 1)) &&& 1)) ∧
      (p / 8 = o → 0 < b → streamBit m p = some x) ∧ (o < p / 8 ∨ b = 0 → x = 0) := by
  obtain ⟨x, hread, hfirst, hlater⟩ := packField_byte h (j := p / 8 - o) (by omega)
  rw [Nat.add_sub_cancel' h1] at hread
  refine ⟨(x.toNat >>> (7 - p % 8)) &&& 1, ?_, fun ho hb => ?_, fun ho => ?_⟩
  · rw [streamBit, hread]
    simp only [BitVec.toNat_or, Nat.shiftRight_or_distrib, Nat.and_or_distrib_right,
      ofNat_byte_bit _ (show 7 - p % 8 < 8 by omega)]
    rw [← Nat.shiftRight_add,
      show 8 * (footLen b w - 1 - (p / 8 - o)) + (7 - p % 8) = 8 * (o + footLen b w) - p - 1 by omega]
  · rw [streamBit, ho, hfirst (by omega) hb]
  · simp [hlater (by omega)]

/-- The bits of the shifted value below the shift, which lie after the field, are 0. -/
theorem shifted_bit_after_field (v : Nat) {i sh : Nat} (h : i < sh) : ((v <<< sh) >>> i) &&& 1 = 0 := by
  obtain ⟨d, rfl⟩ := Nat.exists_eq_add_of_lt h
  rw [← Nat.shiftLeft_sub _ (by omega), show i + d + 1 - i = d + 1 by omega, Nat.shiftLeft_succ, Nat.and_one_is_mod,
    Nat.mul_mod_right]

/-- The bits of the shifted value from the shift on are the value's. -/
theorem shifted_bit_in_field (v sh i : Nat) : (v <<< sh) >>> (sh + i) = v >>> i := by
  rw [Nat.shiftRight_add, Nat.shiftLeft_shiftRight]

/-- The bits of the shifted value above the field, which lie before it, are 0. -/
theorem shifted_bit_before_field {v w i : Nat} (sh : Nat) (hv : v < 2 ^ w) (h : w ≤ i) :
    (v <<< sh) >>> (sh + i) = 0 := by
  rw [shifted_bit_in_field, Nat.shiftRight_eq_zero _ _ (lt_of_lt_of_le hv (Nat.pow_le_pow_right (by decide) h))]

/-- Settles O17: the shifted value has the field's bits in their place, and 0 before and after them. -/
theorem packLeavesTheOtherBits : Obligations.PackLeavesTheOtherBits := by
  intro s t e w k o b g v hg hv h
  obtain ⟨g', v', m, hg', hw, hv', hfit, -, hm, rfl⟩ := execPack_next h
  obtain rfl : g = g' := Option.some.inj (hg.symm.trans hg')
  obtain rfl : v = v' := Option.some.inj (hv.symm.trans hv')
  have hw1 := (legalWidth_iff.mp hw).1
  have hbits := footLen_bits (b := b.toNat) (Nat.ne_of_gt hw1)
  have hb := b.isLt
  rw [spanned_eq_footLen hw1]
  refine ⟨fun a ha => packField_outside hm ha, fun p h1 h2 => ?_⟩
  obtain ⟨x, hbit, hfirst, hlater⟩ := packField_streamBit hm h1 h2
  refine ⟨fun hbefore => ?_, fun i hi hp => ?_, fun hafter => ?_⟩
  · have hzero := shifted_bit_before_field (i := 8 * o.toNat + b.toNat + w.toNat - p - 1)
      (shiftAmt b.toNat w.toNat) hfit (by omega)
    rw [show shiftAmt b.toNat w.toNat + (8 * o.toNat + b.toNat + w.toNat - p - 1)
      = 8 * (o.toNat + footLen b.toNat w.toNat) - p - 1 by omega] at hzero
    rw [hzero, Nat.zero_and, Nat.or_zero] at hbit
    exact hbit.trans (hfirst (by omega) (by omega)).symm
  · rw [show 8 * (o.toNat + footLen b.toNat w.toNat) - p - 1 = shiftAmt b.toNat w.toNat + (w.toNat - 1 - i) by omega,
      shifted_bit_in_field] at hbit
    refine ⟨fun hp hb => ⟨x, hfirst hp hb, hbit⟩, fun hp => ?_⟩
    rw [hlater hp, Nat.zero_or] at hbit
    exact hbit
  · rw [shifted_bit_after_field v.toNat (by omega), Nat.or_zero] at hbit
    exact ⟨fun hp hb => hbit.trans (hfirst hp hb).symm, fun hp => by rw [hlater hp] at hbit; exact hbit⟩

/-! ## UNPACK (R70, R71) -/

/-- Settles O21: the window's value is the field of the stream, which its `w` bits bound. -/
theorem unpackReadsTheField : Obligations.UnpackReadsTheField := by
  intro s e w k o b g hg hw hin hwritten
  have hn := spanned_eq_footLen (b := b) hw.1
  rw [hn] at hin hwritten
  obtain ⟨bs, hbs⟩ : ∃ bs, readBytes s.buf o.toNat (footLen b.toNat w.toNat) = some bs := by
    by_contra hnone
    obtain ⟨x, h1, h2, hx⟩ := readBytes_eq_none (Option.eq_none_iff_forall_ne_some.mpr (not_exists.mp hnone))
    refine hwritten (x - o.toNat) (by omega) ?_
    rwa [Nat.add_sub_cancel' h1]
  have hv : unpackField s.buf o.toNat b.toNat w.toNat =
      some ((joinBytes bs >>> shiftAmt b.toNat w.toNat) % 2 ^ w.toNat) := by
    simp [unpackField, hbs, Nat.and_two_pow_sub_one_eq_mod]
  exact ⟨_, _, _, execUnpack_eq_next hg (legalWidth_iff.mpr hw) hin hv,
    (unpackField_eq_streamField _ _ hw.1 (Nat.le_of_lt_succ b.isLt)).symm.trans hv, Nat.mod_lt _ (Nat.two_pow_pos _),
    setEngine_get_same hg _, val_setVal_same .., fun k' hk => val_setVal_other g _ (Ne.symm hk), doneWell_succeed _,
    otherEnginesSame_setEngine s e _, rfl, rfl, rfl, rfl, rfl, rfl, rfl⟩

/-- The field's old bits in a first byte `old`, at their place in the `w`-bit value (the `f` of R70). -/
def oldFieldBits (b w old : Nat) : Nat :=
  ((old >>> (8 - b - min (8 - b) w)) % 2 ^ min (8 - b) w) <<< (w - min (8 - b) w)

theorem oldFieldBits_lt (b w old : Nat) : oldFieldBits b w old < 2 ^ w := by
  have h := Nat.shiftLeft_lt (m := w - min (8 - b) w)
    (Nat.mod_lt (old >>> (8 - b - min (8 - b) w)) (Nat.two_pow_pos (min (8 - b) w)))
  rwa [Nat.add_sub_cancel' (Nat.min_le_right ..)] at h

/-- What the first byte of the window holds of the field are its old bits. -/
theorem window_oldFieldBits {b w : Nat} (old : Nat) (hw : 1 ≤ w) (hb : b ≤ 7) :
    ((old <<< (8 * (footLen b w - 1))) >>> shiftAmt b w) % 2 ^ w = oldFieldBits b w old := by
  have hn := footLen_pos (b := b) (Nat.ne_of_gt hw)
  have hbits := footLen_bits (b := b) (Nat.ne_of_gt hw)
  by_cases hin : w ≤ 8 - b
  · rw [oldFieldBits, Nat.min_eq_right hin, Nat.sub_self, Nat.shiftLeft_zero,
      show 8 * (footLen b w - 1) = 0 by omega, Nat.shiftLeft_zero, show shiftAmt b w = 8 - b - w by omega]
  · rw [oldFieldBits, Nat.min_eq_left (by omega), Nat.sub_self, Nat.shiftRight_zero,
      ← Nat.shiftLeft_sub _ (by omega), show 8 * (footLen b w - 1) - shiftAmt b w = w - (8 - b) by omega,
      Nat.shiftLeft_eq, Nat.shiftLeft_eq, ← Nat.mul_mod_mul_right, ← Nat.pow_add,
      show 8 - b + (w - (8 - b)) = w by omega]

/-- UNPACK's value after PACK's buffer write: the value, OR-ed with the field's old bits when `b > 0`. -/
theorem unpackField_packField {m m' : List Host.Cell} {o b w v : Nat} (hw : 1 ≤ w) (hb : b ≤ 7) (hv : v < 2 ^ w)
    (h : packField m o b w v = some m') :
    (b = 0 ∧ unpackField m' o b w = some v) ∨
    (b ≠ 0 ∧ ∃ old, readByte m o = some old ∧ unpackField m' o b w = some (v ||| oldFieldBits b w old.toNat)) := by
  have hw0 := Nat.ne_of_gt hw
  have hwindow : ∀ bs : List Byte, bs.length = footLen b w →
      unpackField (writeBytes m o bs) o b w = some ((joinBytes bs >>> shiftAmt b w) % 2 ^ w) := by
    intro bs hlen
    rw [unpackField, ← hlen, readBytes_writeBytes]
    simp [Nat.and_two_pow_sub_one_eq_mod]
  have himage : joinBytes (image v w b) >>> shiftAmt b w = v := by
    rw [joinBytes_image hw0 hv, ← Nat.shiftLeft_eq, Nat.shiftLeft_shiftRight]
  obtain ⟨h0, rfl⟩ | ⟨h0, old, hold, rfl⟩ := packField_some h
  · exact .inl ⟨h0, by rw [hwindow _ (image_length ..), himage, Nat.mod_eq_of_lt hv]⟩
  · have hne : image v w b ≠ [] := List.ne_nil_of_length_pos (by rw [image_length, footLen_pos hw0]; omega)
    refine .inr ⟨h0, old, hold, ?_⟩
    rw [hwindow _ (by simp), joinBytes_orHead old hne, image_length, Nat.shiftRight_or_distrib, himage,
      Nat.or_mod_two_pow, window_oldFieldBits _ hw hb, Nat.mod_eq_of_lt hv, Nat.or_comm]

/-- Settles O18: after the PACK the UNPACK's window is written, and holds the value and the field's old bits. -/
theorem unpackAfterPackReturnsTheValueOrOldBits : Obligations.UnpackAfterPackReturnsTheValueOrOldBits := by
  intro s t e e' w k k' o b g v hg hv h he'
  obtain ⟨g₀, v₀, m, hg₀, hw, hv₀, hfit, hin, hm, rfl⟩ := execPack_next h
  obtain rfl : g = g₀ := Option.some.inj (hg.symm.trans hg₀)
  obtain rfl : v = v₀ := Option.some.inj (hv.symm.trans hv₀)
  obtain ⟨hw1, hw63⟩ := legalWidth_iff.mp hw
  have hget : ((s.setBuf m).setEngine e g.succeed).engines[e']? = some _ :=
    List.getElem?_eq_getElem (by simpa using he')
  have hfits : ∀ x, x < 2 ^ w.toNat → x < 2 ^ 64 := fun x hx =>
    lt_of_lt_of_le hx (Nat.pow_le_pow_right (by decide) (by omega))
  obtain ⟨h0, hread⟩ | ⟨h0, old, hold, hread⟩ := unpackField_packField hw1 (Nat.le_of_lt_succ b.isLt) hfit hm
  · refine ⟨_, _, execUnpack_eq_next hget hw hin hread, setEngine_get_same hget _, fun _ => ?_, by omega⟩
    simp
  · refine ⟨_, _, execUnpack_eq_next hget hw hin hread, setEngine_get_same hget _, fun hb => absurd hb h0,
      fun _ => ⟨old, hold, ⟨_, val_setVal_same .., ?_⟩, fun hf => ?_⟩⟩
    · rw [BitVec.toNat_ofNat, Nat.mod_eq_of_lt (hfits _ (Nat.or_lt_two_pow hfit (oldFieldBits_lt ..)))]
      rfl
    · have hf0 : oldFieldBits b.toNat w.toNat old.toNat = 0 := hf
      simp [hf0]

/-! ## Illegal widths (R64) -/

/-- Settles O23: the width is the first thing either command looks at, once its engine exists. -/
theorem singleValueIllegalWidthFaults : Obligations.SingleValueIllegalWidthFaults := by
  intro s e w k o b he hw
  have hg := List.getElem?_eq_getElem he
  have hw := legalWidth_false_iff.mpr hw
  exact ⟨(withEngine_some _ hg).trans (if_pos hw), (withEngine_some _ hg).trans (if_pos hw)⟩

end Sys2Proof.Machine
end

section
/-! PROOFS. The block statements (41_block8.md): the window a PACK8 stores and an UNPACK8 reads, its lanes as fields of the
stream, and a block as eight single-value commands. -/

namespace Sys2Proof.Machine

open Sys2Proof.Claims

/-! ## The eight lanes of a block (R76) -/

/-- The concatenation as the sum R76 writes. -/
theorem joinFields_ofFn (w n : Nat) (f : Fin n → Nat) :
    joinFields w (List.ofFn f) = ∑ k : Fin n, f k <<< (w * (n - 1 - k.val)) := by
  induction n with
  | zero => rfl
  | succ n ih =>
    rw [List.ofFn_succ, joinFields, ih, Fin.sum_univ_succ, List.length_ofFn]
    simp [Nat.sub_add_eq, Nat.sub_right_comm]

/-- The lanes are the eight value registers, each of them written. -/
theorem lanes_eq_some_iff_val {g : Engine} {vs : List Nat} :
    g.lanes = some vs ↔ ∃ v : Fin 8 → Word, (∀ k, g.val k = some (v k)) ∧ vs = List.ofFn fun k => (v k).toNat := by
  constructor
  · intro h
    choose v hv hget using lanes_get h
    refine ⟨v, hv, List.ext_getElem? fun i => ?_⟩
    by_cases hi : i < 8
    · rw [hget ⟨i, hi⟩, List.getElem?_ofFn, dif_pos hi]
    · rw [List.getElem?_ofFn, dif_neg hi, List.getElem?_eq_none (by rw [lanes_length h]; omega)]
  · rintro ⟨v, hv, rfl⟩
    refine lanes_eq_some.mpr ⟨List.ofFn v, ?_, (List.map_ofFn ..).symm⟩
    rw [List.map_ofFn]
    refine List.ext_getElem (by simp) fun i h _ => ?_
    rw [List.getElem_ofFn, Vector.getElem_toList]
    exact hv ⟨i, by simpa using h⟩

/-- A value register is its lane of the concatenation, where the lanes fit. -/
theorem val_eq_fieldOf_joinFields {g : Engine} {w : Nat} {vs : List Nat} (hvs : g.lanes = some vs)
    (hfit : ∀ v ∈ vs, v < 2 ^ w) (k : Fin 8) : g.val k = some (BitVec.ofNat 64 (fieldOf w 8 (joinFields w vs) k)) := by
  obtain ⟨v, hv, hvk⟩ := lanes_get hvs k
  obtain ⟨hk, hvk⟩ := List.getElem?_eq_some_iff.mp hvk
  have hfield := fieldOf_joinFields hfit hk
  simp only [hvk, lanes_length hvs] at hfield
  rw [hv, hfield, BitVec.ofNat_toNat, BitVec.setWidth_eq]

/-! ## The window of a block (R76, R78) -/

theorem unpackBlock_eq_some {m : List Host.Cell} {o w x : Nat} :
    unpackBlock m o w = some x ↔ ∃ bs, readBytes m o w = some bs ∧ joinBytes bs = x := by
  rw [unpackBlock]
  cases readBytes m o w <;> simp

/-- A block with every byte written has a window. -/
theorem unpackBlock_of_written {m : List Host.Cell} {o w : Nat} (h : ∀ j, j < w → readByte m (o + j) ≠ none) :
    ∃ x, unpackBlock m o w = some x := by
  cases hbs : readBytes m o w with
  | some bs => exact ⟨_, unpackBlock_eq_some.mpr ⟨bs, hbs, rfl⟩⟩
  | none =>
    obtain ⟨a, h1, h2, ha⟩ := readBytes_eq_none hbs
    exact absurd (by rwa [Nat.add_sub_cancel' h1]) (h (a - o) (by omega))

theorem written_of_unpackBlock {m : List Host.Cell} {o w x j : Nat} (h : unpackBlock m o w = some x) (hj : j < w) :
    readByte m (o + j) ≠ none := by
  obtain ⟨bs, hbs, -⟩ := unpackBlock_eq_some.mp h
  obtain ⟨hlen, hget⟩ := readBytes_eq_some.mp hbs
  simp [hget j (by omega)]

/-- The window of a block just packed is the concatenation of its lanes (R82). -/
theorem unpackBlock_packBlock (m : List Host.Cell) (o : Nat) {w : Nat} {vs : List Nat} (hlen : vs.length = 8)
    (hfit : ∀ v ∈ vs, v < 2 ^ w) : unpackBlock (packBlock m o w vs) o w = some (joinFields w vs) := by
  have hlt := joinFields_lt hfit
  rw [hlen, Nat.mul_comm] at hlt
  have hread := readBytes_writeBytes m o (splitBytes w (joinFields w vs))
  rw [splitBytes_length] at hread
  exact unpackBlock_eq_some.mpr ⟨_, hread, by rw [joinBytes_splitBytes, Nat.mod_eq_of_lt hlt]⟩

/-- Byte `j` of a block just packed (R76). -/
theorem readByte_packBlock (m : List Host.Cell) (o : Nat) {w j : Nat} (vs : List Nat) (hj : j < w) :
    readByte (packBlock m o w vs) (o + j) = some (BitVec.ofNat 8 (joinFields w vs >>> (8 * (w - 1 - j)))) := by
  have hlen : j < (splitBytes w (joinFields w vs)).length := by simpa using hj
  rw [packBlock, readByte_writeBytes, if_pos (by omega), Nat.add_sub_cancel_left, List.getElem?_eq_getElem hlen,
    splitBytes_get]

theorem readByte_packBlock_outside (m : List Host.Cell) {o w a : Nat} (vs : List Nat) (ha : ¬ (o ≤ a ∧ a < o + w)) :
    readByte (packBlock m o w vs) a = readByte m a :=
  readByte_writeBytes_outside _ m (by rw [splitBytes_length]; omega)

/-- A lane of the window is the field of the stream at the lane's position (R78). -/
theorem streamField_of_unpackBlock {m : List Host.Cell} {o w x k : Nat} (h : unpackBlock m o w = some x) (hk : k < 8) :
    streamField m (8 * o + k * w) w = some (fieldOf w 8 x k) := by
  obtain ⟨bs, hbs, rfl⟩ := unpackBlock_eq_some.mp h
  obtain ⟨d, hd⟩ := Nat.exists_eq_add_of_le (Nat.le_of_lt_succ hk)
  have hsplit : 8 * w = k * w + d * w + w := by
    rw [← Nat.add_mul, ← hd]; omega
  rw [streamField_window hbs (by omega) (by omega), fieldOf, show 8 - 1 - k = d by omega,
    show 8 * (o + w) - (8 * o + k * w) - w = w * d by rw [Nat.mul_comm w d]; omega]

/-- A block whose eight lanes are all fields of the stream has a window: every byte of it holds a bit of some lane. -/
theorem unpackBlock_of_lanes {m : List Host.Cell} {o w : Nat}
    (h : ∀ k < 8, streamField m (8 * o + k * w) w ≠ none) : ∃ x, unpackBlock m o w = some x := by
  refine unpackBlock_of_written fun j hj hnone => ?_
  have hw : 0 < w := by omega
  have hlane : 8 * j / w < 8 := (Nat.div_lt_iff_lt_mul hw).mpr (by omega)
  have hdiv := Nat.div_add_mod' (8 * j) w
  have hmod := Nat.mod_lt (8 * j) hw
  refine h _ hlane (streamField_unwritten (q := 8 * (o + j)) ?_ (by omega) (by omega))
  rwa [Nat.mul_div_cancel_left _ (by decide)]

/-! ## The block commands (R75, R76, R78) -/

theorem hostSame_setBuf_setEngine (s : State) (m : List Host.Cell) (e : Nat) (g : Engine) :
    HostSame s ((s.setBuf m).setEngine e g) := ⟨rfl, rfl, rfl, rfl, rfl, rfl⟩

/-- A PACK8 of legal width that completes. -/
theorem execPack8_legal_next {e w o} {s t : State} (hw : Legal w) (h : execPack8 e w o s = .next t) :
    ∃ g vs, s.engines[e]? = some g ∧ g.lanes = some vs ∧ (∀ v ∈ vs, v < 2 ^ w.toNat) ∧
      o.toNat + w.toNat - 1 < s.cfg.bufBytes ∧
      t = (s.setBuf (packBlock s.buf o.toNat w.toNat vs)).setEngine e g.succeed := by
  obtain ⟨g, hg, ⟨hbad, -⟩ | ⟨-, vs, hvs, hfit, hin, rfl⟩⟩ := execPack8_next h
  · rw [legal_iff_legalWidth.mp hw] at hbad; cases hbad
  · exact ⟨g, vs, hg, hvs, hfit, hin, rfl⟩

/-- An UNPACK8 of legal width that completes. -/
theorem execUnpack8_legal_next {e w o} {s t : State} (hw : Legal w) (h : execUnpack8 e w o s = .next t) :
    ∃ g x, s.engines[e]? = some g ∧ unpackBlock s.buf o.toNat w.toNat = some x ∧
      o.toNat + w.toNat - 1 < s.cfg.bufBytes ∧ t = s.setEngine e (g.setLanes (fieldOf w.toNat 8 x)).succeed := by
  obtain ⟨g, hg, ⟨hbad, -⟩ | ⟨-, x, hx, hin, rfl⟩⟩ := execUnpack8_next h
  · rw [legal_iff_legalWidth.mp hw] at hbad; cases hbad
  · exact ⟨g, x, hg, hx, hin, rfl⟩

/-- Settles O24: the block's bytes are those of the concatenation, which is the sum over the lanes. -/
theorem pack8StoresTheBlock : Obligations.Pack8StoresTheBlock := by
  intro s e w o g v hg hw hv hfit hin
  have hvs := lanes_eq_some_iff_val.mpr ⟨v, hv, rfl⟩
  have hexec := execPack8_eq_next (o := o) hg (legal_iff_legalWidth.mp hw) hvs (List.forall_mem_ofFn_iff.mpr hfit) hin
  refine ⟨_, g.succeed, hexec, fun j hj => ⟨_, readByte_packBlock _ _ _ hj, ?_⟩,
    fun a ha => readByte_packBlock_outside _ _ ha, setEngine_get_same (s := s.setBuf _) hg _, rfl, doneWell_succeed g,
    otherEnginesSame_setEngine (s.setBuf _) e _, hostSame_setBuf_setEngine s _ e _⟩
  rw [joinFields_ofFn, BitVec.toNat_ofNat, Nat.and_two_pow_sub_one_eq_mod _ 8]

/-- Settles O25: each lane of the window is the field of the stream at its position. -/
theorem unpack8ReadsTheLanes : Obligations.Unpack8ReadsTheLanes := by
  intro s e w o g hg hw hin hwritten
  obtain ⟨x, hx⟩ := unpackBlock_of_written hwritten
  exact ⟨_, _, execUnpack8_eq_next hg (legal_iff_legalWidth.mp hw) hin hx, setEngine_get_same hg _,
    fun k => ⟨_, streamField_of_unpackBlock hx k.isLt, Nat.mod_lt _ (Nat.two_pow_pos _), val_setLanes g _ k⟩,
    doneWell_succeed _, otherEnginesSame_setEngine s e _, rfl, hostSame_setBuf_setEngine s s.buf e _⟩

/-- Settles O26: the width is the first thing either command looks at, once its engine exists. -/
theorem invalidBlockWidthIsReportedAndDoesNothingElse : Obligations.InvalidBlockWidthIsReportedAndDoesNothingElse := by
  intro s e w o g i hg hw hi
  have hw := legalWidth_false_iff.mpr hw
  have hexec : exec i s = .next (s.invalidWidth e g w) := by
    obtain rfl | rfl := hi
    · exact execPack8_illegal hg hw
    · exact execUnpack8_illegal hg hw
  exact ⟨_, _, hexec, setEngine_get_same hg _, rfl, rfl, rfl, rfl, rfl, otherEnginesSame_setEngine s e _, rfl,
    hostSame_setBuf_setEngine s s.buf e _⟩

/-- Settles O29: PACK8 stores one run over the block, and UNPACK8 has a window only where the block is written. -/
theorem blockCommandsTouchExactlyTheirBytes : Obligations.BlockCommandsTouchExactlyTheirBytes := by
  intro s t e w o hw
  refine ⟨fun h => ?_, fun h => ?_⟩
  · obtain ⟨g, vs, -, -, -, -, rfl⟩ := execPack8_legal_next hw h
    exact ⟨fun a ha => readByte_packBlock_outside _ vs ha, fun j hj => by simp [readByte_packBlock _ _ vs hj]⟩
  · obtain ⟨g, x, hg, hx, hin, rfl⟩ := execUnpack8_legal_next hw h
    refine ⟨rfl, fun j hj => written_of_unpackBlock hx hj, fun m hm => ?_⟩
    have hagree : unpackBlock m o.toNat w.toNat = unpackBlock s.buf o.toNat w.toNat := unpackBlock_congr fun a h1 h2 => by
      simpa [h1] using hm (a - o.toNat) (by omega)
    exact execUnpack8_eq_next (s := s.setBuf m) hg (legal_iff_legalWidth.mp hw) hin (hagree.trans hx)

/-- Settles O31: the block still holds the concatenation, whose fields are the values packed. -/
theorem unpack8AfterPack8ReturnsTheValues : Obligations.Unpack8AfterPack8ReturnsTheValues := by
  intro s t t' e e' w o g hw hg h hcfg he' hbytes
  obtain ⟨g₀, vs, hg₀, hvs, hfit, hin, rfl⟩ := execPack8_legal_next hw h
  obtain rfl : g = g₀ := Option.some.inj (hg.symm.trans hg₀)
  have hx : unpackBlock t'.buf o.toNat w.toNat = some (joinFields w.toNat vs) := by
    rw [← unpackBlock_packBlock s.buf o.toNat (lanes_length hvs) hfit]
    exact unpackBlock_congr fun a h1 h2 => by simpa [h1] using hbytes (a - o.toNat) (by omega)
  have hget := List.getElem?_eq_getElem he'
  refine ⟨_, _, execUnpack8_eq_next hget (legal_iff_legalWidth.mp hw) (hcfg ▸ hin) hx, setEngine_get_same hget _, ?_⟩
  exact Vector.ext fun k hk =>
    (val_setLanes t'.engines[e'] _ ⟨k, hk⟩).trans (val_eq_fieldOf_joinFields hvs hfit ⟨k, hk⟩).symm

end Sys2Proof.Machine
end

section
/-! PROOFS. The block statements that speak of several commands (41_block8.md): neighbouring blocks, runs packed as blocks
and a rest, and a block as eight single-value commands. -/

namespace Sys2Proof.Machine

open Sys2Proof.Claims

/-! ## Instructions one after another -/

theorem execAll_cons_next {i : Instr} {is : List Instr} {s t : State} :
    execAll (i :: is) s = .next t ↔ ∃ u, exec i s = .next u ∧ execAll is u = .next t := by
  rw [execAll]
  cases exec i s <;> simp

theorem execAll_pair_next {i i' : Instr} {s t : State} :
    execAll [i, i'] s = .next t ↔ ∃ u, exec i s = .next u ∧ exec i' u = .next t := by
  have hnil : ∀ u, execAll [] u = .next u := fun _ => rfl
  simp [execAll_cons_next, hnil]

/-- The commands of a run that completes all complete, each in a state that has what every command keeps. -/
theorem execAll_next_each {P : State → Prop} {is : List Instr} {s t : State} (h : execAll is s = .next t) (hs : P s)
    (hkeep : ∀ i ∈ is, ∀ u u', P u → exec i u = .next u' → P u') :
    ∀ i ∈ is, ∃ u u', P u ∧ exec i u = .next u' := by
  induction is generalizing s with
  | nil => simp
  | cons i is ih =>
    obtain ⟨u, hi, hrest⟩ := execAll_cons_next.mp h
    have hu := hkeep i List.mem_cons_self s u hs hi
    exact List.forall_mem_cons.mpr
      ⟨⟨s, u, hs, hi⟩, ih hrest hu fun j hj => hkeep j (List.mem_cons_of_mem _ hj)⟩

/-! ## Blocks that share no byte (R81) -/

theorem packBlock_comm (m : List Host.Cell) {o o' w : Nat} (vs vs' : List Nat)
    (hapart : o + w ≤ o' ∨ o' + w ≤ o) :
    packBlock (packBlock m o w vs) o' w vs' = packBlock (packBlock m o' w vs') o w vs :=
  writeBytes_comm _ _ m fun x => by simp only [splitBytes_length]; omega

/-- PACK8s of blocks that share no byte, by any engines, complete in either order, with the same state. -/
theorem execPack8_swap {e e' w o o'} {s u t : State} (hw : Legal w)
    (hapart : o.toNat + w.toNat ≤ o'.toNat ∨ o'.toNat + w.toNat ≤ o.toNat)
    (h : execPack8 e w o s = .next u) (h' : execPack8 e' w o' u = .next t) :
    ∃ u', execPack8 e' w o' s = .next u' ∧ execPack8 e w o u' = .next t := by
  have hlegal := legal_iff_legalWidth.mp hw
  obtain ⟨g, vs, hg, hvs, hfit, hin, rfl⟩ := execPack8_legal_next hw h
  obtain ⟨g', vs', hg', hvs', hfit', hin', rfl⟩ := execPack8_legal_next hw h'
  have hbuf := packBlock_comm s.buf vs vs' hapart
  by_cases he : e = e'
  · subst he
    obtain rfl : g.succeed = g' := Option.some.inj ((setEngine_get_same (s := s.setBuf _) hg _).symm.trans hg')
    have hgt := setEngine_get_same (s := s.setBuf (packBlock s.buf o'.toNat w.toNat vs')) hg g.succeed
    refine ⟨_, execPack8_eq_next hg hlegal hvs' hfit' hin', (execPack8_eq_next hgt hlegal hvs hfit hin).trans ?_⟩
    rw [setBuf_setEngine_twice, setBuf_setEngine_twice]
    simp only [setEngine_buf, setBuf_buf, hbuf]
  · have hgs' : s.engines[e']? = some g' := (setEngine_get_other (s.setBuf _) he _).symm.trans hg'
    have hgt := (setEngine_get_other (s.setBuf (packBlock s.buf o'.toNat w.toNat vs')) (Ne.symm he) g'.succeed).trans hg
    refine ⟨_, execPack8_eq_next hgs' hlegal hvs' hfit' hin', (execPack8_eq_next hgt hlegal hvs hfit hin).trans ?_⟩
    exact congrArg _ (storeRun_comm s g'.succeed g.succeed (Ne.symm he) fun x => by
      simp only [splitBytes_length]; omega)

/-- Settles O30: the two blocks share no byte, in either order. -/
theorem neighbouringBlocksAreIndependent : Obligations.NeighbouringBlocksAreIndependent := by
  intro s e e' w o o' hw ho
  have hframe := blockCommandsTouchExactlyTheirBytes s
  refine ⟨fun t => ?_, fun u h => ((hframe u e w o hw).1 h).1, fun u h => ((hframe u e' w o' hw).1 h).1⟩
  rw [execAll_pair_next, execAll_pair_next]
  constructor
  · rintro ⟨u, h, h'⟩; exact execPack8_swap hw (.inl ho.ge) h h'
  · rintro ⟨u, h, h'⟩; exact execPack8_swap hw (.inr ho.ge) h h'

/-! ## Runs of PACKs (R74, R84) -/

theorem moveCursor_zero (o : Nat) {b : Nat} (hb : b ≤ 7) : moveCursor o b 0 = (o, b) := moveCursor_in_byte hb

theorem moveCursor_moveCursor (o b i j : Nat) :
    moveCursor (moveCursor o b i).1 (moveCursor o b i).2 j = moveCursor o b (i + j) := by
  simp only [moveCursor, Prod.mk.injEq]; omega

theorem moveCursor_snd_le (o b k : Nat) : (moveCursor o b k).2 ≤ 7 := by simp only [moveCursor]; omega

/-- A run of PACKs is its first part and then the rest at the cursor after it. -/
theorem packRun_append (w : Nat) (m : List Host.Cell) (o : Nat) {b : Nat} (us vs : List Nat) (hb : b ≤ 7) :
    packRun w m o b (us ++ vs) = (packRun w m o b us).bind fun m' =>
      packRun w m' (moveCursor o b (us.length * w)).1 (moveCursor o b (us.length * w)).2 vs := by
  induction us generalizing m o b with
  | nil => simp [packRun, moveCursor_zero o hb]
  | cons u us ih =>
    rw [List.cons_append, packRun_cons, packRun_cons, Option.bind_assoc]
    refine congrArg (Option.bind _) (funext fun m' => ?_)
    rw [ih m' _ (moveCursor_snd_le o b w), moveCursor_moveCursor, List.length_cons, Nat.succ_mul, Nat.add_comm w]

/-- A run of PACKs from a byte's start stores the image of the concatenation (R74). -/
theorem packRun_aligned (m : List Host.Cell) (o : Nat) {w : Nat} {vs : List Nat} (hw1 : 1 ≤ w) (hw63 : w ≤ 63)
    (hfit : ∀ v ∈ vs, v < 2 ^ w) :
    packRun w m o 0 vs = some (writeBytes m o (image (joinFields w vs) (vs.length * w) 0)) := by
  by_cases hne : vs = []
  · simp [hne, packRun, image_no_bits, writeBytes]
  · rw [sequentialPacksMakeTheConcatenation m o 0 w vs hw1 hw63 (by decide) hne hfit, packField_aligned]

/-- The image of eight fields from a byte's start is the block's bytes (R76). -/
theorem image_block (x : Nat) {w : Nat} (hw : 1 ≤ w) : image x (8 * w) 0 = splitBytes w x := by
  have hlen : footLen 0 (8 * w) = w := by rw [footLen_pos (by omega)]; omega
  simp [image, shiftAmt, hlen]

/-- Eight PACKs from a byte's start make the buffer write of PACK8 (R79). -/
theorem packRun_block (m : List Host.Cell) (o : Nat) {w : Nat} {vs : List Nat} (hw1 : 1 ≤ w) (hw63 : w ≤ 63)
    (hlen : vs.length = 8) (hfit : ∀ v ∈ vs, v < 2 ^ w) : packRun w m o 0 vs = some (packBlock m o w vs) := by
  rw [packRun_aligned m o hw1 hw63 hfit, hlen, image_block _ hw1, packBlock]

/-- PACK8s of blocks and then PACKs of a rest are PACKs of all the values (R84). -/
theorem packRun_blocks (m : List Host.Cell) (o : Nat) {w : Nat} {bs : List (List Nat)} (rest : List Nat) (hw1 : 1 ≤ w)
    (hw63 : w ≤ 63) (hbs : ∀ vs ∈ bs, vs.length = 8 ∧ ∀ v ∈ vs, v < 2 ^ w) :
    packRun w m o 0 (bs.flatten ++ rest) = packRun w (packBlocks w m o bs) (o + w * bs.length) 0 rest := by
  induction bs generalizing m o with
  | nil => rfl
  | cons vs bs ih =>
    obtain ⟨⟨hlen, hfit⟩, hbs⟩ := List.forall_mem_cons.mp hbs
    have hcursor : moveCursor o 0 (8 * w) = (o + w, 0) := by simp only [moveCursor, Prod.mk.injEq]; omega
    rw [List.flatten_cons, List.append_assoc, packRun_append w m o vs _ (Nat.zero_le 7),
      packRun_block m o hw1 hw63 hlen hfit, Option.bind_some, hlen, hcursor, ih _ _ hbs, packBlocks, List.length_cons,
      Nat.mul_succ, Nat.add_right_comm, Nat.add_assoc o]

/-- The values of blocks of eight. -/
theorem length_flatten_blocks {α : Type} {bs : List (List α)} (h : ∀ vs ∈ bs, vs.length = 8) :
    bs.flatten.length = 8 * bs.length := by
  rw [List.length_flatten, List.map_congr_left h, List.map_const', List.sum_replicate, smul_eq_mul, Nat.mul_comm]

/-- Settles O32: both runs store the image of the concatenation of all the values. -/
theorem blocksThenRestEqualsSinglePacks : Obligations.BlocksThenRestEqualsSinglePacks := by
  intro m o w bs rest hw1 hw63 hbs hrest
  have hfit : ∀ v ∈ bs.flatten ++ rest, v < 2 ^ w := by
    simp only [List.mem_append, List.mem_flatten]
    rintro v (⟨vs, hvs, hv⟩ | hv)
    · exact (hbs vs hvs).2 v hv
    · exact hrest v hv
  have hall := packRun_aligned m o hw1 hw63 hfit
  rw [List.length_append, length_flatten_blocks fun vs hvs => (hbs vs hvs).1] at hall
  refine ⟨_, (packRun_blocks m o rest hw1 hw63 hbs).symm.trans hall, hall, ?_⟩
  generalize (8 * bs.length + rest.length) * w = n
  have hbytes : (image (joinFields w (bs.flatten ++ rest)) n 0).length = (n + 7) / 8 := by
    rw [image_length, footLen, ceil8]; split <;> omega
  refine ⟨fun a ha => readByte_writeBytes_outside _ m (by omega), fun j hj => ?_⟩
  rw [readByte_writeBytes, if_pos (by omega)]
  simp [hbytes, hj]

/-! ## A block as eight single-value commands (R79, R85) -/

/-- Lane `k`'s offset and bit offset are the cursor after the lanes before it (R85). -/
theorem moveCursor_lane (o w k : Nat) : moveCursor o 0 (k * w) = (o + laneByte w k, laneBit w k) := by
  simp only [moveCursor, laneByte, laneBit, Prod.mk.injEq]; omega

/-- The PACK of lane `k` (R79). -/
def lanePack (e : Nat) (w : BitVec 8) (o : BitVec 32) (k : Fin 8) : Instr :=
  .pack e w k (BitVec.ofNat 32 (o.toNat + laneByte w.toNat k)) (BitVec.ofNat 3 (laneBit w.toNat k))

theorem lanePacks_eq (e w o) : lanePacks e w o = (List.finRange 8).map (lanePack e w o) := rfl

/-- The UNPACK of lane `k` (R79). -/
def laneUnpack (e : Nat) (w : BitVec 8) (o : BitVec 32) (k : Fin 8) : Instr :=
  .unpack e w k (BitVec.ofNat 32 (o.toNat + laneByte w.toNat k)) (BitVec.ofNat 3 (laneBit w.toNat k))

theorem laneUnpacks_eq (e w o) : laneUnpacks e w o = (List.finRange 8).map (laneUnpack e w o) := rfl

theorem laneBit_toNat (w k : Nat) : (BitVec.ofNat 3 (laneBit w k)).toNat = laneBit w k := by
  have := laneBit_le w k
  rw [BitVec.toNat_ofNat, Nat.mod_eq_of_lt (by omega)]

/-- Every lane ends inside the block. -/
theorem lane_end_le {w : Nat} (k : Fin 8) (hw : 1 ≤ w) : laneByte w k + footLen (laneBit w k) w ≤ w := by
  have hblock : (k.val + 1) * w ≤ 8 * w := Nat.mul_le_mul_right w k.isLt
  rw [← laneSpan_eq_footLen k (by omega), lane_end k (by omega), ceil8]
  omega

theorem lane_last_end {w : Nat} (hw : 1 ≤ w) : laneByte w 7 + footLen (laneBit w 7) w = w := by
  rw [← laneSpan_eq_footLen 7 (by omega), lane_end 7 (by omega), ceil8]
  omega

/-- A lane's offset does not wrap in BYTEOFF where the block ends inside its 32 bits. -/
theorem laneByte_toNat {w : Nat} (o : BitVec 32) (k : Fin 8) (hw : 1 ≤ w) (hin : o.toNat + w ≤ 2 ^ 32) :
    (BitVec.ofNat 32 (o.toNat + laneByte w k)).toNat = o.toNat + laneByte w k := by
  have hend := lane_end_le k hw
  rw [footLen_pos (by omega)] at hend
  rw [BitVec.toNat_ofNat, Nat.mod_eq_of_lt (by omega)]

theorem setEngine_self {s : State} {e : Nat} {g : Engine} (hg : s.engines[e]? = some g) : s.setEngine e g = s := by
  obtain ⟨he, rfl⟩ := List.getElem?_eq_some_iff.mp hg
  simp [State.setEngine]

/-! ### PACK8 -/

theorem exec_lanePack_eq_next {e w o k} {s : State} {g : Engine} {v : Word} {m : List Host.Cell}
    (hg : s.engines[e]? = some g) (hw : Legal w) (hv : g.val k = some v) (hfit : v.toNat < 2 ^ w.toNat)
    (hin : o.toNat + w.toNat - 1 < s.cfg.bufBytes) (h32 : o.toNat + w.toNat ≤ 2 ^ 32)
    (hm : packField s.buf (o.toNat + laneByte w.toNat k) (laneBit w.toNat k) w.toNat v.toNat = some m) :
    exec (lanePack e w o k) s = .next ((s.setBuf m).setEngine e g.succeed) := by
  have hend := lane_end_le k hw.1
  refine execPack_eq_next hg (legal_iff_legalWidth.mp hw) hv hfit ?_ ?_ <;>
    rw [laneByte_toNat o k hw.1 h32, laneBit_toNat]
  · omega
  · exact hm

/-- PACKs of consecutive lanes, the first of them lane `j`, are a run of PACKs from the cursor of lane `j`. -/
theorem execAll_lanePacks_run {e w o m} {s : State} {g : Engine} {v : Fin 8 → Word} (ks : List (Fin 8)) (j : Nat)
    (hg : s.engines[e]? = some g) (hw : Legal w) (hv : ∀ k, g.val k = some (v k))
    (hfit : ∀ k, (v k).toNat < 2 ^ w.toNat) (hin : o.toNat + w.toNat - 1 < s.cfg.bufBytes)
    (h32 : o.toNat + w.toNat ≤ 2 ^ 32) (hks : ks.map Fin.val = List.range' j ks.length)
    (hrun : packRun w.toNat s.buf (moveCursor o.toNat 0 (j * w.toNat)).1 (moveCursor o.toNat 0 (j * w.toNat)).2
      (ks.map fun k => (v k).toNat) = some m) :
    execAll (ks.map (lanePack e w o)) s = .next ((s.setBuf m).setEngine e (Engine.succeed^[ks.length] g)) := by
  induction ks generalizing s g j with
  | nil =>
    obtain rfl := Option.some.inj hrun
    exact congrArg _ (setEngine_self hg).symm
  | cons k ks ih =>
    obtain ⟨rfl, hks⟩ := List.cons.inj hks
    rw [List.map_cons, packRun_cons, moveCursor_moveCursor, ← Nat.succ_mul] at hrun
    obtain ⟨m₁, hm₁, hrest⟩ := Option.bind_eq_some_iff.mp hrun
    rw [moveCursor_lane] at hm₁
    have hfirst := exec_lanePack_eq_next hg hw (hv k) (hfit k) hin h32 hm₁
    have hothers := ih (k.val + 1) (setEngine_get_same (s := s.setBuf m₁) hg g.succeed) hv hin hks hrest
    rw [setBuf_setEngine_twice] at hothers
    exact execAll_cons_next.mpr ⟨_, hfirst, hothers⟩

/-- Where PACK8 finds what it needs, its eight PACKs complete and leave what it leaves. -/
theorem execAll_lanePacks_eq_next {e w o} {s : State} {g : Engine} {vs : List Nat} (hg : s.engines[e]? = some g)
    (hw : Legal w) (hvs : g.lanes = some vs) (hfit : ∀ v ∈ vs, v < 2 ^ w.toNat)
    (hin : o.toNat + w.toNat - 1 < s.cfg.bufBytes) (h32 : o.toNat + w.toNat ≤ 2 ^ 32) :
    execAll (lanePacks e w o) s =
      .next ((s.setBuf (packBlock s.buf o.toNat w.toNat vs)).setEngine e g.succeed) := by
  have hrun := packRun_block s.buf o.toNat hw.1 hw.2 (lanes_length hvs) hfit
  obtain ⟨v, hv, rfl⟩ := lanes_eq_some_iff_val.mp hvs
  rw [List.forall_mem_ofFn_iff] at hfit
  rw [List.ofFn_eq_map] at hrun ⊢
  rw [lanePacks_eq]
  refine execAll_lanePacks_run (List.finRange 8) 0 hg hw hv hfit hin h32 (by decide) ?_
  rwa [Nat.zero_mul, moveCursor_zero _ (Nat.zero_le 7)]

/-- The parameters and the value registers of engine `e` are as before: what the PACKs of a block leave to each other. -/
def OperandsSame (e : Nat) (s u : State) : Prop :=
  u.cfg = s.cfg ∧ u.engines[e]?.map Engine.vals = s.engines[e]?.map Engine.vals

theorem lanePack_keeps_operands {e w o k} {s u u' : State} (hu : OperandsSame e s u)
    (h : exec (lanePack e w o k) u = .next u') : OperandsSame e s u' := by
  obtain ⟨hcfg, hvals⟩ := hu
  obtain ⟨g, v, m, hg, -, -, -, -, -, rfl⟩ := execPack_next h
  refine ⟨hcfg, .trans ?_ hvals⟩
  rw [setEngine_get_same (s := u.setBuf m) hg, hg]
  rfl

/-- Where the eight PACKs complete, each found its value and its bytes. -/
theorem lane_of_execAll_lanePacks {e w o} {s t : State} (hw : Legal w) (h32 : o.toNat + w.toNat ≤ 2 ^ 32)
    (h : execAll (lanePacks e w o) s = .next t) (k : Fin 8) :
    ∃ g v, s.engines[e]? = some g ∧ g.val k = some v ∧ v.toNat < 2 ^ w.toNat ∧
      o.toNat + (laneByte w.toNat k + footLen (laneBit w.toNat k) w.toNat) - 1 < s.cfg.bufBytes := by
  have heach := execAll_next_each (P := OperandsSame e s) h ⟨rfl, rfl⟩
  rw [lanePacks_eq, List.forall_mem_map, List.forall_mem_map] at heach
  obtain ⟨u, u', ⟨hcfg, hvals⟩, hu⟩ := heach (fun k _ _ _ => lanePack_keeps_operands) k (List.mem_finRange k)
  obtain ⟨g', v, m, hg', -, hv, hfit, hin, -, -⟩ := execPack_next hu
  rw [hg', eq_comm] at hvals
  obtain ⟨g, hg, hgg⟩ := Option.map_eq_some_iff.mp hvals
  rw [laneByte_toNat o k hw.1 h32, laneBit_toNat, hcfg, Nat.add_assoc] at hin
  refine ⟨g, v, hg, ?_, hfit, hin⟩
  rwa [Engine.val, hgg]

/-- Where the eight PACKs complete, PACK8 finds what it needs. -/
theorem pack8_operands_of_lanePacks {e w o} {s t : State} (hw : Legal w) (h32 : o.toNat + w.toNat ≤ 2 ^ 32)
    (h : execAll (lanePacks e w o) s = .next t) :
    ∃ g vs, s.engines[e]? = some g ∧ g.lanes = some vs ∧ (∀ v ∈ vs, v < 2 ^ w.toNat) ∧
      o.toNat + w.toNat - 1 < s.cfg.bufBytes := by
  have hlane := lane_of_execAll_lanePacks hw h32 h
  obtain ⟨g, -, hg, -, -, hin⟩ := hlane 7
  have hregs : ∀ k, ∃ v, g.val k = some v ∧ v.toNat < 2 ^ w.toNat := fun k => by
    obtain ⟨g', v, hg', hv, hfit, -⟩ := hlane k
    obtain rfl : g = g' := Option.some.inj (hg.symm.trans hg')
    exact ⟨v, hv, hfit⟩
  choose v hv hfit using hregs
  exact ⟨g, _, hg, lanes_eq_some_iff_val.mpr ⟨v, hv, rfl⟩, List.forall_mem_ofFn_iff.mpr hfit,
    lane_last_end hw.1 ▸ hin⟩

/-! ### UNPACK8 -/

/-- A lane's cursor is the lane's position in the stream (R85). -/
theorem unpackField_lane (m : List Host.Cell) (o : Nat) {w : Nat} (k : Nat) (hw : 1 ≤ w) :
    unpackField m (o + laneByte w k) (laneBit w k) w = streamField m (8 * o + k * w) w := by
  rw [unpackField_eq_streamField m _ hw (laneBit_le w k), ← lane_position w k, Nat.mul_add, Nat.add_assoc]

/-- What an UNPACK of lane `k` leaves of its engine when lane `k` reads `f k`. -/
def Engine.unpackLane (f : Nat → Nat) (g : Engine) (k : Fin 8) : Engine := (g.setVal k (BitVec.ofNat 64 (f k))).succeed

/-- A register that holds its lane holds it still after UNPACKs of lanes, and after its own UNPACK it does. -/
theorem val_foldl_unpackLane {f : Nat → Nat} {g : Engine} {ks : List (Fin 8)} {k : Fin 8}
    (h : g.val k = some (BitVec.ofNat 64 (f k)) ∨ k ∈ ks) :
    (ks.foldl (Engine.unpackLane f) g).val k = some (BitVec.ofNat 64 (f k)) := by
  induction ks generalizing g with
  | nil => exact h.resolve_right List.not_mem_nil
  | cons k' ks ih =>
    refine ih ?_
    by_cases hk : k' = k
    · subst hk; exact .inl (val_setVal_same g k' _)
    · exact h.imp (val_setVal_other g _ hk).trans fun hmem => (List.mem_cons.mp hmem).resolve_left (Ne.symm hk)

/-- The UNPACKs of all eight lanes leave of their engine what UNPACK8 leaves. -/
theorem foldl_unpackLane (f : Nat → Nat) (g : Engine) :
    (List.finRange 8).foldl (Engine.unpackLane f) g = (g.setLanes f).succeed :=
  engine_ext rfl rfl fun k =>
    (val_foldl_unpackLane (.inr (List.mem_finRange k))).trans (val_setLanes g f k).symm

theorem exec_laneUnpack_eq_next {e w o k x} {s : State} {g : Engine} (hg : s.engines[e]? = some g) (hw : Legal w)
    (hin : o.toNat + w.toNat - 1 < s.cfg.bufBytes) (h32 : o.toNat + w.toNat ≤ 2 ^ 32)
    (hx : unpackBlock s.buf o.toNat w.toNat = some x) :
    exec (laneUnpack e w o k) s = .next (s.setEngine e (g.unpackLane (fieldOf w.toNat 8 x) k)) := by
  have hend := lane_end_le k hw.1
  refine execUnpack_eq_next hg (legal_iff_legalWidth.mp hw) ?_ ?_ <;>
    rw [laneByte_toNat o k hw.1 h32, laneBit_toNat]
  · omega
  · rw [unpackField_lane _ _ _ hw.1, streamField_of_unpackBlock hx k.isLt]

/-- UNPACKs of lanes of one block set their registers one after another. -/
theorem execAll_laneUnpacks_run {e w o x} {s : State} {g : Engine} (ks : List (Fin 8)) (hg : s.engines[e]? = some g)
    (hw : Legal w) (hin : o.toNat + w.toNat - 1 < s.cfg.bufBytes) (h32 : o.toNat + w.toNat ≤ 2 ^ 32)
    (hx : unpackBlock s.buf o.toNat w.toNat = some x) :
    execAll (ks.map (laneUnpack e w o)) s =
      .next (s.setEngine e (ks.foldl (Engine.unpackLane (fieldOf w.toNat 8 x)) g)) := by
  induction ks generalizing s g with
  | nil => exact congrArg _ (setEngine_self hg).symm
  | cons k ks ih =>
    have hothers := ih (setEngine_get_same hg (g.unpackLane (fieldOf w.toNat 8 x) k)) hin hx
    rw [setEngine_twice] at hothers
    exact execAll_cons_next.mpr ⟨_, exec_laneUnpack_eq_next hg hw hin h32 hx, hothers⟩

/-- Where UNPACK8 finds what it needs, its eight UNPACKs complete and leave what it leaves. -/
theorem execAll_laneUnpacks_eq_next {e w o x} {s : State} {g : Engine} (hg : s.engines[e]? = some g) (hw : Legal w)
    (hin : o.toNat + w.toNat - 1 < s.cfg.bufBytes) (h32 : o.toNat + w.toNat ≤ 2 ^ 32)
    (hx : unpackBlock s.buf o.toNat w.toNat = some x) :
    execAll (laneUnpacks e w o) s = .next (s.setEngine e (g.setLanes (fieldOf w.toNat 8 x)).succeed) := by
  rw [laneUnpacks_eq, execAll_laneUnpacks_run _ hg hw hin h32 hx, foldl_unpackLane]

/-- The parameters, the buffer and the number of engines are as before: what UNPACKs leave to each other. -/
def SourceSame (s u : State) : Prop := u.cfg = s.cfg ∧ u.buf = s.buf ∧ u.engines.length = s.engines.length

theorem laneUnpack_keeps_source {e w o k} {s u u' : State} (hu : SourceSame s u)
    (h : exec (laneUnpack e w o k) u = .next u') : SourceSame s u' := by
  obtain ⟨hcfg, hbuf, hcount⟩ := hu
  obtain ⟨g, v, -, -, -, -, rfl⟩ := execUnpack_next h
  exact ⟨hcfg, hbuf, by simpa using hcount⟩

/-- Where the eight UNPACKs complete, each found its field and its bytes. -/
theorem lane_of_execAll_laneUnpacks {e w o} {s t : State} (hw : Legal w) (h32 : o.toNat + w.toNat ≤ 2 ^ 32)
    (h : execAll (laneUnpacks e w o) s = .next t) (k : Fin 8) :
    e < s.engines.length ∧ streamField s.buf (8 * o.toNat + k * w.toNat) w.toNat ≠ none ∧
      o.toNat + (laneByte w.toNat k + footLen (laneBit w.toNat k) w.toNat) - 1 < s.cfg.bufBytes := by
  have heach := execAll_next_each (P := SourceSame s) h ⟨rfl, rfl, rfl⟩
  rw [laneUnpacks_eq, List.forall_mem_map, List.forall_mem_map] at heach
  obtain ⟨u, u', ⟨hcfg, hbuf, hcount⟩, hu⟩ := heach (fun k _ _ _ => laneUnpack_keeps_source) k (List.mem_finRange k)
  obtain ⟨g, v, hg, -, hin, hv, -⟩ := execUnpack_next hu
  rw [laneByte_toNat o k hw.1 h32, laneBit_toNat] at hin hv
  rw [unpackField_lane _ _ _ hw.1, hbuf] at hv
  rw [hcfg, Nat.add_assoc] at hin
  exact ⟨hcount ▸ (List.getElem?_eq_some_iff.mp hg).1, by simp [hv], hin⟩

/-- Where the eight UNPACKs complete, UNPACK8 finds what it needs. -/
theorem unpack8_operands_of_laneUnpacks {e w o} {s t : State} (hw : Legal w) (h32 : o.toNat + w.toNat ≤ 2 ^ 32)
    (h : execAll (laneUnpacks e w o) s = .next t) :
    ∃ g x, s.engines[e]? = some g ∧ unpackBlock s.buf o.toNat w.toNat = some x ∧
      o.toNat + w.toNat - 1 < s.cfg.bufBytes := by
  have hlane := lane_of_execAll_laneUnpacks hw h32 h
  obtain ⟨he, -, hin⟩ := hlane 7
  obtain ⟨x, hx⟩ := unpackBlock_of_lanes fun k hk => (hlane ⟨k, hk⟩).2.1
  exact ⟨_, x, List.getElem?_eq_getElem he, hx, lane_last_end hw.1 ▸ hin⟩

/-- Settles O28: the block command and its eight single commands need the same of the state and leave the same. -/
theorem blockCommandsEqualEightSingleCommands : Obligations.BlockCommandsEqualEightSingleCommands := by
  intro s t e w o hw hbytes
  have hw1 := hw.1
  have hlegal := legal_iff_legalWidth.mp hw
  refine ⟨fun h => ?_, fun h => ?_, fun h32 => ⟨fun h => ?_, fun h => ?_⟩⟩
  · obtain ⟨g, vs, hg, hvs, hfit, hin, rfl⟩ := execPack8_legal_next hw h
    exact execAll_lanePacks_eq_next hg hw hvs hfit hin (by omega)
  · obtain ⟨g, x, hg, hx, hin, rfl⟩ := execUnpack8_legal_next hw h
    exact execAll_laneUnpacks_eq_next hg hw hin (by omega) hx
  · obtain ⟨g, vs, hg, hvs, hfit, hin⟩ := pack8_operands_of_lanePacks hw h32 h
    rw [← h, execAll_lanePacks_eq_next hg hw hvs hfit hin h32]
    exact execPack8_eq_next hg hlegal hvs hfit hin
  · obtain ⟨g, x, hg, hx, hin⟩ := unpack8_operands_of_laneUnpacks hw h32 h
    rw [← h, execAll_laneUnpacks_eq_next hg hw hin h32 hx]
    exact execUnpack8_eq_next hg hlegal hin hx

end Sys2Proof.Machine
end

section
/-! PROOFS. The byte multiplexer (42_block_schedule.md, R87): which lanes reach a block byte, and what each gives it, bit by
bit. -/

namespace Sys2Proof.Machine

/-! ## Which lanes reach a byte -/

/-- A lane reaches the bytes that hold a bit of its stream positions `k*w .. (k+1)*w - 1`. -/
theorem laneReaches_iff {w : Nat} (j k : Nat) (hw : w ≠ 0) :
    laneReaches w j k = true ↔ k * w < 8 * (j + 1) ∧ 8 * j < (k + 1) * w := by
  rw [laneReaches, lane_end k hw, laneByte, ceil8, Bool.and_eq_true, decide_eq_true_iff, decide_eq_true_iff]
  omega

theorem mem_laneSources {w : Nat} (j k : Nat) (hw : w ≠ 0) :
    k ∈ laneSources w j ↔ k < 8 ∧ k * w < 8 * (j + 1) ∧ 8 * j < (k + 1) * w := by
  rw [laneSources, List.mem_filter, List.mem_range, laneReaches_iff j k hw]

/-- The sources of a byte are the lanes from the owner of its first bit to the owner of its last. -/
theorem laneSources_toFinset {w j : Nat} (hj : j < w) :
    (laneSources w j).toFinset = Finset.Icc (8 * j / w) ((8 * j + 7) / w) := by
  have hw : 0 < w := by omega
  have hlast : (8 * j + 7) / w < 8 := (Nat.div_lt_iff_lt_mul hw).mpr (by omega)
  ext k
  rw [List.mem_toFinset, mem_laneSources j k (by omega), Finset.mem_Icc, ← Nat.lt_succ_iff (m := 8 * j / w),
    Nat.div_lt_iff_lt_mul hw, Nat.le_div_iff_mul_le hw]
  constructor
  · rintro ⟨-, hfirst, hend⟩; exact ⟨hend, by omega⟩
  · rintro ⟨hend, hfirst⟩; exact ⟨((Nat.le_div_iff_mul_le hw).mpr hfirst).trans_lt hlast, by omega, hend⟩

theorem laneSources_length {w j : Nat} (hj : j < w) :
    (laneSources w j).length = (8 * j + 7) / w + 1 - 8 * j / w := by
  have hnodup : (laneSources w j).Nodup := List.nodup_range.filter _
  rw [← List.toFinset_card_of_nodup hnodup, laneSources_toFinset hj, Nat.card_Icc]

/-! ## The bits a lane gives to a byte -/

/-- The lane whose field holds bit `i` of block byte `j`. -/
def laneOfBit (w j i : Nat) : Nat := (8 * j + (7 - i)) / w

theorem laneOfBit_eq_iff {w k : Nat} (j i : Nat) (hw : w ≠ 0) :
    laneOfBit w j i = k ↔ k * w ≤ 8 * j + (7 - i) ∧ 8 * j + (7 - i) < (k + 1) * w := by
  rw [laneOfBit, Nat.div_eq_iff (Nat.pos_of_ne_zero hw), Nat.add_one_mul k w]
  omega

/-- A byte's bit belongs to a lane that reaches the byte. -/
theorem laneOfBit_mem_laneSources {w j : Nat} (i : Nat) (hj : j < w) : laneOfBit w j i ∈ laneSources w j := by
  rw [← List.mem_toFinset, laneSources_toFinset hj, Finset.mem_Icc]
  exact ⟨Nat.div_le_div_right (by omega), Nat.div_le_div_right (by omega)⟩

/-- Bit `i` of byte `j` ends `8(j+1) - i` bits into the stream and the lane's value at `(k+1)*w`: the contribution's bit is
the value's at their distance. -/
theorem getLsbD_laneContribution {w j k i : Nat} (v : Nat) (hw : w ≠ 0) (hk : k ∈ laneSources w j) (hi : i < 8) :
    (laneContribution w j k v).getLsbD i =
      (decide (8 * (j + 1) ≤ (k + 1) * w + i) && v.testBit ((k + 1) * w + i - 8 * (j + 1))) := by
  have hpos := lane_position w k
  have hbits := footLen_bits (b := laneBit w k) hw
  have hreach := (mem_laneSources j k hw).mp hk
  have hsucc := Nat.add_one_mul k w
  have hlen : j - laneByte w k < (image v w (laneBit w k)).length := by rw [image_length]; omega
  rw [laneContribution, List.getD_eq_getElem _ _ hlen]
  simp only [image, splitBytes_get, BitVec.getLsbD_ofNat, Nat.testBit_shiftRight, Nat.testBit_shiftLeft, hi,
    decide_true, Bool.true_and]
  congr 2
  · exact propext (by omega)
  · omega

/-- Bit `t` of value `k` is bit `w*(7-k) + t` of the concatenation (R76). -/
theorem testBit_joinFields {w k t : Nat} {vs : List Nat} (hlen : vs.length = 8) (hfit : ∀ v ∈ vs, v < 2 ^ w)
    (hk : k < 8) (ht : t < w) : (vs.getD k 0).testBit t = (joinFields w vs).testBit (w * (7 - k) + t) := by
  have hk : k < vs.length := by omega
  rw [List.getD_eq_getElem _ _ hk, ← fieldOf_joinFields hfit hk, fieldOf, Nat.testBit_mod_two_pow,
    Nat.testBit_shiftRight, hlen]
  simp [ht]

/-- A lane that reaches a byte gives it those of the concatenation's bits that lie in its own field, and no other. -/
theorem getLsbD_laneContribution_of_fits {w j k i : Nat} {vs : List Nat} (hlen : vs.length = 8)
    (hfit : ∀ v ∈ vs, v < 2 ^ w) (hj : j < w) (hk : k ∈ laneSources w j) (hi : i < 8) :
    (laneContribution w j k (vs.getD k 0)).getLsbD i =
      (decide (laneOfBit w j i = k) && (joinFields w vs).testBit (8 * (w - 1 - j) + i)) := by
  have hw : w ≠ 0 := by omega
  obtain ⟨hk8, -, -⟩ := (mem_laneSources j k hw).mp hk
  have hsucc := Nat.add_one_mul k w
  rw [getLsbD_laneContribution _ hw hk hi]
  by_cases hown : laneOfBit w j i = k
  · obtain ⟨hfirst, hend⟩ := (laneOfBit_eq_iff j i hw).mp hown
    obtain ⟨d, hd⟩ := Nat.exists_eq_add_of_le (Nat.le_of_lt_succ hk8)
    have hblock : (k + 1) * w + w * d = 8 * w := by rw [Nat.mul_comm w, ← Nat.add_mul]; congr 1; omega
    rw [testBit_joinFields hlen hfit hk8 (by omega), decide_eq_true hown, decide_eq_true (by omega),
      show 7 - k = d by omega]
    congr 2
    omega
  · have hval : vs.getD k 0 < 2 ^ w := by
      rw [List.getD_eq_getElem _ _ (by omega)]; exact hfit _ (List.getElem_mem _)
    have hout := mt (laneOfBit_eq_iff j i hw).mpr hown
    rw [decide_eq_false hown, Bool.false_and, Bool.and_eq_false_imp, decide_eq_true_iff]
    intro hin
    exact Nat.testBit_lt_two_pow (hval.trans_le (Nat.pow_le_pow_right (by decide) (by omega)))

theorem getLsbD_foldr_or {f : Nat → Byte} (ks : List Nat) (i : Nat) :
    (ks.foldr (fun k acc => f k ||| acc) 0#8).getLsbD i = ks.any fun k => (f k).getLsbD i := by
  induction ks with
  | nil => simp
  | cons k ks ih => rw [List.foldr_cons, BitVec.getLsbD_or, ih, List.any_cons]

/-- The OR of the contributions is the byte of the concatenation. -/
theorem muxByte_eq {w j : Nat} {vs : List Nat} (hlen : vs.length = 8) (hfit : ∀ v ∈ vs, v < 2 ^ w) (hj : j < w) :
    muxByte w vs j = BitVec.ofNat 8 (joinFields w vs >>> (8 * (w - 1 - j))) := by
  apply BitVec.eq_of_getLsbD_eq
  intro i hi
  have hbit : ∀ k ∈ laneSources w j, _ := fun k hk => getLsbD_laneContribution_of_fits hlen hfit hj hk hi
  rw [muxByte, getLsbD_foldr_or, BitVec.getLsbD_ofNat, Nat.testBit_shiftRight, decide_eq_true hi, Bool.true_and,
    Bool.eq_iff_iff, List.any_eq_true]
  constructor
  · rintro ⟨k, hk, htrue⟩
    rw [hbit k hk, Bool.and_eq_true] at htrue
    exact htrue.2
  · intro htrue
    have howner := laneOfBit_mem_laneSources i hj
    exact ⟨_, howner, by rw [hbit _ howner, htrue, decide_eq_true rfl, Bool.and_self]⟩

/-- Two lanes that reach a byte give it no bit in common: each bit belongs to one lane. -/
theorem laneContribution_disjoint {w j k k' : Nat} {vs : List Nat} (hlen : vs.length = 8)
    (hfit : ∀ v ∈ vs, v < 2 ^ w) (hj : j < w) (hk : k ∈ laneSources w j) (hk' : k' ∈ laneSources w j) (hne : k ≠ k') :
    laneContribution w j k (vs.getD k 0) &&& laneContribution w j k' (vs.getD k' 0) = 0#8 := by
  apply BitVec.eq_of_getLsbD_eq
  intro i hi
  rw [BitVec.getLsbD_and, getLsbD_laneContribution_of_fits hlen hfit hj hk hi,
    getLsbD_laneContribution_of_fits hlen hfit hj hk' hi, BitVec.getLsbD_zero]
  by_cases hown : laneOfBit w j i = k
  · simp [hown, hne]
  · simp [hown]

/-- Settles O33: bit `i` of byte `j` comes from lane `laneOfBit w j i` alone, and the sources of a byte are the lanes
`8j div w .. (8j+7) div w`. -/
theorem blockBytesAreTheLanesContributions : Obligations.BlockBytesAreTheLanesContributions := by
  refine ⟨fun w j vs hw1 _ hj hlen hfit => ?_, by decide, by decide, by decide, by decide⟩
  have hcount := laneSources_length hj
  have hfirst : 8 * j / w ≤ (8 * j + 7) / w := Nat.div_le_div_right (by omega)
  have hwide : (8 * j + 7) / w ≤ 8 * j / w + 8 / w + 1 := by
    have h7 : 7 / w ≤ 8 / w := Nat.div_le_div_right (by decide)
    rw [Nat.add_div hw1]; split <;> omega
  have hbyte : j < (splitBytes w (joinFields w vs)).length := by simpa using hj
  refine ⟨?_, by omega, le_min ?_ (by omega), fun k hk k' hk' => laneContribution_disjoint hlen hfit hj hk hk'⟩
  · rw [List.getElem?_eq_getElem hbyte, splitBytes_get, muxByte_eq hlen hfit hj]
  · exact (List.length_filter_le _ _).trans_eq List.length_range

end Sys2Proof.Machine
end

section
/-! PROOFS. The statements about the host's actions (43_host.md, R92 to R98): the access each one is, the stops it checks
for, and what it changes when it takes its step. -/

namespace Sys2Proof.Machine

open Sys2Proof.Claims

/-! ## The access of a host action (R92 to R98) -/

theorem encode_hostAction {cfg : Config} {i : Instr} (hi : performer i = none) :
    encode cfg i = .line (.access (assemble cfg i)) := by
  cases i with
  | pack | unpack | pack8 | unpack8 => cases hi
  | _ => rfl

/-- A well-formed host action is what its bus access decodes to. -/
theorem decodeAccess_assemble {cfg : Config} {i : Instr} (hwf : i.wellFormed cfg = true) (hi : performer i = none) :
    decodeAccess cfg (assemble cfg i) = .ok i := by
  simpa [encode_hostAction hi] using decode_encode hwf

/-- A value register that exists, of an engine that exists, is an operand R92 and R93 allow. -/
theorem valueRegister_inRange {cfg : Config} {e : Nat} (he : e < cfg.nEngines) (k : Fin 8) :
    (decide (e < cfg.nEngines) && decide (k.val < 8)) = true := by
  simp [he]

/-! ## Issuing (R48, R97) -/

/-- Two commands conflict when one of them writes a byte that the other touches (R48). -/
theorem conflict_iff {c c' : Word} : conflict c c' = true ↔ ∃ a,
    ((writeSpan c).has a = true ∧ ((readSpan c').has a = true ∨ (writeSpan c').has a = true)) ∨
    ((writeSpan c').has a = true ∧ (readSpan c).has a = true) := by
  simp only [conflict, Bool.or_eq_true, span_meets_iff, and_or_left, exists_or]

/-- A word clashes with the command of another busy engine (R48), byte by byte. -/
theorem overlaps_iff_shared_byte {s : State} {e : Nat} {c : Word} : overlaps s e c = true ↔
    ∃ e' g' c' a, e' ≠ e ∧ s.engines[e']? = some g' ∧ g'.status.busy = true ∧ g'.inflight = some c' ∧
      (((writeSpan c).has a = true ∧ ((readSpan c').has a = true ∨ (writeSpan c').has a = true)) ∨
       ((writeSpan c').has a = true ∧ (readSpan c).has a = true)) := by
  simp only [overlaps_iff, conflict_iff, exists_and_left]

theorem execCmd_overlap {s : State} {e : Nat} {g : Engine} {c : Word} (hg : s.engines[e]? = some g)
    (hb : g.status.busy = false) (hr : reservedWord c = false) (ho : overlaps s e c = true) :
    execCmd e c s = .fault .overlap := by
  simp [execCmd, withEngine_some _ hg, hb, hr, ho]

/-- Settles O38: the checks of CMD come in the rule's order, and `overlaps` is the clash of R48. -/
theorem issueLatchesTheCommandOrStops : Obligations.IssueLatchesTheCommandOrStops := by
  intro s e c g hg clash
  have hclash : overlaps s e c = true ↔ clash := overlaps_iff_shared_byte
  refine ⟨fun he => decodeAccess_assemble (i := .cmd e c) (decide_eq_true he) rfl, fun hb => execCmd_busy hg hb c,
    fun hb hr => execCmd_reserved hg hb hr, fun hb hr hc => execCmd_overlap hg hb hr (hclash.mpr hc), fun hb hr hc => ?_⟩
  have hfree : overlaps s e c = false := Bool.eq_false_iff.mpr (mt hclash.mp hc)
  exact ⟨_, g.issue c, execCmd_eq_next hg hb hr hfree, setEngine_get_same hg _, rfl, rfl, rfl, rfl, rfl,
    otherEnginesSame_setEngine s e _, rfl, rfl, rfl, rfl, rfl, rfl, rfl⟩

/-! ## The value registers (R92, R93) -/

theorem execWrval_eq_next {s : State} {e : Nat} {g : Engine} (hg : s.engines[e]? = some g)
    (hb : g.status.busy = false) (k : Fin 8) (v : Word) :
    execWrval e k v s = .next (s.setEngine e (g.setVal k v)).advance := by
  simp [execWrval, withEngine_some _ hg, withReg_lt _ k.isLt, hb]

/-- Settles O39: WRVAL checks for a busy engine and replaces the engine by one with the register set. -/
theorem writeValueRegisterSetsIt : Obligations.WriteValueRegisterSetsIt := by
  intro s e k v g hg
  refine ⟨fun he => ?_, fun hb => execWrval_busy hg hb k v, fun hb => ?_⟩
  · rw [Nat.add_assoc]
    exact decodeAccess_assemble (i := .wrval e k v) (valueRegister_inRange he k) rfl
  · exact ⟨_, g.setVal k v, execWrval_eq_next hg hb k v, setEngine_get_same hg _, val_setVal_same g k v,
      fun k' hk' => val_setVal_other g v hk'.symm, rfl, rfl, otherEnginesSame_setEngine s e _, rfl, rfl, rfl, rfl, rfl,
      rfl, rfl⟩

theorem execRdval_unwritten {s : State} {e : Nat} {g : Engine} (hg : s.engines[e]? = some g)
    (hb : g.status.busy = false) {k : Fin 8} (hv : g.val k = none) : execRdval e k s = .fault .unwritten := by
  simp [execRdval, withEngine_some _ hg, withReg_lt _ k.isLt, hb, hv]

theorem execRdval_eq_next {s : State} {e : Nat} {g : Engine} (hg : s.engines[e]? = some g)
    (hb : g.status.busy = false) {k : Fin 8} {v : Word} (hv : g.val k = some v) :
    execRdval e k s = .next (s.log (.val e k v)).advance := by
  simp [execRdval, withEngine_some _ hg, withReg_lt _ k.isLt, hb, hv]

/-- Settles O40: RDVAL checks for a busy engine, then for an unwritten register, and logs the value. -/
theorem readValueRegisterLogsIt : Obligations.ReadValueRegisterLogsIt := by
  intro s e k g hg
  refine ⟨fun he => ?_, fun hb => execRdval_busy hg hb k, fun hb hv => execRdval_unwritten hg hb hv,
    fun v hb hv => ⟨_, execRdval_eq_next hg hb hv, rfl, rfl, rfl, rfl, rfl, rfl, rfl, rfl⟩⟩
  rw [Nat.add_assoc]
  exact decodeAccess_assemble (i := .rdval e k) (valueRegister_inRange he k) rfl

/-! ## The status register (R26, R94) -/

/-- The status word in R94's own form, `BUSY | (ERRCODE << 1) | (ERRVAL << 8)`, as a natural: no field is cut off. -/
theorem status_word_toNat_or (t : Status) :
    t.word.toNat = t.busy.toNat ||| (t.errCode.toNat <<< 1) ||| (t.errVal.toNat <<< 8) := by
  have hcode := t.errCode.isLt
  have hbusy : t.busy.toNat < 2 ^ 1 := Bool.toNat_lt t.busy
  have hlow : t.errCode.toNat <<< 1 ||| t.busy.toNat < 2 ^ 8 := by
    rw [← Nat.shiftLeft_add_eq_or_of_lt hbusy, Nat.shiftLeft_eq]; omega
  rw [status_word_toNat, ← Nat.shiftLeft_eq, ← Nat.shiftLeft_eq, Nat.shiftLeft_add_eq_or_of_lt hbusy,
    Nat.shiftLeft_add_eq_or_of_lt hlow, Nat.or_comm, Nat.or_comm (t.errCode.toNat <<< 1)]

/-- Settles O41: RDSTATUS asks nothing of the engine and logs its status word. -/
theorem readStatusAlwaysLogsTheFields : Obligations.ReadStatusAlwaysLogsTheFields := by
  intro s e g hg
  exact ⟨fun he => decodeAccess_assemble (i := .rdstatus e) (decide_eq_true he) rfl,
    _, g.status.word, execRdstatus_eq_next hg, rfl, status_word_toNat_or g.status, rfl, rfl, rfl, rfl, rfl, rfl, rfl⟩

/-! ## The buffer (R47, R95, R96) -/

theorem execWrbuf_outOfBounds {s : State} {a : Nat} (ha : s.cfg.bufBytes ≤ a) (v : Byte) :
    execWrbuf a v s = .fault .outOfBounds := by simp [execWrbuf, ha]

theorem execWrbuf_eq_next {s : State} {a : Nat} (ha : a < s.cfg.bufBytes) (hz : writeHazard s a = false) (v : Byte) :
    execWrbuf a v s = .next (s.setBuf (writeByte s.buf a v)).advance := by
  simp [execWrbuf, Nat.not_le.mpr ha, hz]

/-- A write hazard, with the byte among those the command reads or those it writes (R47). -/
theorem writeHazard_iff_used {s : State} {a : Nat} : writeHazard s a = true ↔
    ∃ g ∈ s.engines, g.status.busy = true ∧ ∃ c, g.inflight = some c ∧
      ((readSpan c).has a = true ∨ (writeSpan c).has a = true) := by
  simp only [writeHazard_iff, footHas, Bool.or_eq_true]

/-- Settles O43: WRBUF checks the bound, then the footprints of the busy engines, and writes its byte. -/
theorem writeBufferByteStoresIt : Obligations.WriteBufferByteStoresIt := by
  intro s a v used
  have hused : writeHazard s a = true ↔ used := writeHazard_iff_used
  refine ⟨rfl, fun ha => execWrbuf_outOfBounds ha v, fun ha hu => execWrbuf_hazard ha (hused.mpr hu) v,
    fun ha hu => ?_⟩
  have hfree : writeHazard s a = false := Bool.eq_false_iff.mpr (mt hused.mp hu)
  exact ⟨_, execWrbuf_eq_next ha hfree v, readByte_writeByte_same s.buf a v,
    fun x hx => readByte_writeByte_other s.buf v (by omega), rfl, rfl, rfl, rfl, rfl, rfl, rfl⟩

theorem execRdbuf_outOfBounds {s : State} {a : Nat} (ha : s.cfg.bufBytes ≤ a) :
    execRdbuf a s = .fault .outOfBounds := by simp [execRdbuf, ha]

theorem execRdbuf_unwritten {s : State} {a : Nat} (ha : a < s.cfg.bufBytes) (hz : readHazard s a = false)
    (hv : readByte s.buf a = none) : execRdbuf a s = .fault .unwritten := by
  simp [execRdbuf, Nat.not_le.mpr ha, hz, hv]

theorem execRdbuf_eq_next {s : State} {a : Nat} {v : Byte} (ha : a < s.cfg.bufBytes) (hz : readHazard s a = false)
    (hv : readByte s.buf a = some v) : execRdbuf a s = .next (s.log (.buf a v)).advance := by
  simp [execRdbuf, Nat.not_le.mpr ha, hz, hv]

/-- Settles O44: RDBUF checks the bound, then the write sets of the busy engines, then that the byte is written, and
logs it. -/
theorem readBufferByteLogsIt : Obligations.ReadBufferByteLogsIt := by
  intro s a written
  have hwritten : readHazard s a = true ↔ written := readHazard_iff
  have hfree : ¬ written → readHazard s a = false := fun hw => Bool.eq_false_iff.mpr (mt hwritten.mp hw)
  exact ⟨rfl, execRdbuf_outOfBounds, fun ha hw => execRdbuf_hazard ha (hwritten.mpr hw),
    fun ha hw hv => execRdbuf_unwritten ha (hfree hw) hv,
    fun v ha hw hv => ⟨_, execRdbuf_eq_next ha (hfree hw) hv, rfl, rfl, rfl, rfl, rfl, rfl, rfl, rfl⟩⟩

/-! ## Waiting (R91, R98) -/

theorem engineBusy_eq {s : State} {e : Nat} {g : Engine} (hg : s.engines[e]? = some g) :
    engineBusy s e = g.status.busy := by simp [engineBusy, hg]

/-- The host can move exactly when a line stands at `hpc` and it is no WAIT on a busy engine. -/
theorem hostEnabled_iff {s : State} : hostEnabled s = true ↔
    ∃ x, s.prog[s.hpc]? = some x ∧ ∀ e, decodeLine s.cfg x = .ok (.wait e) → engineBusy s e = false := by
  unfold hostEnabled
  split
  · next hx => simp [hx]
  · next x hx =>
    split
    · next e hd => simp [hx, hd]
    · next hd => simp only [hx, Option.some.injEq, exists_eq_left', true_iff]; exact fun e he => absurd he (hd e)

/-- What the host can do at a WAIT. -/
theorem hostEnabled_wait_iff {s : State} {x : Line} {e : Nat} (hx : s.prog[s.hpc]? = some x)
    (hd : decodeLine s.cfg x = .ok (.wait e)) : hostEnabled s = true ↔ engineBusy s e = false := by
  simp [hostEnabled_iff, hx, hd]

theorem execWait_eq_next {s : State} {e : Nat} {g : Engine} (hg : s.engines[e]? = some g)
    (hb : g.status.busy = false) : execWait e s = .next s.advance := by
  simp [execWait, withEngine_some _ hg, hb]

/-- Settles O45: WAIT on an idle engine only moves `hpc` on, and the host's step at a WAIT asks for an idle engine. -/
theorem waitHoldsUntilTheEngineIsIdle : Obligations.WaitHoldsUntilTheEngineIsIdle := by
  intro s e g hg
  refine ⟨fun he => decodeAccess_assemble (i := .wait e) (decide_eq_true he) rfl,
    fun hb => ⟨_, execWait_eq_next hg hb, rfl, rfl, rfl, rfl, rfl, rfl, rfl, rfl⟩, fun x hx hd => ?_⟩
  rw [host_mem_enabled, hostEnabled_wait_iff hx hd, engineBusy_eq hg]
  exact ⟨fun hb => by simp [hb], id⟩

end Sys2Proof.Machine
end

section
/-! PROOFS. The statements about the order of the agents (43_host.md, R99, R100): the mover the order names, the placed
instruction, and that no instruction looks at the order. -/

namespace Sys2Proof.Machine

/-! ## Who moves (R100) -/

/-- Settles O50: the agent the order names first is picked when it can move, and whoever is picked can move. -/
theorem anyEnabledAgentMayMove : Obligations.AnyEnabledAgentMayMove := by
  refine ⟨fun s a rest ha => ?_, fun s => ?_⟩
  · have hnext : nextAgent { s with sched := a :: rest } = some a := pickAgent_sched rfl ha
    rw [step, hnext]
    rfl
  · cases hnext : nextAgent s with
    | none => exact .inl ⟨nextAgent_none.mp hnext, by rw [step, hnext]⟩
    | some a => exact .inr ⟨a, nextAgent_mem hnext, by rw [step, hnext]⟩

/-! ## The placed instruction (R90, R99) -/

theorem placeAt_get (x : Line) (l : List Line) (n : Nat) : (placeAt x l n)[n]? = some x := by
  induction n generalizing l with
  | zero => cases l <;> rfl
  | succ n ih => cases l <;> exact ih _

/-- No bus access of the opcode table is the poll of WAIT (log 8). -/
theorem tableAccess_ne_wait {cfg : Config} {off e : Nat} : decodeAccess cfg (tableAccess cfg off) ≠ .ok (.wait e) := by
  intro h
  obtain ⟨henc, -⟩ := encode_of_decodeAccess h
  unfold tableAccess at henc
  split at henc <;> cases henc

/-- A line placed at `hpc` that is no WAIT is fetched by the host, which can move, and the order names the host. -/
theorem place_line_next {s : State} {l : Line} (hl : ∀ e, decodeLine s.cfg l ≠ .ok (.wait e)) :
    nextAgent (s.place (.line l)) = some .host ∧ fetch (s.place (.line l)) .host = some (.line l) := by
  have hline : (s.place (.line l)).prog[(s.place (.line l)).hpc]? = some l := placeAt_get l s.prog s.hpc
  refine ⟨pickAgent_sched rfl (host_mem_enabled.mpr (hostEnabled_iff.mpr ⟨l, hline, fun e he => absurd he (hl e)⟩)), ?_⟩
  simp [fetch, hline]

/-- A command placed in an engine is fetched by it, which can move, and the order names it. -/
theorem place_command_next {s : State} {e : Nat} {g : Engine} (hg : s.engines[e]? = some g) (c : Word) :
    nextAgent (s.place (.command e c)) = some (.engine e) ∧
      fetch (s.place (.command e c)) (.engine e) = some (.command e c) := by
  have hplace : s.place (.command e c) = { s.setEngine e (g.issue c) with sched := .engine e :: s.sched } := by
    simp [State.place, hg]
  have hheld : (s.place (.command e c)).engines[e]? = some (g.issue c) := by
    rw [hplace]; exact setEngine_get_same hg _
  have hsched : (s.place (.command e c)).sched = .engine e :: s.sched := by rw [hplace]
  exact ⟨pickAgent_sched hsched (engine_mem_enabled_of hheld rfl), fetch_engine_iff.mpr ⟨_, c, hheld, rfl, rfl⟩⟩

@[simp] theorem place_cfg (s : State) (code : Code) : (s.place code).cfg = s.cfg := by
  unfold State.place
  split
  · rfl
  · split <;> rfl

/-- The table's bits, placed, are what the agent the order names fetches. -/
theorem withFetchWord_next {s : State} (nbits w : Nat) (hs : 0 < s.engines.length) :
    ∃ a, nextAgent (s.withFetchWord nbits w) = some a ∧
      fetch (s.withFetchWord nbits w) a = some (tableCode s.cfg nbits w) := by
  unfold State.withFetchWord tableCode
  split
  · exact ⟨.host, place_line_next fun e => tableAccess_ne_wait⟩
  · exact ⟨.engine 0, place_command_next (List.getElem?_eq_getElem hs) _⟩

/-- Settles O49: the placed code's agent is the next to move, and the step is the meaning of what it fetches. -/
theorem placedWordIsTheNextInstruction : Obligations.PlacedWordIsTheNextInstruction := by
  intro s nbits w i hs hd
  obtain ⟨a, hnext, hf⟩ := withFetchWord_next nbits w hs
  refine stepRunsTheDecodedInstruction _ a _ i hnext hf ?_
  rwa [State.withFetchWord, place_cfg]

/-! ## No instruction looks at the order (R25; log 3) -/

/-- `s` with other order fields. -/
def State.withOrder (order : List Agent) (n : Nat) (s : State) : State := { s with sched := order, ticks := n }

/-- The same outcome, with other order fields in the next state. -/
def outcomeWithOrder (order : List Agent) (n : Nat) :
    Host.Outcome State Fault Refusal → Host.Outcome State Fault Refusal
  | .next t => .next (t.withOrder order n)
  | .fault r => .fault r
  | .refused r => .refused r

section
variable {order : List Agent} {n : Nat} {s : State}

@[simp] theorem withOrder_engines : (s.withOrder order n).engines = s.engines := rfl
@[simp] theorem withOrder_buf : (s.withOrder order n).buf = s.buf := rfl

/-- An instruction that does not look at the order once it has its engine does not look at it at all. -/
theorem withEngine_withOrder {e : Nat} {f f' : Engine → Host.Outcome State Fault Refusal}
    (h : ∀ g, f' g = outcomeWithOrder order n (f g)) :
    withEngine (s.withOrder order n) e f' = outcomeWithOrder order n (withEngine s e f) := by
  simp only [withEngine, withOrder_engines]
  cases s.engines[e]? with
  | none => rfl
  | some g => exact h g

theorem withReg_withOrder {k : Nat} {f f' : Fin 8 → Host.Outcome State Fault Refusal}
    (h : ∀ r, f' r = outcomeWithOrder order n (f r)) : withReg k f' = outcomeWithOrder order n (withReg k f) := by
  unfold withReg
  split
  · exact h _
  · rfl

/-- A check does not look at the order when neither of the outcomes it chooses between does. -/
theorem ite_withOrder {c : Prop} [Decidable c] {x y x' y' : Host.Outcome State Fault Refusal}
    (hx : x' = outcomeWithOrder order n x) (hy : y' = outcomeWithOrder order n y) :
    (if c then x' else y') = outcomeWithOrder order n (if c then x else y) := by
  rw [hx, hy, apply_ite (outcomeWithOrder order n)]

/-- With other order fields every instruction has the same outcome, and hands the fields on: its checks look at the
engines, the buffer and the parameters. -/
theorem exec_withOrder (i : Instr) : exec i (s.withOrder order n) = outcomeWithOrder order n (exec i s) := by
  cases i with
  | pack e w k o b =>
    refine withEngine_withOrder fun g => ite_withOrder rfl ?_
    cases g.val k with
    | none => rfl
    | some v =>
      refine ite_withOrder rfl (ite_withOrder rfl ?_)
      simp only [withOrder_buf]
      cases packField s.buf o.toNat b.toNat w.toNat v.toNat <;> rfl
  | unpack e w k o b =>
    refine withEngine_withOrder fun g => ite_withOrder rfl (ite_withOrder rfl ?_)
    simp only [withOrder_buf]
    cases unpackField s.buf o.toNat b.toNat w.toNat <;> rfl
  | pack8 e w o =>
    refine withEngine_withOrder fun g => ite_withOrder rfl ?_
    cases g.lanes with
    | none => rfl
    | some vs => exact ite_withOrder rfl (ite_withOrder rfl rfl)
  | unpack8 e w o =>
    refine withEngine_withOrder fun g => ite_withOrder rfl (ite_withOrder rfl ?_)
    simp only [withOrder_buf]
    cases unpackBlock s.buf o.toNat w.toNat <;> rfl
  | cmd e c => exact withEngine_withOrder fun _ => ite_withOrder rfl (ite_withOrder rfl (ite_withOrder rfl rfl))
  | wrval e k v => exact withEngine_withOrder fun _ => withReg_withOrder fun _ => ite_withOrder rfl rfl
  | rdval e k =>
    refine withEngine_withOrder fun g => withReg_withOrder fun r => ite_withOrder rfl ?_
    cases g.val r <;> rfl
  | rdstatus e => exact withEngine_withOrder fun _ => rfl
  | wrbuf a v => exact ite_withOrder rfl (ite_withOrder rfl rfl)
  | rdbuf a =>
    refine ite_withOrder rfl (ite_withOrder rfl ?_)
    simp only [withOrder_buf]
    cases readByte s.buf a <;> rfl
  | wait e => exact withEngine_withOrder fun _ => ite_withOrder rfl rfl

/-- No instruction changes the order fields: it hands on any, so it hands on those it was given. -/
theorem exec_next_keeps_order {i : Instr} {t : State} (h : exec i s = .next t) :
    t.sched = s.sched ∧ t.ticks = s.ticks := by
  have hown : exec i s = outcomeWithOrder s.sched s.ticks (exec i s) := exec_withOrder i
  rw [h] at hown
  rw [Host.Outcome.next.inj hown]
  exact ⟨rfl, rfl⟩

end

/-- Settles O51: the outcome with other order fields is the outcome with its fields replaced. -/
theorem orderFieldsOnlyChooseTheMover : Obligations.OrderFieldsOnlyChooseTheMover := by
  intro i s order n
  have hexec : exec i (s.withOrder order n) = outcomeWithOrder order n (exec i s) := exec_withOrder i
  refine ⟨fun t h => ?_, fun r h => hexec.trans (congrArg _ h), fun r h => hexec.trans (congrArg _ h)⟩
  obtain ⟨hsched, hticks⟩ := exec_next_keeps_order h
  exact ⟨hsched, hticks, hexec.trans (congrArg _ h)⟩

end Sys2Proof.Machine
end

section
/-! PROOFS. The statements about whole runs (43_host.md, R98 to R101): when no agent can move, how many steps a run can
take, and fairness. The last two rest on `stepsLeft_lt`: every step of an agent that can move uses up one of
`stepsLeft`. -/

namespace Sys2Proof.Machine

/-! ## When no agent can move (R98, R99, R101) -/

theorem enabledAgents_eq_nil_iff {s : State} :
    enabledAgents s = [] ↔ hostEnabled s = false ∧ ∀ e, engineEnabled s e = false := by
  simp only [List.eq_nil_iff_forall_not_mem, ← Bool.not_eq_true, ← host_mem_enabled, ← engine_mem_enabled]
  refine ⟨fun h => ⟨h _, fun e => h _⟩, fun ⟨hhost, hengine⟩ a => ?_⟩
  cases a with
  | host => exact hhost
  | engine e => exact hengine e

theorem ended_iff {s : State} :
    ended s = true ↔ s.hpc = s.prog.length ∧ ∀ g ∈ s.engines, g.status.busy = false := by
  simp [ended]

/-- Where BUSY is 1 exactly for a command in flight, an engine can move exactly when it is busy (R24, R99). -/
theorem engineEnabled_eq_busy {s : State} (hs : Inv s) (e : Nat) : engineEnabled s e = engineBusy s e := by
  unfold engineEnabled engineBusy
  split
  · next g hg => exact (hs.engine g (List.mem_of_getElem? hg)).busy.symm
  · rfl

theorem all_idle_iff {s : State} :
    (∀ e, engineBusy s e = false) ↔ ∀ g ∈ s.engines, g.status.busy = false := by
  refine ⟨fun h g hg => ?_, fun h e => ?_⟩
  · obtain ⟨e, he⟩ := List.mem_iff_getElem?.mp hg
    exact (engineBusy_eq he).symm.trans (h e)
  · unfold engineBusy
    split
    · next g hg => exact h g (List.mem_of_getElem? hg)
    · rfl

/-- With every engine idle no WAIT holds the host: it can move exactly while a line is left. -/
theorem hostEnabled_of_idle {s : State} (h : ∀ e, engineBusy s e = false) :
    hostEnabled s = true ↔ s.hpc < s.prog.length := by
  simp [hostEnabled_iff, h, List.getElem?_eq_some_iff]

/-- Settles O55: no engine can move exactly when all are idle, and the host then can move while a line is left. -/
theorem noAgentCanMoveExactlyWhenEnded : Obligations.NoAgentCanMoveExactlyWhenEnded := by
  intro s hs
  simp only [enabledAgents_eq_nil_iff, ended_iff, ← all_idle_iff, engineEnabled_eq_busy hs]
  refine and_congr_left fun hidle => ?_
  rw [← Bool.not_eq_true, hostEnabled_of_idle hidle]
  have := hs.hpc
  omega

/-! ## How many steps a run can take (R91, R99) -/

/-- What replacing one engine does to the number of commands in flight. -/
theorem inFlightCount_set {s t : State} {e : Nat} {g g' : Engine} (hg : s.engines[e]? = some g)
    (ht : t.engines = s.engines.set e g') :
    inFlightCount t + g.inflight.isSome.toNat = inFlightCount s + g'.inflight.isSome.toNat := by
  obtain ⟨hlt, rfl⟩ := List.getElem?_eq_some_iff.mp hg
  have hcounted : s.engines[e].inflight.isSome.toNat ≤ inFlightCount s := by
    cases hold : s.engines[e].inflight.isSome with
    | false => exact Nat.zero_le _
    | true => exact List.countP_pos_iff.mpr ⟨_, List.getElem_mem hlt, hold⟩
  have hset : inFlightCount t =
      inFlightCount s - s.engines[e].inflight.isSome.toNat + g'.inflight.isSome.toNat := by
    simp [inFlightCount, ht, List.countP_set hlt, Bool.toNat, Bool.cond_eq_ite]
  omega

/-- A host action that answers a next state moves the host on, unless it is a WAIT that holds (R91, R98). -/
theorem hostAction_moves_on {i : Instr} {s t : State} (hi : performer i = none) (h : exec i s = .next t) :
    t.hpc = s.hpc + 1 ∨ ∃ e, i = .wait e ∧ engineBusy s e = true := by
  cases i with
  | pack | unpack | pack8 | unpack8 => cases hi
  | cmd e c => obtain ⟨g, -, -, -, -, rfl⟩ := execCmd_next h; exact .inl rfl
  | wrval e k v => obtain ⟨g, hk, -, -, rfl⟩ := execWrval_next h; exact .inl rfl
  | rdval e k => obtain ⟨g, v, -, -, -, -, rfl⟩ := execRdval_next h; exact .inl rfl
  | rdstatus e => obtain ⟨g, -, rfl⟩ := execRdstatus_next h; exact .inl rfl
  | wrbuf a v => obtain ⟨-, -, rfl⟩ := execWrbuf_next h; exact .inl rfl
  | rdbuf a => obtain ⟨v, -, -, -, rfl⟩ := execRdbuf_next h; exact .inl rfl
  | wait e =>
    obtain ⟨g, hg, ⟨hb, -⟩ | ⟨-, rfl⟩⟩ := execWait_next h
    · exact .inr ⟨e, rfl, (engineBusy_eq hg).trans hb⟩
    · exact .inl rfl

/-- A host action puts at most one more command in flight (R97). -/
theorem hostAction_inFlightCount_le {i : Instr} {s t : State} (hi : performer i = none) (h : exec i s = .next t) :
    inFlightCount t ≤ inFlightCount s + 1 := by
  obtain ⟨-, e, g, g', hg, -, ht⟩ | ⟨ht, -⟩ := hostAction_next hi h
  · have hcount := inFlightCount_set hg ht
    have hle := Bool.toNat_le g'.inflight.isSome
    omega
  · rw [inFlightCount, ht]
    exact Nat.le_succ _

/-- An agent that can move has something to fetch (R91, R99). -/
theorem fetch_of_enabled {s : State} {a : Agent} (ha : a ∈ enabledAgents s) : fetch s a ≠ none := by
  cases a with
  | host =>
    obtain ⟨x, hx, -⟩ := hostEnabled_iff.mp (host_mem_enabled.mp ha)
    simp [fetch, hx]
  | engine e =>
    obtain ⟨g, c, hg, hc⟩ := engineEnabled_iff.mp (engine_mem_enabled.mp ha)
    simp [fetch, hg, hc]

/-- The step of an agent that can move is the meaning of the instruction it fetches. -/
theorem enabled_stepAs_next {s t : State} {a : Agent} (ha : a ∈ enabledAgents s) (h : stepAs a s = .next t) :
    ∃ code i, fetch s a = some code ∧ decode s.cfg code = .ok i ∧ exec i s = .next t := by
  obtain ⟨hnone, -⟩ | hexec := stepAs_next h
  · exact absurd hnone (fetch_of_enabled ha)
  · exact hexec

/-- The perform step leaves one command fewer in flight (R29). -/
theorem engine_stepsLeft_lt {s t : State} {e : Nat} (ha : Agent.engine e ∈ enabledAgents s)
    (h : stepAs (.engine e) s = .next t) : stepsLeft t < stepsLeft s := by
  obtain ⟨g, c, hg, hc⟩ := engineEnabled_iff.mp (engine_mem_enabled.mp ha)
  obtain ⟨i, hd, hi⟩ := stepAs_engine_next hg hc h
  obtain ⟨m, g₀, g', hg₀, rfl, -, hin, -⟩ := command_next (decodeCommand_isCommandOf hd) hi
  obtain rfl : g = g₀ := Option.some.inj (hg.symm.trans hg₀)
  have hcount := inFlightCount_set (t := (s.setBuf m).setEngine e g') hg rfl
  simp only [hc, hin, Option.isSome_some, Option.isSome_none, Bool.toNat_true, Bool.toNat_false] at hcount
  simp only [stepsLeft, setEngine_prog, setBuf_prog, setEngine_hpc, setBuf_hpc]
  omega

/-- The host's step uses up an action, and puts at most one more command in flight (R91). -/
theorem host_stepsLeft_lt {s t : State} (ha : Agent.host ∈ enabledAgents s) (h : stepAs .host s = .next t) :
    stepsLeft t < stepsLeft s := by
  obtain ⟨code, i, hf, hd, hi⟩ := enabled_stepAs_next ha h
  have haction := host_decodes_action hf hd
  have hcount := hostAction_inFlightCount_le haction hi
  have hlt := host_fetch_lt hf
  obtain ⟨⟨-, hprog, -⟩, -⟩ := exec_next_keeps hi
  have hpc : t.hpc = s.hpc + 1 := by
    obtain hpc | ⟨e, rfl, hbusy⟩ := hostAction_moves_on haction hi
    · exact hpc
    · obtain ⟨x, hx, rfl⟩ := Option.map_eq_some_iff.mp hf
      have hidle := (hostEnabled_wait_iff hx hd).mp (host_mem_enabled.mp ha)
      simp [hbusy] at hidle
  rw [stepsLeft, stepsLeft, hprog, hpc]
  omega

/-- Every step of an agent that can move uses up one of the steps left. -/
theorem stepsLeft_lt {s t : State} {a : Agent} (ha : a ∈ enabledAgents s) (h : stepAs a s = .next t) :
    stepsLeft t < stepsLeft s := by
  cases a with
  | host => exact host_stepsLeft_lt ha h
  | engine e => exact engine_stepsLeft_lt ha h

/-- A run has stopped: in a fault, in a refusal, or in a state in which no agent can move. -/
def Stopped (r : Host.Outcome State Fault Refusal) : Prop :=
  (∃ t, r = .next t ∧ enabledAgents t = []) ∨ (∃ f, r = .fault f) ∨ (∃ f, r = .refused f)

/-- A step of the system uses up one of the steps left, while some agent can move. -/
theorem step_stepsLeft_lt {s t : State} (h : step s = .next t) (hs : enabledAgents s ≠ []) :
    stepsLeft t < stepsLeft s := by
  obtain ⟨hnil, -⟩ | ⟨a, ha, -, hstep⟩ := step_next h
  · exact absurd hnil hs
  · exact stepsLeft_lt (s := s.tick) ha hstep

theorem step_at_rest {s : State} (hs : enabledAgents s = []) : step s = .next s := by
  simp [step, nextAgent_none.mpr hs]

theorem run_succ_of_next {s t : State} (h : step s = .next t) (k : Nat) : core.run (k + 1) s = core.run k t := by
  have hstep : core.step s = .next t := h
  simp only [Host.Core.run, hstep]

theorem run_succ_of_fault {s : State} {r : Fault} (h : step s = .fault r) (k : Nat) :
    core.run (k + 1) s = .fault r := by
  have hstep : core.step s = .fault r := h
  simp only [Host.Core.run, hstep]

theorem run_succ_of_refused {s : State} {r : Refusal} (h : step s = .refused r) (k : Nat) :
    core.run (k + 1) s = .refused r := by
  have hstep : core.step s = .refused r := h
  simp only [Host.Core.run, hstep]

/-- At rest the run stays as it is (log 10). -/
theorem run_at_rest {s : State} (hs : enabledAgents s = []) (k : Nat) : core.run k s = .next s := by
  induction k with
  | zero => rfl
  | succ k ih => exact (run_succ_of_next (step_at_rest hs) k).trans ih

/-- With no host action left and no command in flight no agent can move. -/
theorem enabledAgents_of_stepsLeft_zero {s : State} (hs : stepsLeft s = 0) : enabledAgents s = [] := by
  rw [stepsLeft] at hs
  rw [enabledAgents_eq_nil_iff]
  refine ⟨Bool.eq_false_iff.mpr fun hhost => ?_, fun e => Bool.eq_false_iff.mpr fun he => ?_⟩
  · obtain ⟨x, hx, -⟩ := hostEnabled_iff.mp hhost
    obtain ⟨hlt, -⟩ := List.getElem?_eq_some_iff.mp hx
    omega
  · obtain ⟨g, c, hg, hc⟩ := engineEnabled_iff.mp he
    have hpos : 0 < inFlightCount s := List.countP_pos_iff.mpr ⟨g, List.mem_of_getElem? hg, by simp [hc]⟩
    omega

/-- Within any bound on the steps left, a run stops. -/
theorem run_stopped {k : Nat} {s : State} (hk : stepsLeft s ≤ k) : Stopped (core.run k s) := by
  induction k generalizing s with
  | zero => exact .inl ⟨s, rfl, enabledAgents_of_stepsLeft_zero (Nat.le_zero.mp hk)⟩
  | succ k ih =>
    by_cases hs : enabledAgents s = []
    · exact .inl ⟨s, run_at_rest hs _, hs⟩
    cases hstep : step s with
    | next t =>
      rw [run_succ_of_next hstep]
      exact ih (Nat.le_of_lt_succ ((step_stepsLeft_lt hstep hs).trans_le hk))
    | fault r => exact .inr (.inl ⟨r, run_succ_of_fault hstep k⟩)
    | refused r => exact .inr (.inr ⟨r, run_succ_of_refused hstep k⟩)

/-- Settles O56: by induction on the bound. -/
theorem everyRunStopsWithinItsBound : Obligations.EveryRunStopsWithinItsBound := fun _ => run_stopped le_rfl

/-! ## Fairness (R100) -/

/-- An engine that can move still can after another agent's step: only its own perform step takes its command away. -/
theorem stepAs_keeps_engineEnabled {s t : State} {a : Agent} {e : Nat} (h : stepAs a s = .next t) (ha : a ≠ .engine e)
    (he : engineEnabled s e = true) : engineEnabled t e = true := by
  obtain ⟨-, rfl⟩ | ⟨code, i, hf, hd, hi⟩ := stepAs_next h
  · exact he
  obtain ⟨g, c, hg, hc⟩ := engineEnabled_iff.mp he
  obtain ⟨g', hg', hstep, -⟩ := (exec_next_effect hi).2 e g hg
  cases hstep with
  | keeps _ _ hin => exact engineEnabled_iff.mpr ⟨g', c, hg', hin.trans hc⟩
  | issues c' _ _ _ _ _ hin => exact engineEnabled_iff.mpr ⟨g', c', hg', hin⟩
  | completes hcom _ _ =>
    refine absurd ?_ ha
    cases a with
    | host => simp [isCommandOf_iff, host_decodes_action hf hd] at hcom
    | engine e' =>
      have hown := isCommandOf_iff.mp (engine_decodes_command hf hd)
      rw [Option.some.inj (hown.symm.trans (isCommandOf_iff.mp hcom))]

/-- In a run in which some agent moves whenever one can, an engine that can move eventually does: until then every step
uses up one of the steps left. -/
theorem engine_eventually_moves {σ : Nat → State} {mover : Nat → Option Agent}
    (hrun : ∀ n, (∃ a ∈ enabledAgents (σ n), mover n = some a ∧ stepAs a (σ n) = .next (σ (n + 1))) ∨
      (enabledAgents (σ n) = [] ∧ mover n = none ∧ σ (n + 1) = σ n))
    {n e : Nat} (he : engineEnabled (σ n) e = true) : ∃ j, n ≤ j ∧ mover j = some (.engine e) := by
  induction hk : stepsLeft (σ n) using Nat.strong_induction_on generalizing n with
  | _ k ih =>
    obtain ⟨a, ha, hmover, hstep⟩ | ⟨hnil, -⟩ := hrun n
    · by_cases hown : a = .engine e
      · exact ⟨n, le_rfl, hown ▸ hmover⟩
      · have hlt := hk ▸ stepsLeft_lt ha hstep
        obtain ⟨j, hj, hmove⟩ := ih _ hlt (stepAs_keeps_engineEnabled hstep hown he) rfl
        exact ⟨j, Nat.le_of_succ_le hj, hmove⟩
    · simp [(enabledAgents_eq_nil_iff.mp hnil).2] at he

/-- Settles O57: by induction on the steps left. -/
theorem everyRunIsFair : Obligations.EveryRunIsFair := fun _ _ hrun _ _ => engine_eventually_moves hrun

end Sys2Proof.Machine
end

section
/-! PROOFS. The statements about what stops an instruction (60_exceptions.md): a missing engine or value register (R105),
and the order in which the conditions are looked at (R106). -/

namespace Sys2Proof.Machine

open Sys2Proof.Claims

/-! ## A missing engine or value register (R105) -/

/-- The engine an instruction names; none for a host access to the buffer. -/
def namedEngine : Instr → Option Nat
  | .pack e _ _ _ _ | .unpack e _ _ _ _ | .pack8 e _ _ | .unpack8 e _ _ | .cmd e _ | .wrval e _ _ | .rdval e _
  | .rdstatus e | .wait e => some e
  | .wrbuf _ _ | .rdbuf _ => none

theorem wellFormed_of_missing_engine {cfg : Config} {i : Instr} {e : Nat} (hi : namedEngine i = some e)
    (he : cfg.nEngines ≤ e) : i.wellFormed cfg = false := by
  cases i with
  | wrbuf | rdbuf => cases hi
  | _ =>
    obtain rfl := Option.some.inj hi
    simp [Instr.wellFormed, Nat.not_lt.mpr he]

/-- Every instruction that names an engine looks it up before anything else (log 15). -/
theorem exec_of_missing_engine {s : State} {i : Instr} {e : Nat} (hi : namedEngine i = some e)
    (he : s.engines.length ≤ e) : exec i s = .refused .unmapped := by
  cases i with
  | wrbuf | rdbuf => cases hi
  | _ =>
    obtain rfl := Option.some.inj hi
    exact withEngine_none _ (List.getElem?_eq_none he)

/-- An instruction that starts by looking up an engine and a register that does not exist is refused, whether or not the
engine exists. -/
theorem withEngine_withReg_missing {k : Nat} (s : State) (e : Nat)
    (f : Engine → Fin 8 → Host.Outcome State Fault Refusal) (hk : 8 ≤ k) :
    withEngine s e (fun g => withReg k (f g)) = .refused .unmapped := by
  cases hg : s.engines[e]? with
  | none => exact withEngine_none _ hg
  | some g => exact (withEngine_some _ hg).trans (dif_neg (Nat.not_lt.mpr hk))

/-- The host's step at a line that names an engine or a register that does not exist. -/
theorem stepAs_host_illFormed {s : State} {i : Instr} (hl : s.prog[s.hpc]? = some (.action i))
    (hi : i.wellFormed s.cfg = false) : stepAs .host s = .refused .unmapped := by
  simp [stepAs, fetch, hl, decodeLine_illFormed hi, refusalOf]

/-- No register stands in the window of an engine that does not exist, or below the first window (log 11). -/
theorem locate_outside {cfg : Config} {addr e : Nat}
    (h : (∃ off, off < 0x100 ∧ cfg.nEngines ≤ e ∧ addr = cfg.regBase + 0x100 * e + off) ∨ addr < cfg.regBase) :
    locate cfg addr = none := by
  refine Option.eq_none_iff_forall_ne_some.mpr fun ⟨e', r⟩ hr => ?_
  obtain ⟨off', he', hoff', haddr, -⟩ := locate_eq_some.mp hr
  rw [regAddr] at haddr
  omega

/-- Settles O10: the line is ill-formed, the address is no register's, and the meaning looks its operands up first. -/
theorem missingEngineOrRegisterIsRefused : Obligations.MissingEngineOrRegisterIsRefused := by
  intro s e k w j o b c v
  have hnames : ∀ i ∈ [Instr.pack e w j o b, .unpack e w j o b, .pack8 e w o, .unpack8 e w o, .cmd e c, .wrval e k v,
      .rdval e k, .rdstatus e, .wait e], namedEngine i = some e := by
    simp [namedEngine]
  refine ⟨fun he i hi hl => ?_, fun hk i hi hl => ?_, fun addr haddr x hx hl => ?_, fun he i hi => ?_, fun hk => ?_⟩
  · exact stepAs_host_illFormed hl (wellFormed_of_missing_engine (hnames i hi) he)
  · have hregister : ∀ i ∈ [Instr.wrval e k v, .rdval e k], i.wellFormed s.cfg = false := by
      simp [Instr.wellFormed, hk]
    exact stepAs_host_illFormed hl (hregister i hi)
  · have hnone := locate_outside haddr
    have hrejected : ∀ x ∈ [Access.regWrite 8 addr v, .regRead 8 addr], decodeAccess s.cfg x = .error .unmapped := by
      simp [decodeAccess_regWrite_of_locate_none hnone, decodeAccess_regRead_of_locate_none hnone]
    exact stepAs_host_unmapped hl (hrejected x hx)
  · exact exec_of_missing_engine (hnames i hi) he
  · exact ⟨withEngine_withReg_missing s e _ hk, withEngine_withReg_missing s e _ hk⟩

/-! ## What an unwritten operand leaves unanswered (R22, R31) -/

theorem readBytes_of_unwritten {m : List Host.Cell} {a n j : Nat} (hj : j < n) (h : readByte m (a + j) = none) :
    readBytes m a n = none := by
  refine Option.eq_none_iff_forall_ne_some.mpr fun bs hbs => ?_
  obtain ⟨hlen, hget⟩ := readBytes_eq_some.mp hbs
  simp [hget j (by omega)] at h

theorem packField_of_unwritten {m : List Host.Cell} {o b : Nat} (w v : Nat) (hb : 0 < b) (h : readByte m o = none) :
    packField m o b w v = none := by
  simp [packField, h, Nat.ne_of_gt hb]

theorem unpackField_of_unwritten {m : List Host.Cell} {o b w j : Nat} (hj : j < footLen b w)
    (h : readByte m (o + j) = none) : unpackField m o b w = none := by
  rw [unpackField, readBytes_of_unwritten hj h]

theorem unpackBlock_of_unwritten {m : List Host.Cell} {o w j : Nat} (hj : j < w) (h : readByte m (o + j) = none) :
    unpackBlock m o w = none := by
  rw [unpackBlock, readBytes_of_unwritten hj h]

theorem lanes_of_unwritten {g : Engine} {k : Fin 8} (h : g.val k = none) : g.lanes = none := by
  refine Option.eq_none_iff_forall_ne_some.mpr fun vs hvs => ?_
  obtain ⟨v, hv, -⟩ := lanes_eq_some_iff_val.mp hvs
  simp [hv k] at h

/-! ## The faults of the commands, in the rule's order (R64, R66, R68, R71, R76, R77, R78, R106) -/

theorem not_legal_iff {w : BitVec 8} : ¬ Legal w ↔ w.toNat = 0 ∨ 64 ≤ w.toNat := by
  rw [Legal]; omega

section
variable {s : State} {e : Nat} {g : Engine} {w : BitVec 8} {k : Fin 8} {o : BitVec 32} {b : BitVec 3} {v : Word}
variable (hg : s.engines[e]? = some g) (hw : Legal w)
include hg

/-- An illegal width faults a single-value command before anything else. -/
theorem singleValue_undefWidth (hw : ¬ Legal w) :
    exec (.pack e w k o b) s = .fault .undefWidth ∧ exec (.unpack e w k o b) s = .fault .undefWidth :=
  singleValueIllegalWidthFaults s e w k o b (List.getElem?_eq_some_iff.mp hg).1 (not_legal_iff.mp hw)

/-- An illegal width is reported by a block command before anything else. -/
theorem block_invalidWidth {i : Instr} (hw : ¬ Legal w) (hi : i = .pack8 e w o ∨ i = .unpack8 e w o) :
    ∃ t g', exec i s = .next t ∧ t.engines[e]? = some g' ∧ g'.status.errCode = 1#2 := by
  obtain ⟨t, g', hexec, hg', hcode, -⟩ :=
    invalidBlockWidthIsReportedAndDoesNothingElse s e w o g i hg (not_legal_iff.mp hw) hi
  exact ⟨t, g', hexec, hg', hcode⟩

include hw

theorem execPack_unwritten (hv : g.val k = none) : execPack e w k o b s = .fault .unwritten := by
  simp [execPack, withEngine_some _ hg, legal_iff_legalWidth.mp hw, hv]

theorem execPack_valueTooWide (hv : g.val k = some v) (hwide : 2 ^ w.toNat ≤ v.toNat) :
    execPack e w k o b s = .fault .valueTooWide := by
  simp [execPack, withEngine_some _ hg, legal_iff_legalWidth.mp hw, hv, hwide]

theorem execPack_outOfBounds (hv : g.val k = some v) (hfit : v.toNat < 2 ^ w.toNat)
    (hout : s.cfg.bufBytes ≤ o.toNat + spanned b w - 1) : execPack e w k o b s = .fault .outOfBounds := by
  rw [spanned_eq_footLen hw.1] at hout
  simp [execPack, withEngine_some _ hg, legal_iff_legalWidth.mp hw, hv, Nat.not_le.mpr hfit, hout]

theorem execPack_unwritten_byte (hv : g.val k = some v) (hfit : v.toNat < 2 ^ w.toNat)
    (hin : o.toNat + spanned b w - 1 < s.cfg.bufBytes) (hb : 0 < b.toNat) (hbyte : readByte s.buf o.toNat = none) :
    execPack e w k o b s = .fault .unwritten := by
  rw [spanned_eq_footLen hw.1] at hin
  simp [execPack, withEngine_some _ hg, legal_iff_legalWidth.mp hw, hv, Nat.not_le.mpr hfit, Nat.not_le.mpr hin,
    packField_of_unwritten _ _ hb hbyte]

theorem execUnpack_outOfBounds (hout : s.cfg.bufBytes ≤ o.toNat + spanned b w - 1) :
    execUnpack e w k o b s = .fault .outOfBounds := by
  rw [spanned_eq_footLen hw.1] at hout
  simp [execUnpack, withEngine_some _ hg, legal_iff_legalWidth.mp hw, hout]

theorem execUnpack_unwritten {j : Nat} (hin : o.toNat + spanned b w - 1 < s.cfg.bufBytes) (hj : j < spanned b w)
    (hbyte : readByte s.buf (o.toNat + j) = none) : execUnpack e w k o b s = .fault .unwritten := by
  rw [spanned_eq_footLen hw.1] at hin hj
  simp [execUnpack, withEngine_some _ hg, legal_iff_legalWidth.mp hw, Nat.not_le.mpr hin,
    unpackField_of_unwritten hj hbyte]

theorem execPack8_unwritten (hv : g.val k = none) : execPack8 e w o s = .fault .unwritten := by
  simp [execPack8, withEngine_some _ hg, legal_iff_legalWidth.mp hw, lanes_of_unwritten hv]

theorem execPack8_valueTooWide {vs : List Nat} {x : Nat} (hvs : g.lanes = some vs) (hx : x ∈ vs)
    (hwide : 2 ^ w.toNat ≤ x) : execPack8 e w o s = .fault .valueTooWide := by
  have hany : vs.any (fun v => 2 ^ w.toNat ≤ v) = true := List.any_eq_true.mpr ⟨x, hx, decide_eq_true hwide⟩
  simp only [execPack8, withEngine_some _ hg, legal_iff_legalWidth.mp hw, hvs, hany, Bool.true_eq_false, if_false,
    if_true]

theorem execPack8_outOfBounds {vs : List Nat} (hvs : g.lanes = some vs) (hfit : ∀ v ∈ vs, v < 2 ^ w.toNat)
    (hout : s.cfg.bufBytes ≤ o.toNat + w.toNat - 1) : execPack8 e w o s = .fault .outOfBounds := by
  simpa [execPack8, withEngine_some _ hg, legal_iff_legalWidth.mp hw, hvs, hout] using hfit

theorem execUnpack8_outOfBounds (hout : s.cfg.bufBytes ≤ o.toNat + w.toNat - 1) :
    execUnpack8 e w o s = .fault .outOfBounds := by
  simp [execUnpack8, withEngine_some _ hg, legal_iff_legalWidth.mp hw, hout]

theorem execUnpack8_unwritten {j : Nat} (hin : o.toNat + w.toNat - 1 < s.cfg.bufBytes) (hj : j < w.toNat)
    (hbyte : readByte s.buf (o.toNat + j) = none) : execUnpack8 e w o s = .fault .unwritten := by
  simp [execUnpack8, withEngine_some _ hg, legal_iff_legalWidth.mp hw, Nat.not_le.mpr hin,
    unpackBlock_of_unwritten hj hbyte]

end

/-- Settles O47: each condition's own lemma asks that the conditions before it in the rule's list do not hold. -/
theorem firstConditionInTheOrderDecides : Obligations.FirstConditionInTheOrderDecides := by
  intro s e g hg
  refine ⟨fun w k o b => ⟨?_, ?_, ?_, ?_, ?_, ?_, ?_, ?_⟩, fun w o => ⟨?_, ?_, ?_, ?_, ?_, ?_, ?_⟩,
    fun c => ⟨?_, ?_, ?_⟩, fun a x => ⟨?_, ?_, ?_, ?_, ?_⟩, fun k => ⟨?_, ?_⟩⟩
  -- PACK
  · exact fun hw => (singleValue_undefWidth hg hw).1
  · exact execPack_unwritten hg
  · exact fun _ => execPack_valueTooWide hg
  · exact fun _ => execPack_outOfBounds hg
  · exact fun _ => execPack_unwritten_byte hg
  -- UNPACK
  · exact fun hw => (singleValue_undefWidth (k := k) hg hw).2
  · exact execUnpack_outOfBounds hg
  · exact fun hw hin ⟨j, hj, hbyte⟩ => execUnpack_unwritten hg hw hin hj hbyte
  -- PACK8
  · exact fun hw => block_invalidWidth hg hw (.inl rfl)
  · exact fun hw ⟨k, hv⟩ => execPack8_unwritten hg hw hv
  · intro hw hwritten ⟨k, v, hv, hwide⟩
    choose u hu using fun k => Option.ne_none_iff_exists'.mp (hwritten k)
    obtain rfl : u k = v := Option.some.inj ((hu k).symm.trans hv)
    have hvs := lanes_eq_some_iff_val.mpr ⟨u, hu, rfl⟩
    exact execPack8_valueTooWide hg hw hvs (List.mem_ofFn.mpr ⟨k, rfl⟩) hwide
  · intro hw hv hout
    choose u hu hfit using hv
    have hvs := lanes_eq_some_iff_val.mpr ⟨u, hu, rfl⟩
    exact execPack8_outOfBounds hg hw hvs (List.forall_mem_ofFn_iff.mpr hfit) hout
  -- UNPACK8
  · exact fun hw => block_invalidWidth hg hw (.inr rfl)
  · exact execUnpack8_outOfBounds hg
  · exact fun hw hin ⟨j, hj, hbyte⟩ => execUnpack8_unwritten hg hw hin hj hbyte
  -- CMD
  · exact fun hb => execCmd_busy hg hb c
  · exact execCmd_reserved hg
  · exact execCmd_overlap hg
  -- WRBUF and RDBUF
  · exact fun ha => execWrbuf_outOfBounds ha x
  · exact fun ha hz => execWrbuf_hazard ha hz x
  · exact execRdbuf_outOfBounds
  · exact execRdbuf_hazard
  · exact execRdbuf_unwritten
  -- RDVAL
  · exact fun hb => execRdval_busy hg hb k
  · exact fun hb hv => execRdval_unwritten hg hb hv

end Sys2Proof.Machine
end

section
/-! PROOFS. The statement about launch (70_reset_and_hazards.md, R118): every launch state meets the invariant, and the state
after reset is a launch state. -/

namespace Sys2Proof.Machine

/-! ## Launch states (R33, R118) -/

/-- Reset leaves an engine idle, with nothing in flight and no error (R33). -/
theorem engineOk_reset : EngineOk Engine.reset where
  busy := rfl
  code := .inl ⟨rfl, rfl⟩
  word _ hc := nomatch hc

theorem eq_reset_of_isLaunch {s : State} (h : IsLaunch s) {g : Engine} (hg : g ∈ s.engines) :
    g = Engine.reset :=
  List.eq_of_mem_replicate (h.engines ▸ hg)

/-- No command is in flight at launch, so none conflict; the other parts of the invariant are premises of R118. -/
theorem inv_of_isLaunch {s : State} (h : IsLaunch s) : Inv s where
  count := by rw [h.engines, List.length_replicate]
  canonical := h.canonical
  inside := h.inside
  hpc := h.hpc ▸ Nat.zero_le _
  engine g hg := eq_reset_of_isLaunch h hg ▸ engineOk_reset
  race _ _ _ _ _ _ _ hg _ hc _ := by
    obtain rfl := eq_reset_of_isLaunch h (List.mem_of_getElem? hg)
    cases hc

theorem isLaunch_launch {cfg : Config} {bufInit : List Host.Cell} (prog : List Line) (sched : List Agent)
    (hvalid : cfg.Valid) (hcanonical : Memory.wf bufInit = true) (hinside : ∀ c ∈ bufInit, c.1 < cfg.bufBytes) :
    IsLaunch (State.launch cfg bufInit prog sched) where
  valid := hvalid
  engines := rfl
  canonical := hcanonical
  inside := hinside
  hpc := rfl
  log := rfl

/-- Settles O12: the state after reset is the launch of the standard parameters on an empty buffer. -/
theorem everyLaunchStateMeetsTheInvariant : Obligations.EveryLaunchStateMeetsTheInvariant :=
  ⟨fun _ => inv_of_isLaunch, isLaunch_launch [] [] (by decide) wf_reset (List.forall_mem_nil _)⟩

end Sys2Proof.Machine
end
